-- ==== Sys2Proof/Word.lean ====
section
/-!
DEFINITION. The word types of the h323plus CORE cipher block (00_scope.md R12): bytes, 32-bit register words,
byte strings, and the 16-byte blocks of the cipher (R5).
-/

namespace Sys2Proof

/-- A byte: an unsigned 8-bit value (00_scope.md R12). -/
abbrev Byte := BitVec 8

/-- A register word and a command word: 32 bits (20_memory.md R52, 30_encoding.md R70). -/
abbrev Word := BitVec 32

/-- A length register: 16 bits (10_state.md R40, R41). -/
abbrev Half := BitVec 16

/-- A byte string, first byte first (00_scope.md R12, 20_memory.md R65). -/
abbrev Bytes := List Byte

/-- A block: a byte string of length `B = 16` (00_scope.md R5, R12). -/
abbrev Block := Vector Byte 16

end Sys2Proof
end

