-- ==== Sys2Proof/Syntax.lean ====
section
/-!
DEFINITION. The commands of the block: one constructor for each row of spec/opcode_table.json (30_encoding.md R76).
-/

namespace Sys2Proof

/-- A channel, and the direction of the channel: 0 = ENC, 1 = DEC (00_scope.md R12, 10_state.md R25). -/
inductive Chan
  | enc
  | dec
  deriving DecidableEq, Repr

/-- The two values of the `CTS_MODE` field that name a codec mode, and the two that name none
(30_encoding.md R74, R82). -/
inductive CtsMode
  | cbc
  | ecb
  | mode2
  | mode3
  deriving DecidableEq, Repr

/-- A command, with the channel `c` its word is written to and the fields of the word that the command reads
(30_encoding.md R76). The fields a command ignores (R79) are no part of it. -/
inductive Instr
  /-- `NOP` (44_control.md R160). -/
  | nop (c : Chan)
  /-- `SETKEY` (43_cipher_engine.md R131). -/
  | setkey (c : Chan)
  /-- `GENKEY` (43_cipher_engine.md R134). -/
  | genkey (c : Chan)
  /-- `ENCRYPT` (43_cipher_engine.md R136). -/
  | encrypt (c : Chan) (seq : Bool)
  /-- `DECRYPT` (43_cipher_engine.md R142). -/
  | decrypt (c : Chan) (seq : Bool) (pad : Bool)
  /-- `CTS_ENC_INIT` (42_cts_codec.md R111). -/
  | ctsEncInit (c : Chan) (seq : Bool) (mode : CtsMode)
  /-- `CTS_DEC_INIT` (42_cts_codec.md R112). -/
  | ctsDecInit (c : Chan) (seq : Bool) (mode : CtsMode)
  /-- `CTS_ENC_UPDATE` (42_cts_codec.md R113). -/
  | ctsEncUpdate (c : Chan)
  /-- `CTS_DEC_UPDATE` (42_cts_codec.md R114). -/
  | ctsDecUpdate (c : Chan)
  /-- `CTS_ENC_FINAL` (42_cts_codec.md R115). -/
  | ctsEncFinal (c : Chan)
  /-- `CTS_DEC_FINAL` (42_cts_codec.md R116). -/
  | ctsDecFinal (c : Chan)
  /-- `IV_DERIVE` (41_iv_deriver.md R93). -/
  | ivDerive (c : Chan) (seq : Bool)
  /-- `ZEROIZE` (44_control.md R161). -/
  | zeroize (c : Chan)
  deriving DecidableEq, Repr

end Sys2Proof
end

