-- ==== Sys2Proof/WellFormed.lean ====
section
/-!
DEFINITION. Which commands are well formed: the "channel" column of the opcode table (30_encoding.md R76). The fields
of a command are of types that hold exactly the values the encoding admits, so the channel is all there is to check.
-/

namespace Sys2Proof

/-- The channel the command's word is written to. -/
def Instr.chan : Instr → Chan
  | .nop c => c
  | .setkey c => c
  | .genkey c => c
  | .encrypt c _ => c
  | .decrypt c _ _ => c
  | .ctsEncInit c _ _ => c
  | .ctsDecInit c _ _ => c
  | .ctsEncUpdate c => c
  | .ctsDecUpdate c => c
  | .ctsEncFinal c => c
  | .ctsDecFinal c => c
  | .ivDerive c _ => c
  | .zeroize c => c

/-- Whether the command may stand on channel `c` (30_encoding.md R76, the channel columns). -/
def Instr.allowedOn (c : Chan) : Instr → Bool
  | .nop _ => true
  | .setkey _ => true
  | .genkey _ => true
  | .encrypt _ _ => c = .enc
  | .decrypt _ _ _ => c = .dec
  | .ctsEncInit _ _ _ => c = .enc
  | .ctsDecInit _ _ _ => c = .dec
  | .ctsEncUpdate _ => c = .enc
  | .ctsDecUpdate _ => c = .dec
  | .ctsEncFinal _ => c = .enc
  | .ctsDecFinal _ => c = .dec
  | .ivDerive _ _ => true
  | .zeroize _ => true

/-- A command is well formed when it stands on a channel that its row of the opcode table allows. -/
def Instr.wellFormed (i : Instr) : Bool :=
  i.allowedOn i.chan

end Sys2Proof
end

