-- ==== Sys2Proof/Decode.lean ====
section
/-!
DEFINITION. The command word (30_encoding.md R70): its fields, the decoder of R77, total on every word and every byte
string and rejecting by name, and the encoder of R82.
-/

namespace Sys2Proof

/-- Why a word is `ILLEGAL` (30_encoding.md R75, R78), or why a byte string holds no word. -/
inductive DecodeError
  /-- Fewer than four bytes: no command word (R81). -/
  | truncated
  /-- A reserved bit, 7:5 or 31:12, is set (R75). -/
  | reservedBits
  /-- An opcode 0x0A to 0x1F (R76, R78). -/
  | unusedOpcode
  /-- `ENCRYPT` on channel 1 or `DECRYPT` on channel 0 (R78). -/
  | wrongChannel
  deriving DecidableEq, Repr

/-- The four bytes of a word in the order they stand in the register space: little-endian lanes (20_memory.md R53). -/
def wordBytes (w : Word) : Bytes :=
  [w.extractLsb' 0 8, w.extractLsb' 8 8, w.extractLsb' 16 8, w.extractLsb' 24 8]

/-- The word that four bytes make, byte `j` in bits `8j+7 : 8j` (20_memory.md R53). -/
def wordOfBytes (b0 b1 b2 b3 : Byte) : Word :=
  b3 ++ b2 ++ b1 ++ b0

/-- `OPCODE = word[4:0]`, an unsigned number (30_encoding.md R71). -/
def opcodeOf (w : Word) : Nat :=
  (w.extractLsb' 0 5).toNat

/-- `SEQ_PRESENT = word[8]` (30_encoding.md R72). -/
def seqPresentOf (w : Word) : Bool :=
  w.getLsbD 8

/-- `RTP_PAD_IN = word[9]` (30_encoding.md R73). -/
def rtpPadInOf (w : Word) : Bool :=
  w.getLsbD 9

/-- The codec mode a 2-bit field names (30_encoding.md R74). -/
def CtsMode.ofBits (b : BitVec 2) : CtsMode :=
  match b.toNat with
  | 0 => .cbc
  | 1 => .ecb
  | 2 => .mode2
  | _ => .mode3

/-- The 2-bit code of a codec mode (30_encoding.md R74, R82). -/
def CtsMode.toBits : CtsMode → BitVec 2
  | .cbc => 0
  | .ecb => 1
  | .mode2 => 2
  | .mode3 => 3

/-- `CTS_MODE = word[11:10]` (30_encoding.md R74). -/
def ctsModeOf (w : Word) : CtsMode :=
  .ofBits (w.extractLsb' 10 2)

/-- Whether a reserved bit of the word, 7:5 or 31:12, is set (30_encoding.md R75). -/
def reservedBitSet (w : Word) : Bool :=
  w.extractLsb' 5 3 != 0 || w.extractLsb' 12 20 != 0

/-- Decoding of a word written to channel `c`, total (30_encoding.md R77). An error is the outcome `ILLEGAL`. -/
def decode (c : Chan) (w : Word) : Except DecodeError Instr :=
  if reservedBitSet w then .error .reservedBits
  else
    match opcodeOf w with
    | 0x00 => .ok (.nop c)
    | 0x01 => .ok (.setkey c)
    | 0x02 => .ok (.genkey c)
    | 0x03 =>
      match c with
      | .enc => .ok (.encrypt c (seqPresentOf w))
      | .dec => .error .wrongChannel
    | 0x04 =>
      match c with
      | .enc => .error .wrongChannel
      | .dec => .ok (.decrypt c (seqPresentOf w) (rtpPadInOf w))
    | 0x05 =>
      match c with
      | .enc => .ok (.ctsEncInit c (seqPresentOf w) (ctsModeOf w))
      | .dec => .ok (.ctsDecInit c (seqPresentOf w) (ctsModeOf w))
    | 0x06 =>
      match c with
      | .enc => .ok (.ctsEncUpdate c)
      | .dec => .ok (.ctsDecUpdate c)
    | 0x07 =>
      match c with
      | .enc => .ok (.ctsEncFinal c)
      | .dec => .ok (.ctsDecFinal c)
    | 0x08 => .ok (.ivDerive c (seqPresentOf w))
    | 0x09 => .ok (.zeroize c)
    | _ => .error .unusedOpcode

/-- Decoding of the bytes of the register space: a command word is four bytes, little-endian (20_memory.md R53,
30_encoding.md R81); the bytes after it are returned. -/
def decodeBytes (c : Chan) : Bytes → Except DecodeError (Instr × Bytes)
  | b0 :: b1 :: b2 :: b3 :: rest =>
    match decode c (wordOfBytes b0 b1 b2 b3) with
    | .ok i => .ok (i, rest)
    | .error e => .error e
  | _ => .error .truncated

/-- The opcode of a command (30_encoding.md R76). -/
def Instr.opcode : Instr → Word
  | .nop _ => 0x00
  | .setkey _ => 0x01
  | .genkey _ => 0x02
  | .encrypt _ _ => 0x03
  | .decrypt _ _ _ => 0x04
  | .ctsEncInit _ _ _ => 0x05
  | .ctsDecInit _ _ _ => 0x05
  | .ctsEncUpdate _ => 0x06
  | .ctsDecUpdate _ => 0x06
  | .ctsEncFinal _ => 0x07
  | .ctsDecFinal _ => 0x07
  | .ivDerive _ _ => 0x08
  | .zeroize _ => 0x09

/-- The word with `SEQ_PRESENT`, `RTP_PAD_IN` and `CTS_MODE` at their places (30_encoding.md R70, R82). -/
def commandWord (opcode : Word) (seq pad : Bool) (mode : CtsMode) : Word :=
  opcode ||| (BitVec.ofBool seq).setWidth 32 <<< 8 ||| (BitVec.ofBool pad).setWidth 32 <<< 9
    ||| mode.toBits.setWidth 32 <<< 10

/-- The word of a command, `OPCODE | seq<<8 | pad<<9 | mode<<10` (30_encoding.md R82), with 0 in the fields the command
ignores. -/
def encode : Instr → Word
  | .encrypt c seq => commandWord (Instr.encrypt c seq).opcode seq false .cbc
  | .decrypt c seq pad => commandWord (Instr.decrypt c seq pad).opcode seq pad .cbc
  | .ctsEncInit c seq mode => commandWord (Instr.ctsEncInit c seq mode).opcode seq false mode
  | .ctsDecInit c seq mode => commandWord (Instr.ctsDecInit c seq mode).opcode seq false mode
  | .ivDerive c seq => commandWord (Instr.ivDerive c seq).opcode seq false .cbc
  | .nop c => (Instr.nop c).opcode
  | .setkey c => (Instr.setkey c).opcode
  | .genkey c => (Instr.genkey c).opcode
  | .ctsEncUpdate c => (Instr.ctsEncUpdate c).opcode
  | .ctsDecUpdate c => (Instr.ctsDecUpdate c).opcode
  | .ctsEncFinal c => (Instr.ctsEncFinal c).opcode
  | .ctsDecFinal c => (Instr.ctsDecFinal c).opcode
  | .zeroize c => (Instr.zeroize c).opcode

/-- The bits of the word that decoding the command looks at: the opcode, the reserved bits, and the fields the command
reads (30_encoding.md R76 "fields read", R77, R79). -/
def Instr.readMask : Instr → Word
  | .nop _ => 0xFFFFF0FF
  | .setkey _ => 0xFFFFF0FF
  | .genkey _ => 0xFFFFF0FF
  | .encrypt _ _ => 0xFFFFF1FF
  | .decrypt _ _ _ => 0xFFFFF3FF
  | .ctsEncInit _ _ _ => 0xFFFFFDFF
  | .ctsDecInit _ _ _ => 0xFFFFFDFF
  | .ctsEncUpdate _ => 0xFFFFF0FF
  | .ctsDecUpdate _ => 0xFFFFF0FF
  | .ctsEncFinal _ => 0xFFFFF0FF
  | .ctsDecFinal _ => 0xFFFFF0FF
  | .ivDerive _ _ => 0xFFFFF1FF
  | .zeroize _ => 0xFFFFF0FF

/-- The channel on which a bare word of the opcode table is read. The table gives a word no channel: its rows for the
two channels have the same bits (30_encoding.md R76). Channel 0, but for `DECRYPT`, which only channel 1 has.
DESIGN CHOICE (log 10), safe: nothing of the machine uses it. -/
def tableChan (w : Word) : Chan :=
  if opcodeOf w = 0x04 then .dec else .enc

/-- The command read from an instruction of `nbits` bits whose bits are `w`, every bit above them 0: laid out as the
four little-endian bytes of the command register and given to the decoder. -/
def decodeTableWord (nbits w : Nat) : Option Instr :=
  let v := w % 2 ^ nbits
  if 2 ^ 32 ≤ v then none
  else
    match decodeBytes (tableChan (BitVec.ofNat 32 v)) (wordBytes (BitVec.ofNat 32 v)) with
    | .ok (i, _) => some i
    | .error _ => none

end Sys2Proof
end

