-- ==== Sys2Proof/Config.lean ====
section
/-!
DEFINITION. What an instance of the block fixes at construction, and the free values the spec leaves open
(92_eei_decisions.md, "Parameters left open"). The free values are constants without a body: nothing can be proved
of what they are, so whatever is proved holds for every value of theirs.
-/

namespace Sys2Proof.Config

/-- `ALG_ID_CFG` of the instance that `State.reset` describes: 0, AES128, the value 95_test_vectors.md assumes unless
it says otherwise. DESIGN CHOICE (log 2), unsafe only for claims about `State.reset`: the algorithm is a field of
State, and a statement over every state holds for every algorithm code. -/
def algIdCfg : Byte := 0

/-- `MAX_LEN` of the instance that `State.reset` describes: the spec's default (00_scope.md R8).
DESIGN CHOICE (log 3), unsafe only for claims about `State.reset`: the maximum length is a field of State. -/
def maxLenCfg : Nat := 4096

/-- Byte `i` of draw number `k` of the parameter `ENTROPY` (00_scope.md R10): any byte. DESIGN CHOICE (log 4), safe. -/
opaque entropyByte : Nat → Nat → Byte

/-- The unspecified value that read number `k` returns while a channel is busy (20_memory.md R58, 93 U2): any word.
DESIGN CHOICE (log 5), safe. -/
opaque unspecifiedRead : Nat → Word

/-- Which engine moves when both channels have a pending command and the agenda does not say (20_memory.md R60):
`false` is engine 0, `true` is engine 1. DESIGN CHOICE (log 7), safe. -/
opaque engineTurn : Nat → Bool

end Sys2Proof.Config
end

