-- ==== Sys2Proof/Machine/State.lean ====
section
/-!
DEFINITION. The state of one block instance as plain data (10_state.md R20, R25, R30), the model's own fields beside it,
the reasons a step can stop, and the state after reset (10_state.md R46).
-/

namespace Sys2Proof.Machine

/-- The bytes of the host register space that are held as memory: the four data windows (20_memory.md R51), each byte at
its host offset. A list of offset and byte in ONE form: offsets strictly rising, no byte 0, since 0 is what an unlisted
offset reads as (the windows' reset contents, 10_state.md R46). -/
abbrev Memory := List Host.Cell

/-- `PMODE`, the path a direction last took (10_state.md R35). The code 3 is never written, and a model
need not represent it (93 U12). DEDUCED (log 14), safe. -/
inductive PadMode
  /-- 0: block-aligned, no padding, no stealing. -/
  | standard
  /-- 1: ciphertext stealing, no padding. -/
  | none
  /-- 2: RTP-native padding. -/
  | rtp
  deriving DecidableEq, Repr

/-- The error codes of `STATUS.ERRCODE` (60_exceptions.md R171). Codes 9 to 15 are never produced (93 U13).
DEDUCED (log 14), safe. -/
inductive ErrCode
  | ok
  | unsupportedAlgorithm
  | invalidKeyLength
  | badPadding
  | missingState
  | unsupportedMode
  | noKey
  | badLength
  | illegalCommand
  deriving DecidableEq, Repr

/-- The codec state of one direction (10_state.md R30). -/
structure Codec where
  /-- `BUF`, the partial-block buffer (R31). -/
  buf : Block
  /-- `BLEN`, the pending bytes of `BUF`, 0 to 16 (R31). -/
  blen : Nat
  /-- `FIN`, the pending-final block, untransformed (R32). -/
  fin : Block
  /-- `FUSED`, the pending-final block is there (R32). -/
  fused : Bool
  /-- `CHAIN`, the current IV (R33). -/
  chain : Block
  /-- `CMODE`, the codec mode (R34). -/
  cmode : CtsMode
  /-- `PMODE`, the padding mode (R35). -/
  pmode : PadMode
  deriving DecidableEq, Repr

/-- The stored bits of `STATUS[c]` (10_state.md R38). `BUSY` is `PENDING[c]` not idle (R26) and `KEY_VALID` mirrors the
block's (R38): both are computed, not stored a second time (log 13). -/
structure Status where
  done : Bool
  err : Bool
  overrun : Bool
  rtpPadOut : Bool
  errcode : ErrCode
  deriving DecidableEq, Repr

/-- The snapshot an accepted command computes from (10_state.md R26). -/
structure Snapshot where
  word : Word
  len : Half
  seq : Vector Byte 6
  /-- `IN[c][0..min(LEN[c], MAX_LEN))`. -/
  inp : Bytes
  keywin : Vector Byte 32
  deriving DecidableEq, Repr

/-- The registers of one channel (10_state.md R25). Its windows `IN[c]` and `OUT[c]` are in the memory. -/
structure Channel where
  /-- `CMD[c]`, the last accepted command word (R37). -/
  cmd : Word
  /-- `STATUS[c]` (R38). -/
  status : Status
  /-- `INT_EN[c].DONE_EN` (R39). -/
  doneEn : Bool
  /-- `INT_EN[c].OVR_EN` (R39). -/
  ovrEn : Bool
  /-- `LEN[c]` (R40). -/
  len : Half
  /-- `OUT_LEN[c]` (R41). -/
  outLen : Half
  /-- `SEQ[c]` (R42). -/
  seq : Vector Byte 6
  /-- `PENDING[c]`: `none` is idle (R26). -/
  pending : Option Snapshot
  deriving DecidableEq, Repr

/-- The width of a host access in bits (20_memory.md R52). -/
inductive Width
  | w8
  | w16
  | w32
  | w64
  deriving DecidableEq, Repr

/-- One host access, at an offset of the host register space (20_memory.md R50, 00_scope.md R12). The value of a write is
given as 32 bits, since a write of another width is never performed (R52). DESIGN CHOICE (log 17, 23), safe. -/
inductive HostAccess
  | read (width : Width) (off : BitVec 16)
  | write (width : Width) (off : BitVec 16) (value : Word)
  deriving DecidableEq, Repr

/-- What happens next at the block's boundary: a host access, a completion step of a channel's engine, or an assertion
of the reset input (20_memory.md R60, 70_reset_and_hazards.md R200). -/
inductive Event
  | host (a : HostAccess)
  | completion (c : Chan)
  | reset
  deriving DecidableEq, Repr

/-- The answer to the last host access: the model's own field, since the spec gives an access an answer and the block no
register for it (log 11). -/
inductive BusResponse
  /-- No access has been answered since reset. -/
  | idle
  /-- A write was taken. -/
  | written
  /-- A read returned this word. -/
  | data (w : Word)
  /-- The bus error `AccessFault` (60_exceptions.md R176). -/
  | accessFault
  deriving DecidableEq, Repr

/-- The state of one block instance. -/
structure State where
  /-- `ALG_ID`, a construction constant (10_state.md R20, R27). -/
  algId : Byte
  /-- `MAX_LEN`, a construction parameter (00_scope.md R8, 10_state.md R28). -/
  maxLen : Nat
  /-- `KEY` (10_state.md R23). -/
  key : Vector Byte 32
  /-- `KEY_VALID` (10_state.md R23). -/
  keyValid : Bool
  /-- `KEYWIN` (10_state.md R24). -/
  keywin : Vector Byte 32
  /-- `S[ENC]` (10_state.md R30). -/
  codecEnc : Codec
  /-- `S[DEC]` (10_state.md R30). -/
  codecDec : Codec
  /-- `CH[0]` (10_state.md R25). -/
  chanEnc : Channel
  /-- `CH[1]` (10_state.md R25). -/
  chanDec : Channel
  /-- `IN[0]`, `OUT[0]`, `IN[1]`, `OUT[1]` (10_state.md R43, R44). -/
  mem : Memory
  /-- The model's own: the answer to the last host access (log 11). -/
  bus : BusResponse
  /-- The model's own: how many free values have been drawn (log 12). -/
  draws : Nat
  /-- The model's own: the events still to come, in order (20_memory.md R60, log 6). -/
  agenda : List Event
  deriving DecidableEq, Repr

/-- Why the machine stops with a fault. -/
inductive Fault
  /-- A meaning was asked to complete a command on a channel that has accepted none. The spec has no completion step
  there (44_control.md R163). Raised by the meanings, when run by hand on an idle channel; `step` never asks for it.
  Safe: the model stops where the hardware does nothing (log 9). -/
  | noCommandPending
  deriving DecidableEq, Repr

/-- Why a meaning is refused. -/
inductive Refusal
  /-- The instruction has no meaning in the model. Raised by no arm of `exec` any more: every command has its meaning.
  Safe. -/
  | notModelled (mnemonic : String)
  deriving DecidableEq, Repr

/-- The codec state after reset (10_state.md R46), and after `ZEROIZE` (44_control.md R161). -/
def Codec.reset : Codec :=
  { buf := Vector.replicate 16 0, blen := 0, fin := Vector.replicate 16 0, fused := false,
    chain := Vector.replicate 16 0, cmode := .cbc, pmode := .standard }

/-- The stored status bits after reset (10_state.md R46). -/
def Status.reset : Status :=
  { done := false, err := false, overrun := false, rtpPadOut := false, errcode := .ok }

/-- A channel after reset (10_state.md R46). -/
def Channel.reset : Channel :=
  { cmd := 0, status := Status.reset, doneEn := false, ovrEn := false, len := 0, outLen := 0,
    seq := Vector.replicate 6 0, pending := none }

/-- The state after reset of an instance with algorithm code `alg` and maximum length `maxLen` (10_state.md R46,
70_reset_and_hazards.md R200): the parameters are as constructed, every other element is zero or idle. -/
def State.resetOf (alg : Byte) (maxLen : Nat) : State :=
  { algId := alg, maxLen := maxLen, key := Vector.replicate 32 0, keyValid := false,
    keywin := Vector.replicate 32 0, codecEnc := Codec.reset, codecDec := Codec.reset,
    chanEnc := Channel.reset, chanDec := Channel.reset, mem := [], bus := .idle, draws := 0, agenda := [] }

/-- The machine right after reset: of the instance that Config names (log 2, 3). -/
def State.reset : State :=
  State.resetOf Config.algIdCfg Config.maxLenCfg

end Sys2Proof.Machine
end

