-- ==== Sys2Proof/Machine/Ops.lean ====
section
/-!
DEFINITION. The named operations over the state: byte strings, the byte memory and its windows, access to the codec
states and channels, the key, random draws, and the life cycle of a command: acceptance (44_control.md R162), `finish`
(R163), and `raise` (60_exceptions.md R172), which is this block's taking of an exception, with the host's clearing of
pending bits (R182), its return from one.
-/

namespace Sys2Proof.Machine

/-! ### Byte strings -/

/-- The first `n` bytes of a string as a field of `n` bytes, with zeros after the string's end. -/
def pack (n : Nat) (s : Bytes) : Vector Byte n :=
  ⟨((s ++ List.replicate n 0).take n).toArray, by simp⟩

/-- `zeros(n)` (00_scope.md R12). -/
def zeros (n : Nat) : Bytes :=
  List.replicate n 0

/-- `xor(a, b)` of two blocks (00_scope.md R12). -/
def xorBlock (a b : Block) : Block :=
  pack 16 (List.zipWith (· ^^^ ·) a.toList b.toList)

/-- Writing the bytes `s` into a block from index `i` on, as in `BUF[i .. i + len(s)) <- s` (42_cts_codec.md R102); the
other bytes stay. -/
def splice (v : Block) (i : Nat) (s : Bytes) : Block :=
  pack 16 (v.toList.take i ++ s ++ v.toList.drop (i + s.length))

/-- The first `n` blocks of a string. -/
def takeBlocks : Nat → Bytes → List Block
  | 0, _ => []
  | n + 1, s => pack 16 (s.take 16) :: takeBlocks n (s.drop 16)

/-- `blocks(s)` of a string whose length is a multiple of 16 (00_scope.md R12). -/
def blocks (s : Bytes) : List Block :=
  takeBlocks (s.length / 16) s

/-! ### The byte memory -/

/-- The byte at an offset: 0 where none is listed, the windows' reset value (10_state.md R46). DEDUCED (log 20), safe. -/
def Memory.read : Memory → Nat → Byte
  | [], _ => 0
  | (b, v) :: m, a => if a = b then v else Memory.read m a

/-- Writing a byte, keeping the offsets rising and no byte 0 listed. -/
def Memory.write : Memory → Nat → Byte → Memory
  | [], a, v => if v = 0 then [] else [(a, v)]
  | (b, x) :: m, a, v =>
    if a < b then (if v = 0 then (b, x) :: m else (a, v) :: (b, x) :: m)
    else if a = b then (if v = 0 then m else (a, v) :: m)
    else (b, x) :: Memory.write m a v

/-- Writing a byte string, its first byte at offset `a`. -/
def Memory.writeBytes : Memory → Nat → Bytes → Memory
  | m, _, [] => m
  | m, a, v :: s => Memory.writeBytes (m.write a v) (a + 1) s

/-- The `n` bytes from offset `a` on. -/
def Memory.readBytes : Memory → Nat → Nat → Bytes
  | _, _, 0 => []
  | m, a, n + 1 => m.read a :: Memory.readBytes m (a + 1) n

/-- Every offset of the memory is at least `a`, and they rise strictly from there; no byte is 0. -/
def Memory.wfFrom : Nat → Memory → Bool
  | _, [] => true
  | a, (b, v) :: m => a ≤ b && v != 0 && Memory.wfFrom (b + 1) m

/-- The memory is in its one canonical form. -/
def Memory.wf (m : Memory) : Bool :=
  Memory.wfFrom 0 m

/-- Offset of `IN[c]` in the register space (20_memory.md R51). -/
def inBase : Chan → Nat
  | .enc => 0x2000
  | .dec => 0x6000

/-- Offset of `OUT[c]` in the register space (20_memory.md R51). -/
def outBase : Chan → Nat
  | .enc => 0x4000
  | .dec => 0x8000

/-! ### Codec states, channels and the other fields -/

/-- The other channel. -/
def otherChan : Chan → Chan
  | .enc => .dec
  | .dec => .enc

/-- `S[d]` (10_state.md R30). -/
def State.codec (s : State) : Chan → Codec
  | .enc => s.codecEnc
  | .dec => s.codecDec

/-- `S[d] <- x`. -/
def State.setCodec (s : State) (d : Chan) (x : Codec) : State :=
  match d with
  | .enc => { s with codecEnc := x }
  | .dec => { s with codecDec := x }

/-- The registers of channel `c` (10_state.md R25). -/
def State.chan (s : State) : Chan → Channel
  | .enc => s.chanEnc
  | .dec => s.chanDec

/-- Replacing the registers of channel `c`. -/
def State.setChan (s : State) (c : Chan) (x : Channel) : State :=
  match c with
  | .enc => { s with chanEnc := x }
  | .dec => { s with chanDec := x }

/-- Replacing the windows' contents. -/
def State.setMem (s : State) (m : Memory) : State :=
  { s with mem := m }

/-- Replacing the staging window's contents. -/
def State.setKeywin (s : State) (w : Vector Byte 32) : State :=
  { s with keywin := w }

/-- Replacing the key and its valid bit. -/
def State.setKey (s : State) (k : Vector Byte 32) (valid : Bool) : State :=
  { s with key := k, keyValid := valid }

/-- Replacing the answer to the last host access. -/
def State.setBus (s : State) (b : BusResponse) : State :=
  { s with bus := b }

/-- Replacing the count of free values drawn. -/
def State.setDraws (s : State) (n : Nat) : State :=
  { s with draws := n }

/-- Replacing the events to come. -/
def State.setAgenda (s : State) (l : List Event) : State :=
  { s with agenda := l }

/-- `STATUS[0].RTP_PAD_OUT <- b` (43_cipher_engine.md R140). -/
def State.setRtpPadOut (s : State) (b : Bool) : State :=
  s.setChan .enc { s.chan .enc with status := { (s.chan .enc).status with rtpPadOut := b } }

/-! ### The key -/

/-- `STATUS[c].BUSY`: 1 exactly when `PENDING[c]` is not idle (10_state.md R26). -/
def State.busy (s : State) (c : Chan) : Bool :=
  (s.chan c).pending.isSome

/-- Whether an algorithm code is one of the three recognised ones (00_scope.md R6, 10_state.md R27). -/
def algRecognised (alg : Byte) : Bool :=
  alg = 0 || alg = 1 || alg = 2

/-- `keylen` of an algorithm code, 0 for an unrecognised one (00_scope.md R6, 10_state.md R27 `KEYLEN`). -/
def keyLength (alg : Byte) : Nat :=
  if alg = 0 then 16 else if alg = 1 then 24 else if alg = 2 then 32 else 0

/-- The active key `KEY[0..keylen(ALG_ID))` (10_state.md R23). -/
def State.activeKey (s : State) : Bytes :=
  s.key.toList.take (keyLength s.algId)

/-- Installing a key: `KEY <- k ++ zeros(32 - len(k))`, `KEY_VALID <- 1` (43_cipher_engine.md R131, R134). -/
def State.installKey (s : State) (k : Bytes) : State :=
  s.setKey (pack 32 k) true

/-- `draw ENTROPY(n)`, draw number `k` (00_scope.md R10): any `n` bytes. -/
def entropyDraw (k n : Nat) : Bytes :=
  (List.range n).map (Config.entropyByte k)

/-! ### The life cycle of a command -/

/-- `finish(out)` (44_control.md R163, R164). `BUSY <- 0` is `PENDING[c] <- idle`. -/
def finish (c : Chan) (out : Bytes) (s : State) : State :=
  (s.setChan c { s.chan c with
    outLen := BitVec.ofNat 16 out.length
    status := { (s.chan c).status with err := false, errcode := .ok, done := true }
    pending := none }).setMem (s.mem.writeBytes (outBase c) out)

/-- `raise e` (60_exceptions.md R172), the block's taking of an exception: no trap, no saved registers (R181). It is
given the state from before the command, so every write of the command is discarded (R174). -/
def raiseError (c : Chan) (e : ErrCode) (s : State) : State :=
  s.setChan c { s.chan c with
    outLen := 0
    status := { (s.chan c).status with err := true, errcode := e, done := true }
    pending := none }

/-- The host's write of 1-bits to `STATUS[c]`, the block's return from an exception or interrupt (60_exceptions.md R179,
R182): bit 1 clears `DONE`, bit 3 clears `OVERRUN`, the other bits are read-only or reserved (10_state.md R38). -/
def clearStatus (c : Chan) (w : Word) (s : State) : State :=
  s.setChan c { s.chan c with
    status := { (s.chan c).status with
      done := (s.chan c).status.done && !w.getLsbD 1
      overrun := (s.chan c).status.overrun && !w.getLsbD 3 } }

/-- The outcome of a command's own rule: the state it writes and the bytes it emits, or the error it raises. -/
abbrev CommandResult := Except ErrCode (State × Bytes)

/-- A check of a command (60_exceptions.md R173): the checks after it are made only if it passes. -/
def require (ok : Bool) (e : ErrCode) (k : CommandResult) : CommandResult :=
  if ok then k else .error e

/-- The end of a command (44_control.md R163): exactly one of `finish` on the state the command wrote and `raise` on the
state from before the command. -/
def conclude (c : Chan) (s : State) : CommandResult → State
  | .ok (t, out) => finish c out t
  | .error e => raiseError c e s

/-- A completion step of channel `c` (44_control.md R163): the command's rule computes from the snapshot and the state of
the block, and the step is atomic. Without an accepted command there is no completion step (log 9). -/
def runCommand (c : Chan) (s : State) (rule : Snapshot → CommandResult) : Host.Outcome State Fault Refusal :=
  match (s.chan c).pending with
  | none => .fault .noCommandPending
  | some p => .next (conclude c s (rule p))

/-- The snapshot acceptance takes of channel `c` for the word `w` (10_state.md R26, 44_control.md R162). -/
def State.snapshot (s : State) (c : Chan) (w : Word) : Snapshot :=
  { word := w, len := (s.chan c).len, seq := (s.chan c).seq
    inp := s.mem.readBytes (inBase c) (min (s.chan c).len.toNat s.maxLen), keywin := s.keywin }

/-- Acceptance of the word `w` on an idle channel `c` (44_control.md R162). -/
def accept (c : Chan) (w : Word) (s : State) : State :=
  s.setChan c { s.chan c with
    cmd := w
    pending := some (s.snapshot c w)
    status := { (s.chan c).status with done := false, err := false, errcode := .ok } }

/-- The busy hazard (70_reset_and_hazards.md R205, 60_exceptions.md R177): the write is discarded and `OVERRUN` set. -/
def overrun (c : Chan) (s : State) : State :=
  s.setChan c { s.chan c with status := { (s.chan c).status with overrun := true } }

end Sys2Proof.Machine
end

