-- ==== Sys2Proof/Machine/Aes.lean ====
section
/-!
DEFINITION. The block transform `AES` (00_scope.md R9). The spec takes it as a parameter with one law, and says that a model
that instantiates it takes AES as standardised in FIPS-197: this file does, with general knowledge of that standard
(93_implementation_defined.md G1). PRESUMED (log 1), unsafe for claims about particular bytes of ciphertext only; the
codec (Codec.lean) is written over any pair of block functions.
-/

namespace Sys2Proof.Machine

/-- The block transform under one key: `e x = E(K, x)`, `d x = D(K, x)` (00_scope.md R9). -/
structure KeyedCipher where
  e : Block → Block
  d : Block → Block

namespace Aes

/-- A column of the AES state, and a word of the key schedule: four bytes, the first in row 0. -/
structure Col where
  r0 : Byte
  r1 : Byte
  r2 : Byte
  r3 : Byte
  deriving DecidableEq, Repr

/-- The AES state: four columns, filled column by column from the block's bytes. -/
structure St where
  c0 : Col
  c1 : Col
  c2 : Col
  c3 : Col
  deriving DecidableEq, Repr

/-- The substitution table of `SubBytes`: row `x`, the byte for `xy` at hexadecimal digit pair `y`. -/
def sboxRows : List Nat :=
  [0x637c777bf26b6fc53001672bfed7ab76,
   0xca82c97dfa5947f0add4a2af9ca472c0,
   0xb7fd9326363ff7cc34a5e5f171d83115,
   0x04c723c31896059a071280e2eb27b275,
   0x09832c1a1b6e5aa0523bd6b329e32f84,
   0x53d100ed20fcb15b6acbbe394a4c58cf,
   0xd0efaafb434d338545f9027f503c9fa8,
   0x51a3408f929d38f5bcb6da2110fff3d2,
   0xcd0c13ec5f974417c4a77e3d645d1973,
   0x60814fdc222a908846eeb814de5e0bdb,
   0xe0323a0a4906245cc2d3ac629195e479,
   0xe7c8376d8dd54ea96c56f4ea657aae08,
   0xba78252e1ca6b4c6e8dd741f4bbd8b8a,
   0x703eb5664803f60e613557b986c11d9e,
   0xe1f8981169d98e949b1e87e9ce5528df,
   0x8ca1890dbfe6426841992d0fb054bb16]

/-- The substitution table of `InvSubBytes`. -/
def invSboxRows : List Nat :=
  [0x52096ad53036a538bf40a39e81f3d7fb,
   0x7ce339829b2fff87348e4344c4dee9cb,
   0x547b9432a6c2233dee4c950b42fac34e,
   0x082ea16628d924b2765ba2496d8bd125,
   0x72f8f66486689816d4a45ccc5d65b692,
   0x6c704850fdedb9da5e154657a78d9d84,
   0x90d8ab008cbcd30af7e45805b8b34506,
   0xd02c1e8fca3f0f02c1afbd0301138a6b,
   0x3a9111414f67dcea97f2cfcef0b4e673,
   0x96ac7422e7ad3585e2f937e81c75df6e,
   0x47f11a711d29c5896fb7620eaa18be1b,
   0xfc563e4bc6d279209adbc0fe78cd5af4,
   0x1fdda8338807c731b11210592780ec5f,
   0x60517fa919b54a0d2de57a9f93c99cef,
   0xa0e03b4dae2af5b0c8ebbb3c83539961,
   0x172b047eba77d626e169146355210c7d]

/-- Looking a byte up in a table of 16 rows of 16 bytes. -/
def lookup (rows : List Nat) (b : Byte) : Byte :=
  BitVec.ofNat 8 (rows.getD (b.toNat / 16) 0 >>> (8 * (15 - b.toNat % 16)))

def sbox (b : Byte) : Byte := lookup sboxRows b

def invSbox (b : Byte) : Byte := lookup invSboxRows b

/-- Multiplication by `x` in the field of 256 elements, modulo `x^8 + x^4 + x^3 + x + 1`. -/
def xtime (b : Byte) : Byte :=
  b <<< 1 ^^^ if b.msb then 0x1b else 0

def mul3 (b : Byte) : Byte := xtime b ^^^ b
def mul9 (b : Byte) : Byte := xtime (xtime (xtime b)) ^^^ b
def mul11 (b : Byte) : Byte := xtime (xtime (xtime b) ^^^ b) ^^^ b
def mul13 (b : Byte) : Byte := xtime (xtime (xtime b ^^^ b)) ^^^ b
def mul14 (b : Byte) : Byte := xtime (xtime (xtime b ^^^ b) ^^^ b)

/-- The bytewise exclusive-or of two columns. -/
def Col.xor (a b : Col) : Col :=
  ⟨a.r0 ^^^ b.r0, a.r1 ^^^ b.r1, a.r2 ^^^ b.r2, a.r3 ^^^ b.r3⟩

def Col.map (f : Byte → Byte) (a : Col) : Col :=
  ⟨f a.r0, f a.r1, f a.r2, f a.r3⟩

/-- `MixColumns` of one column. -/
def Col.mix (a : Col) : Col :=
  ⟨xtime a.r0 ^^^ mul3 a.r1 ^^^ a.r2 ^^^ a.r3,
   a.r0 ^^^ xtime a.r1 ^^^ mul3 a.r2 ^^^ a.r3,
   a.r0 ^^^ a.r1 ^^^ xtime a.r2 ^^^ mul3 a.r3,
   mul3 a.r0 ^^^ a.r1 ^^^ a.r2 ^^^ xtime a.r3⟩

/-- `InvMixColumns` of one column. -/
def Col.invMix (a : Col) : Col :=
  ⟨mul14 a.r0 ^^^ mul11 a.r1 ^^^ mul13 a.r2 ^^^ mul9 a.r3,
   mul9 a.r0 ^^^ mul14 a.r1 ^^^ mul11 a.r2 ^^^ mul13 a.r3,
   mul13 a.r0 ^^^ mul9 a.r1 ^^^ mul14 a.r2 ^^^ mul11 a.r3,
   mul11 a.r0 ^^^ mul13 a.r1 ^^^ mul9 a.r2 ^^^ mul14 a.r3⟩

def St.mapCols (f : Col → Col) (s : St) : St :=
  ⟨f s.c0, f s.c1, f s.c2, f s.c3⟩

/-- `AddRoundKey`. -/
def St.addKey (s k : St) : St :=
  ⟨s.c0.xor k.c0, s.c1.xor k.c1, s.c2.xor k.c2, s.c3.xor k.c3⟩

/-- `ShiftRows`: row `r` moves `r` columns to the left. -/
def St.shiftRows (s : St) : St :=
  ⟨⟨s.c0.r0, s.c1.r1, s.c2.r2, s.c3.r3⟩, ⟨s.c1.r0, s.c2.r1, s.c3.r2, s.c0.r3⟩,
   ⟨s.c2.r0, s.c3.r1, s.c0.r2, s.c1.r3⟩, ⟨s.c3.r0, s.c0.r1, s.c1.r2, s.c2.r3⟩⟩

/-- `InvShiftRows`. -/
def St.invShiftRows (s : St) : St :=
  ⟨⟨s.c0.r0, s.c3.r1, s.c2.r2, s.c1.r3⟩, ⟨s.c1.r0, s.c0.r1, s.c3.r2, s.c2.r3⟩,
   ⟨s.c2.r0, s.c1.r1, s.c0.r2, s.c3.r3⟩, ⟨s.c3.r0, s.c2.r1, s.c1.r2, s.c0.r3⟩⟩

def St.ofBlock (b : Block) : St :=
  ⟨⟨b[0], b[1], b[2], b[3]⟩, ⟨b[4], b[5], b[6], b[7]⟩, ⟨b[8], b[9], b[10], b[11]⟩,
   ⟨b[12], b[13], b[14], b[15]⟩⟩

def St.toBlock (s : St) : Block :=
  #v[s.c0.r0, s.c0.r1, s.c0.r2, s.c0.r3, s.c1.r0, s.c1.r1, s.c1.r2, s.c1.r3,
     s.c2.r0, s.c2.r1, s.c2.r2, s.c2.r3, s.c3.r0, s.c3.r1, s.c3.r2, s.c3.r3]

/-- The words of a byte string, four bytes each. -/
def cols : Bytes → List Col
  | a :: b :: c :: d :: s => ⟨a, b, c, d⟩ :: cols s
  | _ => []

/-- `RotWord`. -/
def Col.rot (a : Col) : Col :=
  ⟨a.r1, a.r2, a.r3, a.r0⟩

/-- The round constant number `n`, from 1 on. -/
def rcon : Nat → Byte
  | 0 => 0x8d
  | n + 1 => xtime (rcon n)

/-- The next word of the key schedule: word number `i`, from the words before it, the last first, for a key of `nk`
words. -/
def nextWord (nk i : Nat) (before : List Col) : Col :=
  let last := before.getD 0 ⟨0, 0, 0, 0⟩
  let mixed :=
    if i % nk = 0 then (last.rot.map sbox).xor ⟨rcon (i / nk), 0, 0, 0⟩
    else if 6 < nk ∧ i % nk = 4 then last.map sbox
    else last
  (before.getD (nk - 1) ⟨0, 0, 0, 0⟩).xor mixed

/-- Extending the key schedule by `n` words, from word number `i` on; the last word first. -/
def expand (nk : Nat) : Nat → Nat → List Col → List Col
  | 0, _, before => before
  | n + 1, i, before => expand nk n (i + 1) (nextWord nk i before :: before)

/-- The round keys of a list of words. -/
def roundKeysOf : List Col → List St
  | a :: b :: c :: d :: s => ⟨a, b, c, d⟩ :: roundKeysOf s
  | _ => []

/-- The key schedule: `Nk + 7` round keys of a key of `Nk` words. -/
def roundKeys (key : Bytes) : List St :=
  let nk := key.length / 4
  roundKeysOf (expand nk (4 * (nk + 7) - nk) nk (cols key).reverse).reverse

/-- The rounds after the initial `AddRoundKey`; the last has no `MixColumns`. -/
def rounds : List St → St → St
  | [], s => s
  | [k], s => ((s.mapCols (·.map sbox)).shiftRows).addKey k
  | k :: ks, s => rounds ks ((((s.mapCols (·.map sbox)).shiftRows).mapCols Col.mix).addKey k)

/-- The rounds undone, the last first. -/
def invRounds : List St → St → St
  | [], s => s
  | [k], s => ((s.addKey k).invShiftRows).mapCols (·.map invSbox)
  | k :: ks, s => ((((invRounds ks s).addKey k).mapCols Col.invMix).invShiftRows).mapCols (·.map invSbox)

/-- The cipher under a list of round keys. -/
def cipher : List St → St → St
  | [], s => s
  | k :: ks, s => rounds ks (s.addKey k)

/-- The inverse cipher under a list of round keys. -/
def invCipher : List St → St → St
  | [], s => s
  | k :: ks, s => (invRounds ks s).addKey k

end Aes

/-- `E(K, ·)` and `D(K, ·)` under the key `K` of 16, 24 or 32 bytes (00_scope.md R9). -/
def aesUnder (key : Bytes) : KeyedCipher :=
  { e := fun x => (Aes.cipher (Aes.roundKeys key) (Aes.St.ofBlock x)).toBlock
    d := fun x => (Aes.invCipher (Aes.roundKeys key) (Aes.St.ofBlock x)).toBlock }

/-- The block transform under the active key at this state (43_cipher_engine.md R133). -/
def State.cipher (s : State) : KeyedCipher :=
  aesUnder s.activeKey

end Sys2Proof.Machine
end

