-- ==== Sys2Proof/Machine/Codec.lean ====
section
/-!
DEFINITION. The CTS codec as functions on the codec state of one direction (42_cts_codec.md R100 to R110), over any keyed
block transform `K`.
-/

namespace Sys2Proof.Machine

/-- `Xf(d, x)` (42_cts_codec.md R100). Only the modes CBC and ECB reach it (R110); the other two are treated as CBC.
DESIGN CHOICE (log 15), safe. -/
def xf (K : KeyedCipher) (d : Chan) (x : Block) (s : Codec) : Block × Codec :=
  if s.cmode = .ecb then
    match d with
    | .enc => (K.e x, s)
    | .dec => (K.d x, s)
  else
    match d with
    | .enc =>
      let y := K.e (xorBlock x s.chain)
      (y, { s with chain := y })
    | .dec => (xorBlock (K.d x) s.chain, { s with chain := x })

/-- `Xs(d, ·)` on a list of blocks (42_cts_codec.md R101). -/
def xsBlocks (K : KeyedCipher) (d : Chan) : List Block → Codec → Bytes × Codec
  | [], s => ([], s)
  | x :: xs, s =>
    let y := xf K d x s
    let ys := xsBlocks K d xs y.2
    (y.1.toList ++ ys.1, ys.2)

/-- `Xs(d, s)` of a byte string whose length is a multiple of 16 (42_cts_codec.md R101). -/
def xs (K : KeyedCipher) (d : Chan) (bytes : Bytes) (s : Codec) : Bytes × Codec :=
  xsBlocks K d (blocks bytes) s

/-- The start of an update that fills the buffer: a pending final block is emitted first (42_cts_codec.md R102). -/
def emitPending (K : KeyedCipher) (d : Chan) (s : Codec) : Bytes × Codec :=
  if s.fused then
    let y := xf K d s.fin s
    (y.1.toList, { y.2 with fused := false })
  else ([], s)

/-- `Update(d, in)` (42_cts_codec.md R102). -/
def ctsUpdate (K : KeyedCipher) (d : Chan) (inp : Bytes) (s : Codec) : Bytes × Codec :=
  let b := s.blen
  let n := inp.length
  if b + n ≤ 16 then ([], { s with buf := splice s.buf b inp, blen := b + n })
  else
    let first := emitPending K d s
    let k := 16 - b
    let full := splice s.buf b (inp.take k)
    let rest := inp.drop k
    let r := n - k
    if r ≤ 16 then
      (first.1, { first.2 with fin := full, fused := true, buf := splice full 0 rest, blen := r })
    else
      let filled := xf K d full first.2
      let t := if r % 16 = 0 then 16 else r % 16
      let m := r - t - 16
      let bulk := xs K d (rest.take m) filled.2
      (first.1 ++ filled.1.toList ++ bulk.1,
        { bulk.2 with
          fin := pack 16 ((rest.drop m).take 16), fused := true
          buf := splice full 0 (rest.drop (m + 16)), blen := t })

/-- `Final(ENC)` in ECB mode (42_cts_codec.md R105). -/
def finalEncEcb (K : KeyedCipher) (s : Codec) : Bytes × Codec :=
  let t := s.blen
  let y := K.e s.fin
  let buf := splice s.buf t (y.toList.drop t)
  let z := K.e buf
  (z.toList ++ y.toList.take t, { s with buf := buf })

/-- `Final(ENC)` in CBC mode (42_cts_codec.md R106). -/
def finalEncCbc (K : KeyedCipher) (s : Codec) : Bytes × Codec :=
  let t := s.blen
  let y := K.e (xorBlock s.fin s.chain)
  let buf := splice s.buf t (zeros (16 - t))
  let z := K.e (xorBlock buf y)
  (z.toList ++ y.toList.take t, { s with buf := buf, chain := z })

/-- `Final(DEC)` in ECB mode (42_cts_codec.md R107). -/
def finalDecEcb (K : KeyedCipher) (s : Codec) : Bytes × Codec :=
  let t := s.blen
  let v := K.d s.fin
  let buf := splice s.buf t (v.toList.drop t)
  let u := K.d buf
  (u.toList ++ v.toList.take t, { s with buf := buf })

/-- `Final(DEC)` in CBC mode (42_cts_codec.md R108): the source's sequence, whose exclusive-ors with the chaining values
cancel. -/
def finalDecCbc (K : KeyedCipher) (s : Codec) : Bytes × Codec :=
  let t := s.blen
  let x := s.chain
  let cz : Block := pack 16 (s.buf.toList.take t ++ zeros (16 - t))
  let v0 := xorBlock (K.d s.fin) x
  let v1 := xorBlock v0 x
  let v := xorBlock v1 cz
  let yf : Block := pack 16 (s.buf.toList.take t ++ v.toList.drop t)
  let u0 := xorBlock (K.d yf) s.fin
  let u1 := xorBlock u0 s.fin
  let u := xorBlock u1 x
  (u.toList ++ v.toList.take t, { s with buf := yf, chain := yf })

/-- The final step of a direction in the codec's mode (42_cts_codec.md R115, R116). -/
def finalStep (K : KeyedCipher) (d : Chan) (s : Codec) : Bytes × Codec :=
  match d with
  | .enc => if s.cmode = .ecb then finalEncEcb K s else finalEncCbc K s
  | .dec => if s.cmode = .ecb then finalDecEcb K s else finalDecCbc K s

/-- `Final(d)`: its precondition (42_cts_codec.md R104), its final step (R105 to R108), and what it leaves (R109). -/
def ctsFinal (K : KeyedCipher) (d : Chan) (s : Codec) : Except ErrCode (Bytes × Codec) :=
  if s.fused = false ∨ s.blen = 0 then .error .missingState
  else .ok ((finalStep K d s).1, { (finalStep K d s).2 with blen := 0, fused := false })

/-- Starting a stream or a message in a direction: the IV is installed and the buffer emptied (41_iv_deriver.md R92,
42_cts_codec.md R111, 43_cipher_engine.md R136). The bytes of `BUF` and `FIN` stay, stale (10_state.md R31).
DEDUCED (log 16), safe. -/
def Codec.start (s : Codec) (iv : Block) (mode : CtsMode) : Codec :=
  { s with chain := iv, blen := 0, fused := false, cmode := mode }

end Sys2Proof.Machine
end

