-- ==== Sys2Proof/Machine/Operands.lean ====
section
/-!
DEFINITION. The operands of the commands (30_encoding.md R80), all from the snapshot (10_state.md R26), the IV deriver
(41_iv_deriver.md), and the checks several commands share (60_exceptions.md R173).
-/

namespace Sys2Proof.Machine

/-- `n` copies of a string. -/
def repeatBytes : Nat → Bytes → Bytes
  | 0, _ => []
  | n + 1, s => s ++ repeatBytes n s

/-- `IvDerive(L, seq)` (41_iv_deriver.md R90). -/
def ivDerive (l : Nat) : Option (Vector Byte 6) → Bytes
  | none => zeros l
  | some s => repeatBytes (l / 6) s.toList ++ s.toList.take (l % 6)

/-- The IV seed `sq` of a command whose `SEQ_PRESENT` is `present` (30_encoding.md R72, 41_iv_deriver.md R92). -/
def Snapshot.seed (p : Snapshot) (present : Bool) : Option (Vector Byte 6) :=
  if present then some p.seq else none

/-- The IV a command installs: `IvDerive(16, sq)` (41_iv_deriver.md R92). -/
def Snapshot.iv (p : Snapshot) (present : Bool) : Block :=
  pack 16 (ivDerive 16 (p.seed present))

/-- The length operand `n = LEN[c]` (30_encoding.md R80). -/
def Snapshot.n (p : Snapshot) : Nat :=
  p.len.toNat

/-- The data operand `IN[c][0..n)` (30_encoding.md R80). -/
def Snapshot.data (p : Snapshot) : Bytes :=
  p.inp.take p.n

/-- The key operand `KEYWIN[0..n)` (30_encoding.md R80). -/
def Snapshot.keyBytes (p : Snapshot) : Bytes :=
  p.keywin.toList.take p.n

/-- `KeyReady()` (43_cipher_engine.md R130): the algorithm first, then the key. -/
def keyReady (s : State) (k : CommandResult) : CommandResult :=
  require (algRecognised s.algId) .unsupportedAlgorithm (require s.keyValid .noKey k)

/-- The channel check of a command that one channel alone has (30_encoding.md R76, R78). DESIGN CHOICE (log 19), safe. -/
def onlyOn (d c : Chan) (k : CommandResult) : CommandResult :=
  require (c = d) .illegalCommand k

/-- The length bound of the data commands (30_encoding.md R80, 60_exceptions.md R173). -/
def lengthInRange (s : State) (p : Snapshot) (k : CommandResult) : CommandResult :=
  require (p.n ≤ s.maxLen) .badLength k

/-- The mode check of the CTS updates and finals (42_cts_codec.md R110). -/
def modeSupported (x : Codec) (k : CommandResult) : CommandResult :=
  require (x.cmode = .cbc || x.cmode = .ecb) .unsupportedMode k

end Sys2Proof.Machine
end

