-- ==== Sys2Proof/Machine/Cipher.lean ====
section
/-!
DEFINITION. The cipher engine: `SETKEY`, `GENKEY`, `ENCRYPT`, `DECRYPT` (43_cipher_engine.md).
-/

namespace Sys2Proof.Machine

/-- `SETKEY` (43_cipher_engine.md R131, R132). -/
def execSetkey (c : Chan) (s : State) : Host.Outcome State Fault Refusal :=
  runCommand c s fun p =>
    require (algRecognised s.algId) .unsupportedAlgorithm <|
    require (p.n = keyLength s.algId) .invalidKeyLength <|
    .ok (s.installKey p.keyBytes, [])

/-- `GENKEY` (43_cipher_engine.md R134): one draw of `ENTROPY` (00_scope.md R10). -/
def execGenkey (c : Chan) (s : State) : Host.Outcome State Fault Refusal :=
  runCommand c s fun _ =>
    require (algRecognised s.algId) .unsupportedAlgorithm <|
    .ok ((s.installKey (entropyDraw s.draws (keyLength s.algId))).setDraws (s.draws + 1),
      entropyDraw s.draws (keyLength s.algId))

/-- RTP-native padding `Pad(P)` of fewer than 16 bytes (43_cipher_engine.md R137). -/
def padMessage (p : Bytes) : Bytes :=
  p ++ List.replicate (16 - p.length) (BitVec.ofNat 8 (16 - p.length))

/-- Relaxed depadding `Depad(Pp)` (43_cipher_engine.md R143, R144): the last byte alone says how many bytes go. -/
def depadMessage (pp : Bytes) : Except ErrCode Bytes :=
  let p := (pp.getD (pp.length - 1) 0).toNat
  if 1 ≤ p ∧ p ≤ 16 then .ok (pp.take (pp.length - p)) else .error .badPadding

/-- The three paths of `ENCRYPT` on the re-initialised codec state (43_cipher_engine.md R135, R137 to R139): the bytes
emitted and the codec state, or the error of the final. -/
def encryptPaths (K : KeyedCipher) (p : Bytes) (x : Codec) : Except ErrCode (Bytes × Codec) :=
  if p.length < 16 then
    .ok ((xs K .enc (padMessage p) x).1, { (xs K .enc (padMessage p) x).2 with pmode := .rtp })
  else if p.length % 16 = 0 then
    .ok ((xs K .enc p x).1, { (xs K .enc p x).2 with pmode := .standard })
  else
    match ctsFinal K .enc (ctsUpdate K .enc p x).2 with
    | .error e => .error e
    | .ok (last, y) => .ok ((ctsUpdate K .enc p x).1 ++ last, { y with pmode := .none })

/-- `ENCRYPT` (43_cipher_engine.md R136). -/
def execEncrypt (c : Chan) (seq : Bool) (s : State) : Host.Outcome State Fault Refusal :=
  runCommand c s fun p =>
    onlyOn .enc c <| lengthInRange s p <| keyReady s <|
    match encryptPaths s.cipher p.data ((s.codec .enc).start (p.iv seq) .cbc) with
    | .error e => .error e
    | .ok (out, x) => .ok ((s.setCodec .enc x).setRtpPadOut (p.n < 16), out)

/-- The three paths of `DECRYPT` on the re-initialised codec state (43_cipher_engine.md R141 to R147). -/
def decryptPaths (K : KeyedCipher) (pad : Bool) (msg : Bytes) (x : Codec) : Except ErrCode (Bytes × Codec) :=
  if pad then
    if msg.length = 0 then .error .badPadding
    else if msg.length % 16 ≠ 0 then .error .badLength
    else
      match depadMessage (xs K .dec msg x).1 with
      | .error e => .error e
      | .ok out => .ok (out, { (xs K .dec msg x).2 with pmode := .rtp })
  else if msg.length % 16 = 0 then
    .ok ((xs K .dec msg x).1, { (xs K .dec msg x).2 with pmode := .standard })
  else
    match ctsFinal K .dec (ctsUpdate K .dec msg x).2 with
    | .error e => .error e
    | .ok (last, y) => .ok ((ctsUpdate K .dec msg x).1 ++ last, { y with pmode := .none })

/-- `DECRYPT` (43_cipher_engine.md R142). -/
def execDecrypt (c : Chan) (seq pad : Bool) (s : State) : Host.Outcome State Fault Refusal :=
  runCommand c s fun p =>
    onlyOn .dec c <| lengthInRange s p <| keyReady s <|
    match decryptPaths s.cipher pad p.data ((s.codec .dec).start (p.iv seq) .cbc) with
    | .error e => .error e
    | .ok (out, x) => .ok (s.setCodec .dec x, out)

end Sys2Proof.Machine
end

