-- ==== Sys2Proof/Machine/Control.lean ====
section
/-!
DEFINITION. The commands that are no cipher operations: `NOP` and `ZEROIZE` (44_control.md).
-/

namespace Sys2Proof.Machine

/-- `NOP` (44_control.md R160). -/
def execNop (c : Chan) (s : State) : Host.Outcome State Fault Refusal :=
  runCommand c s fun _ => .ok (s, [])

/-- What `ZEROIZE` clears of each channel (44_control.md R161): `OUT_LEN` and `SEQ`. -/
def State.zeroizeChan (s : State) (c : Chan) : State :=
  s.setChan c { s.chan c with outLen := 0, seq := Vector.replicate 6 0 }

/-- The writes of `ZEROIZE` (44_control.md R161): the key, `KEYWIN`, both codec states, the four windows, which are the
whole memory, of each channel `OUT_LEN` and `SEQ`, and `RTP_PAD_OUT` of channel 0. -/
def State.zeroized (s : State) : State :=
  (((((((s.setKey (Vector.replicate 32 0) false).setKeywin (Vector.replicate 32 0)).setCodec .enc Codec.reset).setCodec .dec
    Codec.reset).zeroizeChan .enc).zeroizeChan .dec).setMem []).setRtpPadOut false

/-- `ZEROIZE` (44_control.md R161). -/
def execZeroize (c : Chan) (s : State) : Host.Outcome State Fault Refusal :=
  runCommand c s fun _ => .ok (s.zeroized, [])

end Sys2Proof.Machine
end

