-- ==== Sys2Proof/Machine/Cts.lean ====
section
/-!
DEFINITION. The six commands of the CTS codec (42_cts_codec.md R111 to R116): one shared rule for each pair, and a meaning
of its own for each command.
-/

namespace Sys2Proof.Machine

/-- The rule of `CTS_*_INIT` in direction `d` (42_cts_codec.md R111, R112). -/
def initRule (d : Chan) (seq : Bool) (mode : CtsMode) (s : State) (p : Snapshot) : CommandResult :=
  .ok (s.setCodec d { (s.codec d).start (p.iv seq) mode with pmode := .none }, [])

/-- The rule of `CTS_*_UPDATE` in direction `d` (42_cts_codec.md R113, R114). -/
def updateRule (d : Chan) (s : State) (p : Snapshot) : CommandResult :=
  lengthInRange s p <| modeSupported (s.codec d) <| keyReady s <|
  .ok (s.setCodec d (ctsUpdate s.cipher d p.data (s.codec d)).2, (ctsUpdate s.cipher d p.data (s.codec d)).1)

/-- The rule of `CTS_*_FINAL` in direction `d` (42_cts_codec.md R115, R116). -/
def finalRule (d : Chan) (s : State) : CommandResult :=
  modeSupported (s.codec d) <| keyReady s <|
  match ctsFinal s.cipher d (s.codec d) with
  | .error e => .error e
  | .ok (out, x) => .ok (s.setCodec d x, out)

/-- `CTS_ENC_INIT` (42_cts_codec.md R111). -/
def execCtsEncInit (c : Chan) (seq : Bool) (mode : CtsMode) (s : State) : Host.Outcome State Fault Refusal :=
  runCommand c s fun p => onlyOn .enc c <| initRule .enc seq mode s p

/-- `CTS_DEC_INIT` (42_cts_codec.md R112). -/
def execCtsDecInit (c : Chan) (seq : Bool) (mode : CtsMode) (s : State) : Host.Outcome State Fault Refusal :=
  runCommand c s fun p => onlyOn .dec c <| initRule .dec seq mode s p

/-- `CTS_ENC_UPDATE` (42_cts_codec.md R113). -/
def execCtsEncUpdate (c : Chan) (s : State) : Host.Outcome State Fault Refusal :=
  runCommand c s fun p => onlyOn .enc c <| updateRule .enc s p

/-- `CTS_DEC_UPDATE` (42_cts_codec.md R114). -/
def execCtsDecUpdate (c : Chan) (s : State) : Host.Outcome State Fault Refusal :=
  runCommand c s fun p => onlyOn .dec c <| updateRule .dec s p

/-- `CTS_ENC_FINAL` (42_cts_codec.md R115). -/
def execCtsEncFinal (c : Chan) (s : State) : Host.Outcome State Fault Refusal :=
  runCommand c s fun _ => onlyOn .enc c <| finalRule .enc s

/-- `CTS_DEC_FINAL` (42_cts_codec.md R116). -/
def execCtsDecFinal (c : Chan) (s : State) : Host.Outcome State Fault Refusal :=
  runCommand c s fun _ => onlyOn .dec c <| finalRule .dec s

end Sys2Proof.Machine
end

