-- ==== Sys2Proof/Machine/IvDeriver.lean ====
section
/-!
DEFINITION. The command `IV_DERIVE` (41_iv_deriver.md R93). The derivation itself, which other commands use too, is
`ivDerive` of Operands.lean.
-/

namespace Sys2Proof.Machine

/-- `IV_DERIVE` (41_iv_deriver.md R93): the IV is emitted and installed nowhere. -/
def execIvDerive (c : Chan) (seq : Bool) (s : State) : Host.Outcome State Fault Refusal :=
  runCommand c s fun p => .ok (s, ivDerive 16 (p.seed seq))

end Sys2Proof.Machine
end

