-- ==== Sys2Proof/Machine/Dispatch.lean ====
section
/-!
DEFINITION. The meaning of every command: one arm for each constructor of `Instr` (30_encoding.md R76).
-/

namespace Sys2Proof.Machine

def exec (i : Instr) (s : State) : Host.Outcome State Fault Refusal :=
  match i with
  | .nop c => Sys2Proof.Machine.execNop c s
  | .setkey c => Sys2Proof.Machine.execSetkey c s
  | .genkey c => Sys2Proof.Machine.execGenkey c s
  | .encrypt c seq => Sys2Proof.Machine.execEncrypt c seq s
  | .decrypt c seq pad => Sys2Proof.Machine.execDecrypt c seq pad s
  | .ctsEncInit c seq mode => Sys2Proof.Machine.execCtsEncInit c seq mode s
  | .ctsDecInit c seq mode => Sys2Proof.Machine.execCtsDecInit c seq mode s
  | .ctsEncUpdate c => Sys2Proof.Machine.execCtsEncUpdate c s
  | .ctsDecUpdate c => Sys2Proof.Machine.execCtsDecUpdate c s
  | .ctsEncFinal c => Sys2Proof.Machine.execCtsEncFinal c s
  | .ctsDecFinal c => Sys2Proof.Machine.execCtsDecFinal c s
  | .ivDerive c seq => Sys2Proof.Machine.execIvDerive c seq s
  | .zeroize c => Sys2Proof.Machine.execZeroize c s

end Sys2Proof.Machine
end

