-- ==== Sys2Proof/Machine/Flags.lean ====
section
/-!
DEFINITION. The flags of the block and the words the host reads them in: the error codes (60_exceptions.md R171), `STATUS`
(10_state.md R38), `INT_EN` (R39), `ALG`, `INFO` and `CTS_STATE` (R27 to R29), and the interrupt line `irq` (R45).
-/

namespace Sys2Proof.Machine

/-- The numeric error code (60_exceptions.md R171). -/
def ErrCode.toBits : ErrCode → BitVec 4
  | .ok => 0
  | .unsupportedAlgorithm => 1
  | .invalidKeyLength => 2
  | .badPadding => 3
  | .missingState => 4
  | .unsupportedMode => 5
  | .noKey => 6
  | .badLength => 7
  | .illegalCommand => 8

/-- The numeric padding mode (10_state.md R35). -/
def PadMode.toBits : PadMode → BitVec 2
  | .standard => 0
  | .none => 1
  | .rtp => 2

/-- A bit of a register, `b` at bit `i`. -/
def bitAt (i : Nat) (b : Bool) : Word :=
  (BitVec.ofBool b).setWidth 32 <<< i

/-- The word of `STATUS[c]` (10_state.md R38). -/
def statusWord (s : State) (c : Chan) : Word :=
  bitAt 0 (s.busy c) ||| bitAt 1 (s.chan c).status.done ||| bitAt 2 (s.chan c).status.err
    ||| bitAt 3 (s.chan c).status.overrun ||| bitAt 4 (s.chan c).status.rtpPadOut ||| bitAt 5 s.keyValid
    ||| (s.chan c).status.errcode.toBits.setWidth 32 <<< 8

/-- The word of `INT_EN[c]` (10_state.md R39). -/
def intEnWord (s : State) (c : Chan) : Word :=
  bitAt 0 (s.chan c).doneEn ||| bitAt 1 (s.chan c).ovrEn

/-- The word of `ALG` (10_state.md R27). -/
def algWord (s : State) : Word :=
  s.algId.setWidth 32 ||| bitAt 8 (algRecognised s.algId) ||| BitVec.ofNat 32 (keyLength s.algId) <<< 16
    ||| (16 : Word) <<< 24

/-- The word of `INFO` (10_state.md R28): `MAX_LEN` in bits 15:0. -/
def infoWord (s : State) : Word :=
  (BitVec.ofNat 16 s.maxLen).setWidth 32

/-- The ten bits of `CTS_STATE` that show one direction (10_state.md R29). -/
def codecBits (x : Codec) : Word :=
  (BitVec.ofNat 5 x.blen).setWidth 32 ||| bitAt 5 x.fused ||| x.cmode.toBits.setWidth 32 <<< 6
    ||| x.pmode.toBits.setWidth 32 <<< 8

/-- The word of `CTS_STATE` (10_state.md R29). -/
def ctsStateWord (s : State) : Word :=
  codecBits (s.codec .enc) ||| codecBits (s.codec .dec) <<< 16

/-- Where the fields of direction `d` stand in `CTS_STATE` (10_state.md R29). -/
def ctsStateMask : Chan → Word
  | .enc => 0x000003FF
  | .dec => 0x03FF0000

/-- The interrupt sources of channel `c` that are pending and enabled (60_exceptions.md R178, R179). -/
def Channel.irq (x : Channel) : Bool :=
  (x.status.done && x.doneEn) || (x.status.overrun && x.ovrEn)

/-- The interrupt line `irq` (10_state.md R45, 60_exceptions.md R178). -/
def State.irq (s : State) : Bool :=
  (s.chan .enc).irq || (s.chan .dec).irq

end Sys2Proof.Machine
end

