-- ==== Sys2Proof/Machine/HostPort.lean ====
section
/-!
DEFINITION. The host port: the map of the register space (20_memory.md R51) and the effect and answer of a host access
(R52 to R58, 44_control.md R162, 70_reset_and_hazards.md R205).
-/

namespace Sys2Proof.Machine

/-- What stands at a word-aligned offset of the register space (20_memory.md R51). -/
inductive Place
  | alg
  | info
  | ctsState
  /-- Bytes `k` to `k + 3` of `KEYWIN`. -/
  | keywin (k : Nat)
  | cmd (c : Chan)
  | status (c : Chan)
  | intEn (c : Chan)
  | len (c : Chan)
  | outLen (c : Chan)
  | seq0 (c : Chan)
  | seq1 (c : Chan)
  /-- Bytes `i` to `i + 3` of the input window. -/
  | inp (c : Chan) (i : Nat)
  /-- Bytes `i` to `i + 3` of the output window. -/
  | out (c : Chan) (i : Nat)
  | reserved
  deriving DecidableEq, Repr

/-- The register at offset `k` of channel `c`'s page (20_memory.md R51). -/
def placeOnPage (c : Chan) (k : Nat) : Place :=
  if k = 0x00 then .cmd c
  else if k = 0x04 then .status c
  else if k = 0x08 then .intEn c
  else if k = 0x0C then .len c
  else if k = 0x10 then .outLen c
  else if k = 0x14 then .seq0 c
  else if k = 0x18 then .seq1 c
  else .reserved

/-- The address map (20_memory.md R51), on word-aligned offsets. -/
def placeAt (off : Nat) : Place :=
  if off = 0x0000 then .alg
  else if off = 0x0004 then .info
  else if off = 0x0008 then .ctsState
  else if 0x0040 ≤ off ∧ off < 0x0060 then .keywin (off - 0x0040)
  else if 0x0100 ≤ off ∧ off < 0x0200 then placeOnPage .enc (off - 0x0100)
  else if 0x0200 ≤ off ∧ off < 0x0300 then placeOnPage .dec (off - 0x0200)
  else if 0x2000 ≤ off ∧ off < 0x4000 then .inp .enc (off - 0x2000)
  else if 0x4000 ≤ off ∧ off < 0x6000 then .out .enc (off - 0x4000)
  else if 0x6000 ≤ off ∧ off < 0x8000 then .inp .dec (off - 0x6000)
  else if 0x8000 ≤ off ∧ off < 0xA000 then .out .dec (off - 0x8000)
  else .reserved

/-- A byte of a window, 0 at and beyond its capacity (20_memory.md R54, R55). -/
def windowByte (m : Memory) (base cap i : Nat) : Byte :=
  if i < cap then m.read (base + i) else 0

/-- The word at index `i` of a window, little-endian (20_memory.md R53). -/
def windowWord (m : Memory) (base cap i : Nat) : Word :=
  wordOfBytes (windowByte m base cap i) (windowByte m base cap (i + 1)) (windowByte m base cap (i + 2))
    (windowByte m base cap (i + 3))

/-- Which bits of the word at index `i` of a window lie below its capacity. -/
def windowMask (cap i : Nat) : Word :=
  wordOfBytes (if i < cap then 0xFF else 0) (if i + 1 < cap then 0xFF else 0) (if i + 2 < cap then 0xFF else 0)
    (if i + 3 < cap then 0xFF else 0)

/-- What a read of a place gives while no unspecified value is involved (20_memory.md R51 to R54). -/
def readPlace (s : State) : Place → Word
  | .alg => algWord s
  | .info => infoWord s
  | .ctsState => ctsStateWord s
  | .keywin _ => 0
  | .cmd c => (s.chan c).cmd
  | .status c => statusWord s c
  | .intEn c => intEnWord s c
  | .len c => (s.chan c).len.setWidth 32
  | .outLen c => (s.chan c).outLen.setWidth 32
  | .seq0 c => wordOfBytes (s.chan c).seq[0] (s.chan c).seq[1] (s.chan c).seq[2] (s.chan c).seq[3]
  | .seq1 c => wordOfBytes (s.chan c).seq[4] (s.chan c).seq[5] 0 0
  | .inp c i => windowWord s.mem (inBase c) s.maxLen i
  | .out c i => windowWord s.mem (outBase c) (s.maxLen + 16) i
  | .reserved => 0

/-- A mask if the channel is busy, else no bits. -/
def whileBusy (s : State) (c : Chan) (m : Word) : Word :=
  if s.busy c then m else 0

/-- The bits of a place whose reading is unspecified (20_memory.md R58): while channel `c` is busy, the bytes of `OUT[c]`,
all of `OUT_LEN[c]`, and the fields of its direction in `CTS_STATE`. That all 32 bits of `OUT_LEN[c]` are open, and not
only the 16 of the length, is the literal reading of R58: DESIGN CHOICE (log 5), safe. -/
def unspecifiedBits (s : State) : Place → Word
  | .ctsState => whileBusy s .enc (ctsStateMask .enc) ||| whileBusy s .dec (ctsStateMask .dec)
  | .outLen c => whileBusy s c 0xFFFFFFFF
  | .out c i => whileBusy s c (windowMask (s.maxLen + 16) i)
  | _ => 0

/-- The answer of a read: the unspecified bits are those of a fresh draw (20_memory.md R58, 93 U2). -/
def readAnswer (s : State) (p : Place) : Word :=
  if unspecifiedBits s p = 0 then readPlace s p
  else (readPlace s p &&& ~~~(unspecifiedBits s p)) ||| (Config.unspecifiedRead s.draws &&& unspecifiedBits s p)

/-- Writing a word into bytes `k` to `k + 3` of a field of `n` bytes. -/
def writeField {n : Nat} (v : Vector Byte n) (k : Nat) (w : Word) : Vector Byte n :=
  pack n (v.toList.take k ++ wordBytes w ++ v.toList.drop (k + 4))

/-- A write that the busy hazard guards (70_reset_and_hazards.md R205). -/
def unlessBusy (c : Chan) (s t : State) : State :=
  if s.busy c then overrun c s else t

/-- A write of a word to a place (20_memory.md R51, R54, R57). A word of `IN[c]` wholly beyond the capacity is reserved,
busy or not. DEDUCED (log 21), safe. -/
def writePlace (s : State) (w : Word) : Place → State
  | .cmd c => unlessBusy c s (accept c w s)
  | .status c => clearStatus c w s
  | .intEn c => s.setChan c { s.chan c with doneEn := w.getLsbD 0, ovrEn := w.getLsbD 1 }
  | .len c => unlessBusy c s (s.setChan c { s.chan c with len := w.setWidth 16 })
  | .seq0 c => unlessBusy c s (s.setChan c { s.chan c with seq := writeField (s.chan c).seq 0 w })
  | .seq1 c => unlessBusy c s (s.setChan c { s.chan c with seq := writeField (s.chan c).seq 4 w })
  | .keywin k => s.setKeywin (writeField s.keywin k w)
  | .inp c i =>
    if i < s.maxLen then
      unlessBusy c s (s.setMem (s.mem.writeBytes (inBase c + i) ((wordBytes w).take (s.maxLen - i))))
    else s
  | .alg => s
  | .info => s
  | .ctsState => s
  | .outLen _ => s
  | .out _ _ => s
  | .reserved => s

/-- Whether an access is one the block performs: 32 bits wide, at a multiple of 4 (20_memory.md R52). -/
def accessPerformed (width : Width) (off : BitVec 16) : Bool :=
  width = .w32 && off.toNat % 4 = 0

/-- A host access (20_memory.md R52 to R59): one atomic step. An access that is not performed gets the bus error and
changes no state of the block (60_exceptions.md R176, log 8). -/
def hostAccess (a : HostAccess) (s : State) : State :=
  match a with
  | .read width off =>
    if accessPerformed width off then
      (s.setBus (.data (readAnswer s (placeAt off.toNat)))).setDraws
        (if unspecifiedBits s (placeAt off.toNat) = 0 then s.draws else s.draws + 1)
    else s.setBus .accessFault
  | .write width off w =>
    if accessPerformed width off then (writePlace s w (placeAt off.toNat)).setBus .written
    else s.setBus .accessFault

end Sys2Proof.Machine
end

