-- ==== Sys2Proof/Machine/Engine.lean ====
section
/-!
DEFINITION. The agents (60_exceptions.md R185) and the atomic steps they make (20_memory.md R60): the completion step of an
engine, the reset, and which agent moves.
-/

namespace Sys2Proof.Machine

/-- The completion step of channel `c` (44_control.md R163): the command its pending word decodes to, or `IllegalCommand`
for an ILLEGAL word (30_encoding.md R78). An idle engine does nothing. -/
def complete (c : Chan) (s : State) : Host.Outcome State Fault Refusal :=
  match (s.chan c).pending with
  | none => .next s
  | some p =>
    match decode c p.word with
    | .ok i => exec i s
    | .error _ => .next (raiseError c .illegalCommand s)

/-- Reset (70_reset_and_hazards.md R200, R201): every element at its reset value, pending commands abandoned; the
construction parameters stay. What is outside the block stays too: the events to come, and how many values have been
drawn (log 12, 18). -/
def resetBlock (s : State) : State :=
  ((State.resetOf s.algId s.maxLen).setDraws s.draws).setAgenda s.agenda

/-- One event of the agenda (20_memory.md R60): when a command completes is the agenda's to say (log 6, 22). -/
def runEvent (e : Event) (s : State) : Host.Outcome State Fault Refusal :=
  match e with
  | .host a => .next (hostAccess a s)
  | .completion c => complete c s
  | .reset => .next (resetBlock s)

/-- The engine that moves first when both have a pending command and the agenda is silent: a free value (log 7). -/
def firstEngine (s : State) : Chan :=
  if Config.engineTurn s.draws then .dec else .enc

/-- With nothing on the agenda, a pending command still completes (70_reset_and_hazards.md R208); with none pending, the
block keeps its state (R214). -/
def drain (s : State) : Host.Outcome State Fault Refusal :=
  if s.busy .enc && s.busy .dec then complete (firstEngine s) (s.setDraws (s.draws + 1))
  else if s.busy .enc then complete .enc s
  else if s.busy .dec then complete .dec s
  else .next s

/-- The atomic step at the head of the agenda, or the drain. -/
def nextStep (s : State) : Host.Outcome State Fault Refusal :=
  match s.agenda with
  | [] => drain s
  | e :: rest => runEvent e (s.setAgenda rest)

/-- Channel `tableChan w` with the word `w` accepted, and its completion at the head of the agenda. -/
def fetchable (w : Word) (s : State) : State :=
  (accept (tableChan w) w s).setAgenda (.completion (tableChan w) :: s.agenda)

end Sys2Proof.Machine
end

