-- ==== Sys2Proof/Machine/Step.lean ====
section
/-!
DEFINITION. One step of the machine, and the placing of an instruction where the next step runs it.
-/

namespace Sys2Proof.Machine

/-- One atomic step of the block (20_memory.md R60). -/
def step (s : State) : Host.Outcome State Fault Refusal :=
  nextStep s

/-- The state in which the very next step completes the command whose word is `w`: the word is accepted on its channel
(44_control.md R162) and the completion is the next event. The block fetches nothing (10_state.md R22): this stands for
the host's write of the command word (log 10). -/
def State.withFetchWord (s : State) (nbits w : Nat) : State :=
  fetchable (BitVec.ofNat 32 (w % 2 ^ nbits)) s

end Sys2Proof.Machine
end

