-- ==== Sys2Proof/Safety.lean ====
section
/-!
DEFINITION. The terms in which claims about the block are made: how a command ends (`Completed`, `Failed`), what it leaves
alone (`KeepsKey`, `KeepsCodecs`, `KeepsPadFlags`), what chained and plain encryption of a string of blocks is, streams
fed in chunks, and the invariant of the machine.
-/

namespace Sys2Proof.Machine

/-! ### How a command ends -/

/-- Channel `c` has accepted a command, whose snapshot is `p` (10_state.md R26). -/
abbrev State.Pends (s : State) (c : Chan) (p : Snapshot) : Prop :=
  (s.chan c).pending = some p

/-- Channel `c`'s command succeeded from `s` to `t`, emitting `out` (44_control.md R163, R164): what `finish` writes; the
bytes of `OUT[c]` below `len(out)` and no other byte of memory; and everything no successful command touches. Left to
each command: the key, the codec states, the padding flag, the count of draws. -/
structure Completed (c : Chan) (out : Bytes) (s t : State) : Prop where
  idle : (t.chan c).pending = none
  done : (t.chan c).status.done = true
  err : (t.chan c).status.err = false
  errcode : (t.chan c).status.errcode = .ok
  outLen : (t.chan c).outLen.toNat = out.length
  stored : ∀ a, outBase c ≤ a → a < outBase c + out.length → t.mem.read a = out.getD (a - outBase c) 0
  unstored : ∀ a, a < outBase c ∨ outBase c + out.length ≤ a → t.mem.read a = s.mem.read a
  cmd : (t.chan c).cmd = (s.chan c).cmd
  len : (t.chan c).len = (s.chan c).len
  seq : (t.chan c).seq = (s.chan c).seq
  doneEn : (t.chan c).doneEn = (s.chan c).doneEn
  ovrEn : (t.chan c).ovrEn = (s.chan c).ovrEn
  overrun : (t.chan c).status.overrun = (s.chan c).status.overrun
  algId : t.algId = s.algId
  maxLen : t.maxLen = s.maxLen
  keywin : t.keywin = s.keywin
  bus : t.bus = s.bus
  agenda : t.agenda = s.agenda

/-- The other channel's registers are as before. -/
abbrev KeepsOther (c : Chan) (s t : State) : Prop :=
  t.chan (otherChan c) = s.chan (otherChan c)

/-- The key is as before. -/
abbrev KeepsKey (s t : State) : Prop :=
  t.key = s.key ∧ t.keyValid = s.keyValid

/-- Both codec states are as before. -/
def KeepsCodecs (s t : State) : Prop :=
  ∀ d, t.codec d = s.codec d

/-- The padding flags are as before. -/
def KeepsPadFlags (s t : State) : Prop :=
  ∀ c, (t.chan c).status.rtpPadOut = (s.chan c).status.rtpPadOut

/-- Channel `c`'s command failed with error `e` from `s` to `t` (60_exceptions.md R172, R174): its status says so, its
`OUT_LEN` is 0, its channel is idle, and everything else of the state is as before. -/
structure Failed (c : Chan) (e : ErrCode) (s t : State) : Prop where
  idle : (t.chan c).pending = none
  done : (t.chan c).status.done = true
  err : (t.chan c).status.err = true
  errcode : (t.chan c).status.errcode = e
  outLen : (t.chan c).outLen = 0
  mem : ∀ a, t.mem.read a = s.mem.read a
  cmd : (t.chan c).cmd = (s.chan c).cmd
  len : (t.chan c).len = (s.chan c).len
  seq : (t.chan c).seq = (s.chan c).seq
  doneEn : (t.chan c).doneEn = (s.chan c).doneEn
  ovrEn : (t.chan c).ovrEn = (s.chan c).ovrEn
  overrun : (t.chan c).status.overrun = (s.chan c).status.overrun
  other : KeepsOther c s t
  key : KeepsKey s t
  codecs : KeepsCodecs s t
  padFlags : KeepsPadFlags s t
  algId : t.algId = s.algId
  maxLen : t.maxLen = s.maxLen
  keywin : t.keywin = s.keywin
  bus : t.bus = s.bus
  draws : t.draws = s.draws
  agenda : t.agenda = s.agenda

/-- The block transform of a completion: the model's AES (log 1) under the active key `KEY[0..keylen(ALG_ID))`, as the key
stands at that completion (10_state.md R23, 43_cipher_engine.md R133). -/
def State.underActiveKey (s : State) : KeyedCipher :=
  aesUnder (s.key.toList.take (keyLength s.algId))

/-- The key check of `KeyReady` passes (43_cipher_engine.md R130). -/
abbrev State.Keyed (s : State) : Prop :=
  algRecognised s.algId = true ∧ s.keyValid = true

/-- The codec mode is one the codec supports (42_cts_codec.md R110). -/
abbrev Codec.Supported (x : Codec) : Prop :=
  x.cmode = .cbc ∨ x.cmode = .ecb

/-- The snapshot holds all the bytes its length operand names (10_state.md R26, for a length of at most `MAX_LEN`). -/
abbrev Snapshot.Whole (p : Snapshot) : Prop :=
  p.inp.length = p.n

/-! ### The commands of a direction, and the host's accesses -/

/-- `CTS_ENC_INIT` or `CTS_DEC_INIT`, on the channel of its direction. -/
def ctsInitOf (d : Chan) (seq : Bool) (mode : CtsMode) : Instr :=
  match d with
  | .enc => .ctsEncInit .enc seq mode
  | .dec => .ctsDecInit .dec seq mode

/-- `CTS_ENC_UPDATE` or `CTS_DEC_UPDATE`, on the channel of its direction. -/
def ctsUpdateOf (d : Chan) : Instr :=
  match d with
  | .enc => .ctsEncUpdate .enc
  | .dec => .ctsDecUpdate .dec

/-- `CTS_ENC_FINAL` or `CTS_DEC_FINAL`, on the channel of its direction. -/
def ctsFinalOf (d : Chan) : Instr :=
  match d with
  | .enc => .ctsEncFinal .enc
  | .dec => .ctsDecFinal .dec

/-- Offset of channel `c`'s register page (20_memory.md R51). -/
def pageBase : Chan → Nat
  | .enc => 0x0100
  | .dec => 0x0200

/-- A 32-bit host read at an offset. -/
def readEvent (off : Nat) : Event :=
  .host (.read .w32 (BitVec.ofNat 16 off))

/-- A 32-bit host write at an offset. -/
def writeEvent (off : Nat) (w : Word) : Event :=
  .host (.write .w32 (BitVec.ofNat 16 off) w)

/-- Aligned offsets at which the map has nothing to read or write (20_memory.md R51, R54): the reserved ranges, and the
windows from their capacity on. -/
def reservedOffset (maxLen off : Nat) : Prop :=
  (0x000C ≤ off ∧ off < 0x0040) ∨ (0x0060 ≤ off ∧ off < 0x0100) ∨ (0x011C ≤ off ∧ off < 0x0200)
    ∨ (0x021C ≤ off ∧ off < 0x2000) ∨ (0x2000 + maxLen ≤ off ∧ off < 0x4000)
    ∨ (0x4000 + (maxLen + 16) ≤ off ∧ off < 0x6000) ∨ (0x6000 + maxLen ≤ off ∧ off < 0x8000)
    ∨ (0x8000 + (maxLen + 16) ≤ off ∧ off < 0xA000) ∨ (0xA000 ≤ off ∧ off < 0x10000)

/-! ### Strings of blocks -/

/-- Block `i` of a string, with zeros after the string's end (00_scope.md R12). -/
def blockAt (s : Bytes) (i : Nat) : Block :=
  pack 16 ((s.drop (16 * i)).take 16)

/-- The chaining value after a string of whole ciphertext blocks that began with `iv`: its last block, or `iv`. -/
def lastBlock (iv : Block) (s : Bytes) : Block :=
  if s.length < 16 then iv else blockAt s (s.length / 16 - 1)

/-- `out` is the CBC encryption of the whole blocks of `inp`: `C_i = E(K, xor(P_i, C_{i-1}))`, `C_{-1} = IV`
(00_scope.md §6). -/
def CbcEncrypts (K : KeyedCipher) (iv : Block) (inp out : Bytes) : Prop :=
  out.length = inp.length ∧ ∀ i, 16 * (i + 1) ≤ inp.length →
    blockAt out i = K.e (xorBlock (blockAt inp i) (if i = 0 then iv else blockAt out (i - 1)))

/-- `out` is the CBC decryption of the whole blocks of `inp` (42_cts_codec.md R100, R101). -/
def CbcDecrypts (K : KeyedCipher) (iv : Block) (inp out : Bytes) : Prop :=
  out.length = inp.length ∧ ∀ i, 16 * (i + 1) ≤ inp.length →
    blockAt out i = xorBlock (K.d (blockAt inp i)) (if i = 0 then iv else blockAt inp (i - 1))

/-- `out` is `f` of each whole block of `inp`: ECB (00_scope.md §6). -/
def EcbMaps (f : Block → Block) (inp out : Bytes) : Prop :=
  out.length = inp.length ∧ ∀ i, 16 * (i + 1) ≤ inp.length → blockAt out i = f (blockAt inp i)

/-- The one property of the block transform that the spec relies on (00_scope.md R9). -/
def KeyedCipher.Inverse (K : KeyedCipher) : Prop :=
  (∀ x, K.d (K.e x) = x) ∧ ∀ x, K.e (K.d x) = x

/-! ### Streams -/

/-- Feeding a stream to a direction in chunks, one update each (42_cts_codec.md R103): all the bytes emitted, and the codec
state after. -/
def feed (K : KeyedCipher) (d : Chan) : List Bytes → Codec → Bytes × Codec
  | [], s => ([], s)
  | inp :: rest, s =>
    let first := ctsUpdate K d inp s
    let more := feed K d rest first.2
    (first.1 ++ more.1, more.2)

/-- A whole stream: its chunks fed, then the final; the bytes of both, or the error of the final
(42_cts_codec.md R117, R118). -/
def streamOut (K : KeyedCipher) (d : Chan) (chunks : List Bytes) (s : Codec) : Except ErrCode Bytes :=
  match ctsFinal K d (feed K d chunks s).2 with
  | .error e => .error e
  | .ok (last, _) => .ok ((feed K d chunks s).1 ++ last)

/-- A direction with no stream in progress. -/
def Codec.Empty (x : Codec) : Prop :=
  x.blen = 0 ∧ x.fused = false

/-- The number `t` of bytes a stream of `n > 16` bytes leaves in the buffer (42_cts_codec.md R103). -/
def tailLength (n : Nat) : Nat :=
  (n - 1) % 16 + 1

/-- What 42_cts_codec.md R103 says of a codec state `s` that has taken the bytes `x` of a stream, in direction `d` from the
codec state `s0`, and has emitted `out`. -/
structure Codec.HasTaken (K : KeyedCipher) (d : Chan) (s0 : Codec) (x out : Bytes) (s : Codec) : Prop where
  cmode : s.cmode = s0.cmode
  pmode : s.pmode = s0.pmode
  within : x.length ≤ 16 →
    out = [] ∧ s.fused = false ∧ s.blen = x.length ∧ s.buf.toList.take x.length = x ∧ s.chain = s0.chain
  beyond : 16 < x.length →
    s.fused = true ∧ s.blen = tailLength x.length
      ∧ s.buf.toList.take (tailLength x.length) = x.drop (x.length - tailLength x.length)
      ∧ s.fin.toList = (x.drop (x.length - tailLength x.length - 16)).take 16
      ∧ out = (xs K d (x.take (x.length - tailLength x.length - 16)) s0).1
      ∧ s.chain = (xs K d (x.take (x.length - tailLength x.length - 16)) s0).2.chain

/-! ### The invariant -/

/-- The offset belongs to a data window below its capacity (20_memory.md R51, R55). -/
def inDataWindow (maxLen a : Nat) : Prop :=
  ∃ c, (inBase c ≤ a ∧ a < inBase c + maxLen) ∨ (outBase c ≤ a ∧ a < outBase c + (maxLen + 16))

/-- What holds of a codec state (10_state.md R31, R32). -/
structure Codec.Ok (x : Codec) : Prop where
  blen_le : x.blen ≤ 16
  fused_pos : x.fused = true → 1 ≤ x.blen

/-- What holds of a channel: an error code is a failure's and a failure has no output (60_exceptions.md R170); a busy
channel shows neither `DONE` nor `ERR` (44_control.md R166); the output fits its window (20_memory.md R55); and the
snapshot is of the accepted word and the length register, with the bytes that length names (10_state.md R26, R37, R40). -/
structure Channel.Ok (maxLen : Nat) (x : Channel) : Prop where
  err_iff : x.status.err = true ↔ x.status.errcode ≠ .ok
  err_outLen : x.status.err = true → x.outLen = 0
  busy_clear : x.pending.isSome = true → x.status.done = false ∧ x.status.err = false
  outLen_le : x.outLen.toNat ≤ maxLen + 16
  snapshot_word : ∀ p, x.pending = some p → p.word = x.cmd
  snapshot_len : ∀ p, x.pending = some p → p.len = x.len
  snapshot_inp : ∀ p, x.pending = some p → p.inp.length = min p.n maxLen

/-- The invariant of the machine: `MAX_LEN` is legal (00_scope.md R8); the memory is in canonical form and holds bytes of
the windows only; the codec states and channels are as above; and a key is there only for a recognised algorithm, with
zeros after it, and else is zero (10_state.md R23). -/
structure State.Inv (s : State) : Prop where
  maxLen_ge : 1040 ≤ s.maxLen
  maxLen_le : s.maxLen ≤ 8176
  mem_wf : s.mem.wf = true
  mem_windows : ∀ a, s.mem.read a ≠ 0 → inDataWindow s.maxLen a
  codec_ok : ∀ d, (s.codec d).Ok
  chan_ok : ∀ c, (s.chan c).Ok s.maxLen
  key_alg : s.keyValid = true → algRecognised s.algId = true
  key_tail : s.keyValid = true → ∀ i, keyLength s.algId ≤ i → i < 32 → s.key.toList.getD i 0 = 0
  key_clear : s.keyValid = false → s.key = Vector.replicate 32 0
  rtp_dec : (s.chan .dec).status.rtpPadOut = false

end Sys2Proof.Machine
end

