-- ==== Sys2Proof/Certificates/Slice0/Obligations.lean ====
section
/-!
DEFINITION. The statements about the block, from the numbered rules of spec/. Each holds for every state that meets its
hypotheses; each says the frame of what it speaks of, through `Completed`, `Failed` and the `Keeps…` predicates of Safety.
-/

open Sys2Proof Sys2Proof.Machine

/-! ### The control commands -/

/-- 44_control.md R160. `nop` completes, emits nothing, and changes nothing else. -/
def Obligations.NopOnlyReportsDone : Prop :=
  ∀ (c : Chan) (s : State) (p : Snapshot), s.Pends c p →
    ∃ t, exec (.nop c) s = .next t ∧ Completed c [] s t ∧ KeepsOther c s t ∧ KeepsKey s t ∧ KeepsCodecs s t
      ∧ KeepsPadFlags s t ∧ t.draws = s.draws

/-- 44_control.md R161. `zeroize` completes; the key, the staging window, both codec states and every byte of the windows
are zero, `OUT_LEN`, `SEQ` and `RTP_PAD_OUT` too; the rest of both channels and the other channel's pending command stay. -/
def Obligations.ZeroizeClearsKeysAndData : Prop :=
  ∀ (c : Chan) (s : State) (p : Snapshot), s.Pends c p →
    ∃ t, exec (.zeroize c) s = .next t
      ∧ t.key = Vector.replicate 32 0 ∧ t.keyValid = false ∧ t.keywin = Vector.replicate 32 0
      ∧ (∀ d, (t.codec d).buf = Vector.replicate 16 0 ∧ (t.codec d).blen = 0 ∧ (t.codec d).fin = Vector.replicate 16 0
          ∧ (t.codec d).fused = false ∧ (t.codec d).chain = Vector.replicate 16 0 ∧ (t.codec d).cmode = .cbc
          ∧ (t.codec d).pmode = .standard)
      ∧ (∀ a, t.mem.read a = 0)
      ∧ (∀ e, (t.chan e).outLen = 0 ∧ (t.chan e).seq = Vector.replicate 6 0)
      ∧ (t.chan .enc).status.rtpPadOut = false
      ∧ (t.chan .dec).status.rtpPadOut = (s.chan .dec).status.rtpPadOut
      ∧ (t.chan c).pending = none ∧ (t.chan c).status.done = true ∧ (t.chan c).status.err = false
      ∧ (t.chan c).status.errcode = .ok
      ∧ (t.chan (otherChan c)).pending = (s.chan (otherChan c)).pending
      ∧ (t.chan (otherChan c)).status.done = (s.chan (otherChan c)).status.done
      ∧ (t.chan (otherChan c)).status.err = (s.chan (otherChan c)).status.err
      ∧ (t.chan (otherChan c)).status.errcode = (s.chan (otherChan c)).status.errcode
      ∧ (∀ e, (t.chan e).cmd = (s.chan e).cmd ∧ (t.chan e).len = (s.chan e).len
          ∧ (t.chan e).doneEn = (s.chan e).doneEn ∧ (t.chan e).ovrEn = (s.chan e).ovrEn
          ∧ (t.chan e).status.overrun = (s.chan e).status.overrun)
      ∧ ctsStateWord t = 0
      ∧ t.algId = s.algId ∧ t.maxLen = s.maxLen ∧ t.bus = s.bus ∧ t.draws = s.draws ∧ t.agenda = s.agenda

/-! ### The IV deriver -/

/-- 41_iv_deriver.md R90, R91: for every target length. -/
def Obligations.IvDeriveTilesTheSequence : Prop :=
  ∀ (l : Nat) (q : Vector Byte 6),
    (ivDerive l (some q)).length = l
      ∧ (∀ i, i < l → (ivDerive l (some q)).getD i 0 = q.toList.getD (i % 6) 0)
      ∧ ivDerive l none = List.replicate l 0

/-- 41_iv_deriver.md R93. `ivDerive` completes with the IV as its output, and installs it nowhere. -/
def Obligations.IvDeriveCommandEmitsTheIv : Prop :=
  ∀ (c : Chan) (seq : Bool) (s : State) (p : Snapshot), s.Pends c p → s.mem.wf = true →
    ∃ out t, exec (.ivDerive c seq) s = .next t ∧ out.length = 16
      ∧ (∀ i, i < 16 → out.getD i 0 = if seq = true then p.seq.toList.getD (i % 6) 0 else 0)
      ∧ Completed c out s t ∧ KeepsOther c s t ∧ KeepsKey s t ∧ KeepsCodecs s t ∧ KeepsPadFlags s t
      ∧ t.draws = s.draws

/-! ### The keys -/

/-- 43_cipher_engine.md R131, R132. `setkey` with the algorithm's key length completes and installs the key; no codec state
changes. -/
def Obligations.SetkeyInstallsTheKey : Prop :=
  ∀ (c : Chan) (s : State) (p : Snapshot), s.Pends c p → algRecognised s.algId = true → p.n = keyLength s.algId →
    ∃ t, exec (.setkey c) s = .next t ∧ Completed c [] s t ∧ KeepsOther c s t
      ∧ t.keyValid = true ∧ t.key.toList = p.keywin.toList.take p.n ++ zeros (32 - p.n)
      ∧ KeepsCodecs s t ∧ KeepsPadFlags s t ∧ t.draws = s.draws

/-- 43_cipher_engine.md R131, R134, 60_exceptions.md R173, rows SETKEY and GENKEY: the first check that fails is the one
reported, the algorithm, then for `setkey` the length; and the key stays. -/
def Obligations.KeyCommandsRefuseInOrder : Prop :=
  ∀ (c : Chan) (s : State) (p : Snapshot), s.Pends c p →
    (algRecognised s.algId = false → ∃ t, exec (.setkey c) s = .next t ∧ Failed c .unsupportedAlgorithm s t)
      ∧ (algRecognised s.algId = true → p.n ≠ keyLength s.algId →
          ∃ t, exec (.setkey c) s = .next t ∧ Failed c .invalidKeyLength s t)
      ∧ (algRecognised s.algId = false → ∃ t, exec (.genkey c) s = .next t ∧ Failed c .unsupportedAlgorithm s t)

/-- 43_cipher_engine.md R134, 00_scope.md R10. `genkey` completes: one draw of the algorithm's key length, whatever its
bytes are, is installed and emitted. -/
def Obligations.GenkeyInstallsAndEmitsTheDraw : Prop :=
  ∀ (c : Chan) (s : State) (p : Snapshot), s.Pends c p → s.mem.wf = true → algRecognised s.algId = true →
    ∃ k t, exec (.genkey c) s = .next t ∧ k.length = keyLength s.algId
      ∧ (∀ i, i < keyLength s.algId → k.getD i 0 = Config.entropyByte s.draws i)
      ∧ Completed c k s t ∧ KeepsOther c s t
      ∧ t.keyValid = true ∧ t.key.toList = k ++ zeros (32 - k.length)
      ∧ KeepsCodecs s t ∧ KeepsPadFlags s t ∧ t.draws = s.draws + 1

/-! ### ENCRYPT -/

/-- 43_cipher_engine.md R136, R137, R140. `encrypt` of fewer than 16 bytes completes with one block, the encryption of the
padded message, and sets the padding flag. -/
def Obligations.EncryptShortMessagePads : Prop :=
  ∀ (seq : Bool) (s : State) (p : Snapshot), s.Pends .enc p → s.mem.wf = true → p.Whole → p.n ≤ s.maxLen → s.Keyed →
    p.n < 16 →
    ∃ t y, exec (.encrypt .enc seq) s = .next t
      ∧ y = s.underActiveKey.e (xorBlock (pack 16 (p.inp ++ List.replicate (16 - p.n) (BitVec.ofNat 8 (16 - p.n)))) (p.iv seq))
      ∧ Completed .enc y.toList s t ∧ KeepsOther .enc s t ∧ KeepsKey s t
      ∧ (t.codec .enc).chain = y ∧ (t.codec .enc).blen = 0 ∧ (t.codec .enc).fused = false
      ∧ (t.codec .enc).cmode = .cbc ∧ (t.codec .enc).pmode = .rtp ∧ t.codec .dec = s.codec .dec
      ∧ (t.chan .enc).status.rtpPadOut = true ∧ t.draws = s.draws

/-- 43_cipher_engine.md R136, R138, R140. `encrypt` of a positive multiple of 16 bytes completes with the CBC encryption of
the message from the derived IV. -/
def Obligations.EncryptAlignedMessageIsCbc : Prop :=
  ∀ (seq : Bool) (s : State) (p : Snapshot), s.Pends .enc p → s.mem.wf = true → p.Whole → p.n ≤ s.maxLen → s.Keyed →
    16 ≤ p.n → p.n % 16 = 0 →
    ∃ t out, exec (.encrypt .enc seq) s = .next t ∧ CbcEncrypts s.underActiveKey (p.iv seq) p.inp out
      ∧ Completed .enc out s t ∧ KeepsOther .enc s t ∧ KeepsKey s t
      ∧ (t.codec .enc).chain = lastBlock (p.iv seq) out ∧ (t.codec .enc).blen = 0 ∧ (t.codec .enc).fused = false
      ∧ (t.codec .enc).cmode = .cbc ∧ (t.codec .enc).pmode = .standard ∧ t.codec .dec = s.codec .dec
      ∧ (t.chan .enc).status.rtpPadOut = false ∧ t.draws = s.draws

/-- 43_cipher_engine.md R136, R139, R140 with 42_cts_codec.md R102, R106. `encrypt` of more than 16 bytes that are no
multiple of 16 completes with as many bytes: the CBC encryption of the leading blocks, then the stolen ending `Z ++ Y[0..r)`,
where `r` is the length of the last, short piece. -/
def Obligations.EncryptUnalignedMessageSteals : Prop :=
  ∀ (seq : Bool) (s : State) (p : Snapshot), s.Pends .enc p → s.mem.wf = true → p.Whole → p.n ≤ s.maxLen → s.Keyed →
    16 < p.n → p.n % 16 ≠ 0 →
    ∃ t head y z, exec (.encrypt .enc seq) s = .next t
      ∧ CbcEncrypts s.underActiveKey (p.iv seq) (p.inp.take (p.n - p.n % 16 - 16)) head
      ∧ y = s.underActiveKey.e (xorBlock (blockAt p.inp (p.n / 16 - 1)) (lastBlock (p.iv seq) head))
      ∧ z = s.underActiveKey.e (xorBlock (pack 16 (p.inp.drop (p.n - p.n % 16) ++ zeros (16 - p.n % 16))) y)
      ∧ Completed .enc (head ++ z.toList ++ y.toList.take (p.n % 16)) s t
      ∧ (head ++ z.toList ++ y.toList.take (p.n % 16)).length = p.n
      ∧ KeepsOther .enc s t ∧ KeepsKey s t
      ∧ (t.codec .enc).chain = z ∧ (t.codec .enc).blen = 0 ∧ (t.codec .enc).fused = false
      ∧ (t.codec .enc).cmode = .cbc ∧ (t.codec .enc).pmode = .none ∧ t.codec .dec = s.codec .dec
      ∧ (t.chan .enc).status.rtpPadOut = false ∧ t.draws = s.draws

/-- 60_exceptions.md R173, row ENCRYPT. -/
def Obligations.EncryptRefusesInOrder : Prop :=
  ∀ (seq : Bool) (s : State) (p : Snapshot), s.Pends .enc p →
    (s.maxLen < p.n → ∃ t, exec (.encrypt .enc seq) s = .next t ∧ Failed .enc .badLength s t)
      ∧ (p.n ≤ s.maxLen → algRecognised s.algId = false →
          ∃ t, exec (.encrypt .enc seq) s = .next t ∧ Failed .enc .unsupportedAlgorithm s t)
      ∧ (p.n ≤ s.maxLen → algRecognised s.algId = true → s.keyValid = false →
          ∃ t, exec (.encrypt .enc seq) s = .next t ∧ Failed .enc .noKey s t)

/-! ### DECRYPT -/

/-- 43_cipher_engine.md R142, R147. `decrypt` without the padding flag of a multiple of 16 bytes, 0 included, completes with
the CBC decryption of the message, whole. -/
def Obligations.DecryptAlignedMessageIsCbc : Prop :=
  ∀ (seq : Bool) (s : State) (p : Snapshot), s.Pends .dec p → s.mem.wf = true → p.Whole → p.n ≤ s.maxLen → s.Keyed →
    p.n % 16 = 0 →
    ∃ t out, exec (.decrypt .dec seq false) s = .next t ∧ CbcDecrypts s.underActiveKey (p.iv seq) p.inp out
      ∧ Completed .dec out s t ∧ KeepsOther .dec s t ∧ KeepsKey s t ∧ KeepsPadFlags s t
      ∧ (t.codec .dec).chain = lastBlock (p.iv seq) p.inp ∧ (t.codec .dec).blen = 0 ∧ (t.codec .dec).fused = false
      ∧ (t.codec .dec).cmode = .cbc ∧ (t.codec .dec).pmode = .standard ∧ t.codec .enc = s.codec .enc
      ∧ t.draws = s.draws

/-- 43_cipher_engine.md R142, R143, R144, R146, R150. `decrypt` with the padding flag of a positive multiple of 16 bytes:
the last decrypted byte alone decides, and the message is what stands before the padding it counts, or `BadPadding`. -/
def Obligations.DecryptPaddedMessageTrustsTheLastByte : Prop :=
  ∀ (seq : Bool) (s : State) (p : Snapshot), s.Pends .dec p → s.mem.wf = true → p.Whole → p.n ≤ s.maxLen → s.Keyed →
    0 < p.n → p.n % 16 = 0 →
    ∃ t msg, exec (.decrypt .dec seq true) s = .next t ∧ CbcDecrypts s.underActiveKey (p.iv seq) p.inp msg
      ∧ (if 1 ≤ (msg.getD (p.n - 1) 0).toNat ∧ (msg.getD (p.n - 1) 0).toNat ≤ 16 then
          Completed .dec (msg.take (p.n - (msg.getD (p.n - 1) 0).toNat)) s t ∧ KeepsOther .dec s t ∧ KeepsKey s t
            ∧ KeepsPadFlags s t
            ∧ (t.codec .dec).chain = lastBlock (p.iv seq) p.inp ∧ (t.codec .dec).blen = 0
            ∧ (t.codec .dec).fused = false ∧ (t.codec .dec).cmode = .cbc ∧ (t.codec .dec).pmode = .rtp
            ∧ t.codec .enc = s.codec .enc ∧ t.draws = s.draws
         else Failed .dec .badPadding s t)

/-- 43_cipher_engine.md R142 with 42_cts_codec.md R102, R108. `decrypt` without the padding flag of more than 16 bytes that
are no multiple of 16 completes with as many bytes: the CBC decryption of the leading blocks, then the block recovered
from the stolen ciphertext, then the short piece. -/
def Obligations.DecryptUnalignedMessageUndoesStealing : Prop :=
  ∀ (seq : Bool) (s : State) (p : Snapshot), s.Pends .dec p → s.mem.wf = true → p.Whole → p.n ≤ s.maxLen → s.Keyed →
    16 < p.n → p.n % 16 ≠ 0 →
    ∃ t head v y u, exec (.decrypt .dec seq false) s = .next t
      ∧ CbcDecrypts s.underActiveKey (p.iv seq) (p.inp.take (p.n - p.n % 16 - 16)) head
      ∧ v = xorBlock (s.underActiveKey.d (blockAt p.inp (p.n / 16 - 1)))
          (pack 16 (p.inp.drop (p.n - p.n % 16) ++ zeros (16 - p.n % 16)))
      ∧ y = pack 16 (p.inp.drop (p.n - p.n % 16) ++ v.toList.drop (p.n % 16))
      ∧ u = xorBlock (s.underActiveKey.d y) (lastBlock (p.iv seq) (p.inp.take (p.n - p.n % 16 - 16)))
      ∧ Completed .dec (head ++ u.toList ++ v.toList.take (p.n % 16)) s t
      ∧ (head ++ u.toList ++ v.toList.take (p.n % 16)).length = p.n
      ∧ KeepsOther .dec s t ∧ KeepsKey s t ∧ KeepsPadFlags s t
      ∧ (t.codec .dec).chain = y ∧ (t.codec .dec).blen = 0 ∧ (t.codec .dec).fused = false
      ∧ (t.codec .dec).cmode = .cbc ∧ (t.codec .dec).pmode = .none ∧ t.codec .enc = s.codec .enc
      ∧ t.draws = s.draws

/-- 60_exceptions.md R173, row DECRYPT, but for the padding byte, which is the statement above. -/
def Obligations.DecryptRefusesInOrder : Prop :=
  ∀ (seq pad : Bool) (s : State) (p : Snapshot), s.Pends .dec p →
    (s.maxLen < p.n → ∃ t, exec (.decrypt .dec seq pad) s = .next t ∧ Failed .dec .badLength s t)
      ∧ (p.n ≤ s.maxLen → algRecognised s.algId = false →
          ∃ t, exec (.decrypt .dec seq pad) s = .next t ∧ Failed .dec .unsupportedAlgorithm s t)
      ∧ (p.n ≤ s.maxLen → algRecognised s.algId = true → s.keyValid = false →
          ∃ t, exec (.decrypt .dec seq pad) s = .next t ∧ Failed .dec .noKey s t)
      ∧ (p.n ≤ s.maxLen → s.Keyed → p.Whole → pad = true → p.n = 0 →
          ∃ t, exec (.decrypt .dec seq pad) s = .next t ∧ Failed .dec .badPadding s t)
      ∧ (p.n ≤ s.maxLen → s.Keyed → p.Whole → pad = true → p.n % 16 ≠ 0 →
          ∃ t, exec (.decrypt .dec seq pad) s = .next t ∧ Failed .dec .badLength s t)
      ∧ (p.n ≤ s.maxLen → s.Keyed → p.Whole → pad = false → 0 < p.n → p.n < 16 →
          ∃ t, exec (.decrypt .dec seq pad) s = .next t ∧ Failed .dec .missingState s t)

/-! ### The codec's commands -/

/-- 42_cts_codec.md R111, R112. `ctsEncInit` and `ctsDecInit` complete: the IV and the mode are stored, the stream in
progress is dropped, and no key is needed. -/
def Obligations.CtsInitStartsAStream : Prop :=
  ∀ (d : Chan) (seq : Bool) (mode : CtsMode) (s : State) (p : Snapshot), s.Pends d p →
    ∃ t, exec (ctsInitOf d seq mode) s = .next t ∧ Completed d [] s t ∧ KeepsOther d s t ∧ KeepsKey s t
      ∧ KeepsPadFlags s t
      ∧ (t.codec d).chain = pack 16 (ivDerive 16 (if seq = true then some p.seq else none))
      ∧ (t.codec d).blen = 0 ∧ (t.codec d).fused = false ∧ (t.codec d).cmode = mode ∧ (t.codec d).pmode = .none
      ∧ t.codec (otherChan d) = s.codec (otherChan d) ∧ t.draws = s.draws

/-- 42_cts_codec.md R102 (first case), R113, R114. `ctsEncUpdate` and `ctsDecUpdate` of bytes that stay within one block
complete, emit nothing, and only lengthen the buffer. -/
def Obligations.CtsUpdateAccumulatesWithinABlock : Prop :=
  ∀ (d : Chan) (s : State) (p : Snapshot), s.Pends d p → p.Whole → p.n ≤ s.maxLen → (s.codec d).Supported → s.Keyed →
    (s.codec d).blen + p.n ≤ 16 →
    ∃ t, exec (ctsUpdateOf d) s = .next t ∧ Completed d [] s t ∧ KeepsOther d s t ∧ KeepsKey s t ∧ KeepsPadFlags s t
      ∧ (t.codec d).blen = (s.codec d).blen + p.n
      ∧ (t.codec d).buf.toList.take ((s.codec d).blen + p.n) = (s.codec d).buf.toList.take (s.codec d).blen ++ p.inp
      ∧ (t.codec d).fin = (s.codec d).fin ∧ (t.codec d).fused = (s.codec d).fused
      ∧ (t.codec d).chain = (s.codec d).chain ∧ (t.codec d).cmode = (s.codec d).cmode
      ∧ (t.codec d).pmode = (s.codec d).pmode ∧ t.codec (otherChan d) = s.codec (otherChan d) ∧ t.draws = s.draws

/-- 42_cts_codec.md R102 (the other cases), R113, R114. `ctsEncUpdate` and `ctsDecUpdate` of bytes that fill the block
complete: with `y` the buffered bytes and the input after them, the last `tailLength` bytes of `y` are buffered, the block
before them is the new pending-final block, and what stood before that, a pending block first, is transformed and
emitted: whole blocks, at most `n + 15` bytes. -/
def Obligations.CtsUpdateEmitsAllButTheHeldBytes : Prop :=
  ∀ (d : Chan) (s : State) (p : Snapshot), s.Pends d p → s.mem.wf = true → p.Whole → p.n ≤ s.maxLen →
    s.maxLen ≤ 8176 → (s.codec d).Ok → (s.codec d).Supported → s.Keyed → 16 < (s.codec d).blen + p.n →
    ∃ t out y emitted, exec (ctsUpdateOf d) s = .next t
      ∧ y = (s.codec d).buf.toList.take (s.codec d).blen ++ p.inp
      ∧ emitted = (if (s.codec d).fused = true then (s.codec d).fin.toList else [])
          ++ y.take (y.length - tailLength y.length - 16)
      ∧ out = (xs s.underActiveKey d emitted (s.codec d)).1
      ∧ Completed d out s t ∧ KeepsOther d s t ∧ KeepsKey s t ∧ KeepsPadFlags s t
      ∧ out.length = emitted.length ∧ out.length % 16 = 0 ∧ out.length ≤ p.n + 15
      ∧ (t.codec d).blen = tailLength y.length
      ∧ (t.codec d).buf.toList.take (tailLength y.length) = y.drop (y.length - tailLength y.length)
      ∧ (t.codec d).fused = true
      ∧ (t.codec d).fin.toList = (y.drop (y.length - tailLength y.length - 16)).take 16
      ∧ (t.codec d).chain = (xs s.underActiveKey d emitted (s.codec d)).2.chain
      ∧ (t.codec d).cmode = (s.codec d).cmode ∧ (t.codec d).pmode = (s.codec d).pmode
      ∧ t.codec (otherChan d) = s.codec (otherChan d) ∧ t.draws = s.draws

/-- 42_cts_codec.md R104, R110, R113 to R116, 60_exceptions.md R173, rows CTS_*_UPDATE and CTS_*_FINAL. -/
def Obligations.CtsCommandsRefuseInOrder : Prop :=
  ∀ (d : Chan) (s : State) (p : Snapshot), s.Pends d p →
    (s.maxLen < p.n → ∃ t, exec (ctsUpdateOf d) s = .next t ∧ Failed d .badLength s t)
      ∧ (p.n ≤ s.maxLen → ¬(s.codec d).Supported →
          ∃ t, exec (ctsUpdateOf d) s = .next t ∧ Failed d .unsupportedMode s t)
      ∧ (p.n ≤ s.maxLen → (s.codec d).Supported → algRecognised s.algId = false →
          ∃ t, exec (ctsUpdateOf d) s = .next t ∧ Failed d .unsupportedAlgorithm s t)
      ∧ (p.n ≤ s.maxLen → (s.codec d).Supported → algRecognised s.algId = true → s.keyValid = false →
          ∃ t, exec (ctsUpdateOf d) s = .next t ∧ Failed d .noKey s t)
      ∧ (¬(s.codec d).Supported → ∃ t, exec (ctsFinalOf d) s = .next t ∧ Failed d .unsupportedMode s t)
      ∧ ((s.codec d).Supported → algRecognised s.algId = false →
          ∃ t, exec (ctsFinalOf d) s = .next t ∧ Failed d .unsupportedAlgorithm s t)
      ∧ ((s.codec d).Supported → algRecognised s.algId = true → s.keyValid = false →
          ∃ t, exec (ctsFinalOf d) s = .next t ∧ Failed d .noKey s t)
      ∧ ((s.codec d).Supported → s.Keyed → ((s.codec d).fused = false ∨ (s.codec d).blen = 0) →
          ∃ t, exec (ctsFinalOf d) s = .next t ∧ Failed d .missingState s t)

/-- 42_cts_codec.md R105, R107, R109, R115, R116: `ctsEncFinal` and `ctsDecFinal` in ECB mode. Both directions complete the
short block with the tail of the transformed pending block; `f` is the block function of the direction. -/
def Obligations.CtsFinalInEcbModeSteals : Prop :=
  ∀ (d : Chan) (s : State) (p : Snapshot) (f : Block → Block), s.Pends d p → s.mem.wf = true → (s.codec d).Ok →
    (s.codec d).cmode = .ecb → s.Keyed → (s.codec d).fused = true →
    f = (match d with | .enc => s.underActiveKey.e | .dec => s.underActiveKey.d) →
    ∃ t y z, exec (ctsFinalOf d) s = .next t
      ∧ y = f (s.codec d).fin
      ∧ z = f (pack 16 ((s.codec d).buf.toList.take (s.codec d).blen ++ y.toList.drop (s.codec d).blen))
      ∧ Completed d (z.toList ++ y.toList.take (s.codec d).blen) s t
      ∧ KeepsOther d s t ∧ KeepsKey s t ∧ KeepsPadFlags s t
      ∧ (t.codec d).blen = 0 ∧ (t.codec d).fused = false ∧ (t.codec d).chain = (s.codec d).chain
      ∧ (t.codec d).cmode = .ecb ∧ (t.codec d).pmode = (s.codec d).pmode
      ∧ t.codec (otherChan d) = s.codec (otherChan d) ∧ t.draws = s.draws

/-- 42_cts_codec.md R106, R109, R115: `ctsEncFinal` in CBC mode. -/
def Obligations.CtsEncFinalCbcSteals : Prop :=
  ∀ (s : State) (p : Snapshot), s.Pends .enc p → s.mem.wf = true → (s.codec .enc).Ok → (s.codec .enc).cmode = .cbc →
    s.Keyed → (s.codec .enc).fused = true →
    ∃ t y z, exec (.ctsEncFinal .enc) s = .next t
      ∧ y = s.underActiveKey.e (xorBlock (s.codec .enc).fin (s.codec .enc).chain)
      ∧ z = s.underActiveKey.e (xorBlock (pack 16 ((s.codec .enc).buf.toList.take (s.codec .enc).blen
          ++ zeros (16 - (s.codec .enc).blen))) y)
      ∧ Completed .enc (z.toList ++ y.toList.take (s.codec .enc).blen) s t
      ∧ KeepsOther .enc s t ∧ KeepsKey s t ∧ KeepsPadFlags s t
      ∧ (t.codec .enc).blen = 0 ∧ (t.codec .enc).fused = false ∧ (t.codec .enc).chain = z
      ∧ (t.codec .enc).cmode = .cbc ∧ (t.codec .enc).pmode = (s.codec .enc).pmode
      ∧ t.codec .dec = s.codec .dec ∧ t.draws = s.draws

/-- 42_cts_codec.md R108 (its net values), R109, R116: `ctsDecFinal` in CBC mode. -/
def Obligations.CtsDecFinalCbcRecovers : Prop :=
  ∀ (s : State) (p : Snapshot), s.Pends .dec p → s.mem.wf = true → (s.codec .dec).Ok → (s.codec .dec).cmode = .cbc →
    s.Keyed → (s.codec .dec).fused = true →
    ∃ t v y u, exec (.ctsDecFinal .dec) s = .next t
      ∧ v = xorBlock (s.underActiveKey.d (s.codec .dec).fin) (pack 16 ((s.codec .dec).buf.toList.take (s.codec .dec).blen
          ++ zeros (16 - (s.codec .dec).blen)))
      ∧ y = pack 16 ((s.codec .dec).buf.toList.take (s.codec .dec).blen ++ v.toList.drop (s.codec .dec).blen)
      ∧ u = xorBlock (s.underActiveKey.d y) (s.codec .dec).chain
      ∧ Completed .dec (u.toList ++ v.toList.take (s.codec .dec).blen) s t
      ∧ KeepsOther .dec s t ∧ KeepsKey s t ∧ KeepsPadFlags s t
      ∧ (t.codec .dec).blen = 0 ∧ (t.codec .dec).fused = false ∧ (t.codec .dec).chain = y
      ∧ (t.codec .dec).cmode = .cbc ∧ (t.codec .dec).pmode = (s.codec .dec).pmode
      ∧ t.codec .enc = s.codec .enc ∧ t.draws = s.draws

/-! ### The codec's streams, for every pair of block functions -/

/-- 42_cts_codec.md R100, R101: what transforming a string of whole blocks is, in each mode and direction, and what it does
to the chaining value; no other field changes. -/
def Obligations.XsIsChainedOrPlainTransformation : Prop :=
  ∀ (K : KeyedCipher) (s : Codec) (inp : Bytes), inp.length % 16 = 0 →
    (s.cmode = .cbc →
        CbcEncrypts K s.chain inp (xs K .enc inp s).1
          ∧ (xs K .enc inp s).2 = { s with chain := lastBlock s.chain (xs K .enc inp s).1 }
          ∧ CbcDecrypts K s.chain inp (xs K .dec inp s).1
          ∧ (xs K .dec inp s).2 = { s with chain := lastBlock s.chain inp })
      ∧ (s.cmode = .ecb →
        EcbMaps K.e inp (xs K .enc inp s).1 ∧ (xs K .enc inp s).2 = s
          ∧ EcbMaps K.d inp (xs K .dec inp s).1 ∧ (xs K .dec inp s).2 = s)

/-- 42_cts_codec.md R103: the buffer invariant, for every chunking of a stream. -/
def Obligations.BufferInvariantForEveryChunking : Prop :=
  ∀ (K : KeyedCipher) (d : Chan) (chunks : List Bytes) (s : Codec), s.Empty →
    (chunks.flatten.length ≤ 16 →
        (feed K d chunks s).1 = [] ∧ (feed K d chunks s).2.fused = false
          ∧ (feed K d chunks s).2.blen = chunks.flatten.length
          ∧ (feed K d chunks s).2.buf.toList.take chunks.flatten.length = chunks.flatten)
      ∧ (16 < chunks.flatten.length →
        (feed K d chunks s).2.fused = true
          ∧ (feed K d chunks s).2.blen = tailLength chunks.flatten.length
          ∧ (feed K d chunks s).2.buf.toList.take (tailLength chunks.flatten.length)
              = chunks.flatten.drop (chunks.flatten.length - tailLength chunks.flatten.length)
          ∧ (feed K d chunks s).2.fin.toList
              = (chunks.flatten.drop (chunks.flatten.length - tailLength chunks.flatten.length - 16)).take 16
          ∧ (feed K d chunks s).1
              = (xs K d (chunks.flatten.take (chunks.flatten.length - tailLength chunks.flatten.length - 16)) s).1
          ∧ (feed K d chunks s).2.chain
              = (xs K d (chunks.flatten.take
                  (chunks.flatten.length - tailLength chunks.flatten.length - 16)) s).2.chain)

/-- 42_cts_codec.md R117 and R104, of the codec's functions: a stream of at most 16 bytes has no final; a longer one gives
exactly as many bytes as it took, in each direction and each of the four modes. R117 speaks of ECB and CBC; that the
functions also end so in the modes 2 and 3, in which no command reaches them (R110), is the model's choice (log 15). -/
def Obligations.StreamLengthIsPreserved : Prop :=
  ∀ (K : KeyedCipher) (d : Chan) (chunks : List Bytes) (s : Codec), s.Empty →
    (chunks.flatten.length ≤ 16 → streamOut K d chunks s = .error .missingState)
      ∧ (16 < chunks.flatten.length →
        ∃ out, streamOut K d chunks s = .ok out ∧ out.length = chunks.flatten.length)

/-- 42_cts_codec.md R118: the bytes of a stream do not depend on its chunking, nor on anything of the codec state but the
mode and the chaining value. -/
def Obligations.StreamOutputIgnoresTheChunking : Prop :=
  ∀ (K : KeyedCipher) (d : Chan) (chunks chunks' : List Bytes) (s s' : Codec), s.Empty → s'.Empty →
    s'.cmode = s.cmode → s'.chain = s.chain → chunks.flatten = chunks'.flatten →
    streamOut K d chunks s = streamOut K d chunks' s'

/-- 42_cts_codec.md R119: decoding undoes encoding, for every block transform with the law of R9 and every chunking on both
sides. -/
def Obligations.StreamDecodeInvertsEncode : Prop :=
  ∀ (K : KeyedCipher) (chunks chunks' : List Bytes) (s s' : Codec) (out : Bytes), K.Inverse → s.Empty → s'.Empty →
    s.Supported → s'.cmode = s.cmode → s'.chain = s.chain → 16 < chunks.flatten.length →
    streamOut K .enc chunks s = .ok out → chunks'.flatten = out →
    streamOut K .dec chunks' s' = .ok chunks.flatten

/-! ### The block transform, and the round trip of the engine -/

/-- 00_scope.md R9: the law of the block transform, of the instance the model takes (log 1: FIPS-197, presumed). -/
def Obligations.AesInverseLaw : Prop :=
  ∀ key : Bytes, (aesUnder key).Inverse

/-- 43_cipher_engine.md R149, with the block transform of log 1. `encrypt` then `decrypt` of its output, with the same key,
the same sequence value and the padding flag that `encrypt` reported, returns the plaintext: the states need share no
more than the key and the algorithm. -/
def Obligations.DecryptReturnsWhatEncryptTook : Prop :=
  ∀ (seq : Bool) (s t u : State) (p q : Snapshot), s.Pends .enc p → s.mem.wf = true → p.Whole → p.n ≤ s.maxLen →
    s.Keyed → exec (.encrypt .enc seq) s = .next t →
    u.Pends .dec q → u.mem.wf = true → u.algId = t.algId → u.key = t.key →
    u.keyValid = t.keyValid → q.seq = p.seq → q.len = (t.chan .enc).outLen →
    q.inp = t.mem.readBytes (outBase .enc) q.n → q.n ≤ u.maxLen →
    ∃ v, exec (.decrypt .dec seq (t.chan .enc).status.rtpPadOut) u = .next v ∧ Completed .dec p.inp u v

/-! ### Errors, atomicity and agents -/

/-- 44_control.md R165, 60_exceptions.md R170: every command on a channel that has accepted one completes, in success or
with exactly one error. -/
def Obligations.EveryCommandCompletes : Prop :=
  ∀ (i : Instr) (s : State) (p : Snapshot), s.Pends i.chan p →
    ∃ t, exec i s = .next t ∧ (t.chan i.chan).pending = none ∧ (t.chan i.chan).status.done = true
      ∧ ((t.chan i.chan).status.err = false ∧ (t.chan i.chan).status.errcode = .ok
        ∨ (t.chan i.chan).status.err = true ∧ (t.chan i.chan).status.errcode ≠ .ok ∧ (t.chan i.chan).outLen = 0)

/-- 60_exceptions.md R174: a command that ends in an error changes nothing but its status, its output length and its
pending slot. -/
def Obligations.FailureIsAtomic : Prop :=
  ∀ (i : Instr) (s t : State), exec i s = .next t → (t.chan i.chan).status.err = true →
    Failed i.chan (t.chan i.chan).status.errcode s t

/-- 30_encoding.md R78: a command on a channel its row forbids completes with `IllegalCommand` and no other effect. -/
def Obligations.WrongChannelIsIllegalCommand : Prop :=
  ∀ (i : Instr) (s : State) (p : Snapshot), i.wellFormed = false → s.Pends i.chan p →
    ∃ t, exec i s = .next t ∧ Failed i.chan .illegalCommand s t

/-- 44_control.md R167: what no command writes, and what only `ZEROIZE` writes. -/
def Obligations.CommandsWriteOnlyTheirOwn : Prop :=
  ∀ (i : Instr) (s t : State), s.Inv → exec i s = .next t →
    (∀ c, (t.chan c).cmd = (s.chan c).cmd ∧ (t.chan c).len = (s.chan c).len ∧ (t.chan c).doneEn = (s.chan c).doneEn
        ∧ (t.chan c).ovrEn = (s.chan c).ovrEn ∧ (t.chan c).status.overrun = (s.chan c).status.overrun)
      ∧ (t.chan (otherChan i.chan)).pending = (s.chan (otherChan i.chan)).pending
      ∧ (t.chan (otherChan i.chan)).status.done = (s.chan (otherChan i.chan)).status.done
      ∧ (t.chan (otherChan i.chan)).status.err = (s.chan (otherChan i.chan)).status.err
      ∧ (t.chan (otherChan i.chan)).status.errcode = (s.chan (otherChan i.chan)).status.errcode
      ∧ ((∀ c, i ≠ .zeroize c) →
          (∀ c, (t.chan c).seq = (s.chan c).seq)
            ∧ t.chan (otherChan i.chan) = s.chan (otherChan i.chan)
            ∧ t.keywin = s.keywin
            ∧ (∀ c a, inBase c ≤ a → a < inBase c + 0x2000 → t.mem.read a = s.mem.read a)
            ∧ (∀ a, outBase (otherChan i.chan) ≤ a → a < outBase (otherChan i.chan) + 0x2000 →
                t.mem.read a = s.mem.read a))

/-- 10_state.md R36: a command reads and writes only its own direction's codec state, `ZEROIZE` apart: the other
direction's state stays, and the outcome does not depend on it. -/
def Obligations.DirectionsAreIsolated : Prop :=
  ∀ (i : Instr) (s t : State) (x : Codec), (∀ c, i ≠ .zeroize c) → exec i s = .next t →
    t.codec (otherChan i.chan) = s.codec (otherChan i.chan)
      ∧ exec i (s.setCodec (otherChan i.chan) x) = .next (t.setCodec (otherChan i.chan) x)

/-- 20_memory.md R62: commands of channel 0 and channel 1 that do not write the shared key state commute. -/
def Obligations.CommandsOfTheTwoChannelsCommute : Prop :=
  ∀ (i j : Instr) (s si sj : State), s.Inv → i.chan = .enc → j.chan = .dec →
    (∀ c, i ≠ .setkey c ∧ i ≠ .genkey c ∧ i ≠ .zeroize c) → (∀ c, j ≠ .setkey c ∧ j ≠ .genkey c ∧ j ≠ .zeroize c) →
    exec i s = .next si → exec j s = .next sj →
    ∃ t, exec j si = .next t ∧ exec i sj = .next t

/-! ### The host port -/

/-- 44_control.md R162, 10_state.md R26: a write to `CMD[c]` of an idle channel is accepted, whatever the word. -/
def Obligations.AcceptanceTakesASnapshot : Prop :=
  ∀ (c : Chan) (w : Word) (s : State) (rest : List Event), s.agenda = writeEvent (pageBase c) w :: rest →
    s.busy c = false →
    ∃ t p, step s = .next t ∧ t.Pends c p
      ∧ p.word = w ∧ p.len = (s.chan c).len ∧ p.seq = (s.chan c).seq ∧ p.keywin = s.keywin
      ∧ p.inp.length = min (s.chan c).len.toNat s.maxLen
      ∧ (∀ i, i < p.inp.length → p.inp.getD i 0 = s.mem.read (inBase c + i))
      ∧ (t.chan c).cmd = w
      ∧ (t.chan c).status = { (s.chan c).status with done := false, err := false, errcode := .ok }
      ∧ (t.chan c).doneEn = (s.chan c).doneEn ∧ (t.chan c).ovrEn = (s.chan c).ovrEn
      ∧ (t.chan c).len = (s.chan c).len ∧ (t.chan c).outLen = (s.chan c).outLen ∧ (t.chan c).seq = (s.chan c).seq
      ∧ KeepsOther c s t ∧ KeepsKey s t ∧ KeepsCodecs s t ∧ t.mem = s.mem ∧ t.keywin = s.keywin
      ∧ t.algId = s.algId ∧ t.maxLen = s.maxLen ∧ t.draws = s.draws ∧ t.agenda = rest ∧ t.bus = .written

/-- 70_reset_and_hazards.md R205, 60_exceptions.md R177: a write to `CMD`, `LEN`, `SEQ0`, `SEQ1` or a byte of `IN` of a busy
channel is discarded and sets `OVERRUN`, and does nothing else. -/
def Obligations.BusyWritesAreDiscarded : Prop :=
  ∀ (c : Chan) (off : Nat) (w : Word) (s : State) (rest : List Event), s.agenda = writeEvent off w :: rest →
    s.busy c = true → s.maxLen ≤ 8176 →
    (off = pageBase c ∨ off = pageBase c + 0x0C ∨ off = pageBase c + 0x14 ∨ off = pageBase c + 0x18
      ∨ ∃ i, i % 4 = 0 ∧ i < s.maxLen ∧ off = inBase c + i) →
    step s = .next (((s.setAgenda rest).setChan c
      { s.chan c with status := { (s.chan c).status with overrun := true } }).setBus .written)

/-- 10_state.md R38, 60_exceptions.md R179: a write to `STATUS[c]`, busy or not, clears `DONE` and `OVERRUN` where it has
ones, and nothing else. -/
def Obligations.StatusWriteClearsByOnes : Prop :=
  ∀ (c : Chan) (w : Word) (s : State) (rest : List Event), s.agenda = writeEvent (pageBase c + 4) w :: rest →
    step s = .next (((s.setAgenda rest).setChan c
      { s.chan c with status := { (s.chan c).status with
          done := (s.chan c).status.done && !w.getLsbD 1
          overrun := (s.chan c).status.overrun && !w.getLsbD 3 } }).setBus .written)

/-- 10_state.md R39, R40, R42, R24, 20_memory.md R53, R54: what writes to `INT_EN`, `LEN`, `SEQ0`, `SEQ1` and `KEYWIN` store;
nothing else changes. -/
def Obligations.RegisterWritesStoreTheirFields : Prop :=
  ∀ (c : Chan) (off : Nat) (w : Word) (s : State) (rest : List Event), s.agenda = writeEvent off w :: rest →
    (off = pageBase c + 0x08 →
        step s = .next (((s.setAgenda rest).setChan c
          { s.chan c with doneEn := w.getLsbD 0, ovrEn := w.getLsbD 1 }).setBus .written))
      ∧ (off = pageBase c + 0x0C → s.busy c = false →
        step s = .next (((s.setAgenda rest).setChan c
          { s.chan c with len := w.extractLsb' 0 16 }).setBus .written))
      ∧ (off = pageBase c + 0x14 → s.busy c = false →
        step s = .next (((s.setAgenda rest).setChan c
          { s.chan c with seq := #v[w.extractLsb' 0 8, w.extractLsb' 8 8, w.extractLsb' 16 8, w.extractLsb' 24 8,
              (s.chan c).seq[4], (s.chan c).seq[5]] }).setBus .written))
      ∧ (off = pageBase c + 0x18 → s.busy c = false →
        step s = .next (((s.setAgenda rest).setChan c
          { s.chan c with seq := #v[(s.chan c).seq[0], (s.chan c).seq[1], (s.chan c).seq[2], (s.chan c).seq[3],
              w.extractLsb' 0 8, w.extractLsb' 8 8] }).setBus .written))
      ∧ (∀ k, k % 4 = 0 → k < 32 → off = 0x40 + k →
        ∃ v, step s = .next (((s.setAgenda rest).setKeywin v).setBus .written)
          ∧ ∀ i, i < 32 → v.toList.getD i 0
              = if k ≤ i ∧ i < k + 4 then w.extractLsb' (8 * (i - k)) 8 else s.keywin.toList.getD i 0)

/-- 20_memory.md R53, R54, 10_state.md R43: a write to a word of the input window of an idle channel stores its bytes below
the capacity, little-endian, and changes nothing else. -/
def Obligations.InputWindowWritesStoreTheirBytes : Prop :=
  ∀ (c : Chan) (i : Nat) (w : Word) (s : State) (rest : List Event), s.agenda = writeEvent (inBase c + i) w :: rest →
    s.busy c = false → s.maxLen ≤ 8176 → s.mem.wf = true → i % 4 = 0 → i < s.maxLen →
    ∃ t, step s = .next t
      ∧ (∀ j, j < 4 → i + j < s.maxLen → t.mem.read (inBase c + i + j) = w.extractLsb' (8 * j) 8)
      ∧ (∀ a, (a < inBase c + i ∨ inBase c + i + 4 ≤ a ∨ inBase c + s.maxLen ≤ a) → t.mem.read a = s.mem.read a)
      ∧ (∀ e, t.chan e = s.chan e) ∧ KeepsKey s t ∧ KeepsCodecs s t ∧ t.keywin = s.keywin ∧ t.algId = s.algId
      ∧ t.maxLen = s.maxLen ∧ t.draws = s.draws ∧ t.agenda = rest ∧ t.bus = .written

/-- 20_memory.md R51, R54, 10_state.md R24: reserved places and read-only registers ignore writes; reserved places and the
staging window read as 0. -/
def Obligations.ReservedPlacesReadZeroAndIgnoreWrites : Prop :=
  ∀ (off : Nat) (w : Word) (s : State) (rest : List Event), off % 4 = 0 → s.maxLen ≤ 8176 →
    (s.agenda = writeEvent off w :: rest →
        (reservedOffset s.maxLen off ∨ off = 0 ∨ off = 4 ∨ off = 8 ∨ (∃ c, off = pageBase c + 0x10)
          ∨ ∃ c, outBase c ≤ off ∧ off < outBase c + 0x2000) →
        step s = .next ((s.setAgenda rest).setBus .written))
      ∧ (s.agenda = readEvent off :: rest → (reservedOffset s.maxLen off ∨ (0x40 ≤ off ∧ off < 0x60)) →
        step s = .next ((s.setAgenda rest).setBus (.data 0)))

/-- 20_memory.md R51, R53, R54, R58: what a read of each register and window word answers, those that R58 leaves unspecified
as far as their channels are idle: of `CTS_STATE` the fields of each idle direction and the reserved bits, of a window
word every lane, 0 beyond the capacity. `n` is the count of free values drawn, the model's own. -/
def Obligations.ReadsAnswerTheMap : Prop :=
  ∀ (c : Chan) (off : Nat) (s : State) (rest : List Event), s.agenda = readEvent off :: rest → s.maxLen ≤ 8176 →
    (off = 0 → step s = .next ((s.setAgenda rest).setBus (.data (algWord s))))
      ∧ (off = 4 → step s = .next ((s.setAgenda rest).setBus (.data (infoWord s))))
      ∧ (off = 8 → ∃ w n, step s = .next (((s.setAgenda rest).setBus (.data w)).setDraws n)
          ∧ (s.busy .enc = false → s.busy .dec = false → n = s.draws)
          ∧ (s.busy .enc = false → w.extractLsb' 0 10 = (ctsStateWord s).extractLsb' 0 10)
          ∧ (s.busy .dec = false → w.extractLsb' 16 10 = (ctsStateWord s).extractLsb' 16 10)
          ∧ w.extractLsb' 10 6 = 0 ∧ w.extractLsb' 26 6 = 0)
      ∧ (off = pageBase c → step s = .next ((s.setAgenda rest).setBus (.data (s.chan c).cmd)))
      ∧ (off = pageBase c + 0x04 → step s = .next ((s.setAgenda rest).setBus (.data (statusWord s c))))
      ∧ (off = pageBase c + 0x08 → ∃ w, step s = .next ((s.setAgenda rest).setBus (.data w))
          ∧ w.getLsbD 0 = (s.chan c).doneEn ∧ w.getLsbD 1 = (s.chan c).ovrEn ∧ w.extractLsb' 2 30 = 0)
      ∧ (off = pageBase c + 0x0C → step s = .next ((s.setAgenda rest).setBus (.data ((s.chan c).len.setWidth 32))))
      ∧ (off = pageBase c + 0x10 → s.busy c = false →
          step s = .next ((s.setAgenda rest).setBus (.data ((s.chan c).outLen.setWidth 32))))
      ∧ (off = pageBase c + 0x14 →
          step s = .next ((s.setAgenda rest).setBus (.data
            ((s.chan c).seq[3] ++ (s.chan c).seq[2] ++ (s.chan c).seq[1] ++ (s.chan c).seq[0]))))
      ∧ (off = pageBase c + 0x18 →
          step s = .next ((s.setAgenda rest).setBus (.data
            ((0 : Half) ++ (s.chan c).seq[5] ++ (s.chan c).seq[4]))))
      ∧ (∀ i, i % 4 = 0 → i < 0x2000 → off = inBase c + i →
          ∃ w, step s = .next ((s.setAgenda rest).setBus (.data w))
            ∧ ∀ j, j < 4 → w.extractLsb' (8 * j) 8 = if i + j < s.maxLen then s.mem.read (off + j) else 0)
      ∧ (∀ i, i % 4 = 0 → i < 0x2000 → off = outBase c + i →
          ∃ w n, step s = .next (((s.setAgenda rest).setBus (.data w)).setDraws n)
            ∧ (s.busy c = false → n = s.draws)
            ∧ (∀ j, j < 4 → s.busy c = false → i + j < s.maxLen + 16 →
                w.extractLsb' (8 * j) 8 = s.mem.read (off + j))
            ∧ ∀ j, j < 4 → s.maxLen + 16 ≤ i + j → w.extractLsb' (8 * j) 8 = 0)

/-- 20_memory.md R57: a read changes nothing of the block, busy or not, performed or not. What it may change is the model's
own: the answer, and the count of free values drawn. -/
def Obligations.ReadsHaveNoSideEffects : Prop :=
  ∀ (width : Width) (off : BitVec 16) (s : State) (rest : List Event),
    s.agenda = .host (.read width off) :: rest →
    ∃ answer n, step s = .next (((s.setAgenda rest).setBus answer).setDraws n) ∧ s.draws ≤ n ∧ n ≤ s.draws + 1

/-- 20_memory.md R52, 60_exceptions.md R176: an access that is not 32 bits wide at a multiple of 4 gets the bus error and
changes no state of the block. -/
def Obligations.MisalignedOrNarrowAccessIsABusError : Prop :=
  ∀ (width : Width) (off : BitVec 16) (w : Word) (s : State) (rest : List Event) (a : HostAccess),
    a = .read width off ∨ a = .write width off w → s.agenda = .host a :: rest →
    width ≠ .w32 ∨ off.toNat % 4 ≠ 0 →
    step s = .next ((s.setAgenda rest).setBus .accessFault)

/-- 10_state.md R23, R24, R33, 60_exceptions.md R184: no read of any register or window tells anything of the key, the
staging window, or the contents of the codec buffers and the chaining values. -/
def Obligations.ReadsDoNotRevealSecrets : Prop :=
  ∀ (s u : State) (key keywin : Vector Byte 32) (buf fin chain : Chan → Block) (width : Width) (off : BitVec 16)
    (rest : List Event),
    s.agenda = .host (.read width off) :: rest →
    u = (((s.setKey key s.keyValid).setKeywin keywin).setCodec .enc { s.codec .enc with
          buf := buf .enc, fin := fin .enc, chain := chain .enc }).setCodec .dec { s.codec .dec with
          buf := buf .dec, fin := fin .dec, chain := chain .dec } →
    ∃ t v, step s = .next t ∧ step u = .next v ∧ t.bus = v.bus

/-! ### The flags -/

/-- 10_state.md R38, 60_exceptions.md R171: every bit of `STATUS[c]`, with the table of the error codes. -/
def Obligations.StatusWordBits : Prop :=
  ∀ (s : State) (c : Chan),
    (statusWord s c).getLsbD 0 = (s.chan c).pending.isSome
      ∧ (statusWord s c).getLsbD 1 = (s.chan c).status.done
      ∧ (statusWord s c).getLsbD 2 = (s.chan c).status.err
      ∧ (statusWord s c).getLsbD 3 = (s.chan c).status.overrun
      ∧ (statusWord s c).getLsbD 4 = (s.chan c).status.rtpPadOut
      ∧ (statusWord s c).getLsbD 5 = s.keyValid
      ∧ (statusWord s c).extractLsb' 6 2 = 0
      ∧ (statusWord s c).extractLsb' 8 4 = (match (s.chan c).status.errcode with
          | .ok => 0
          | .unsupportedAlgorithm => 1
          | .invalidKeyLength => 2
          | .badPadding => 3
          | .missingState => 4
          | .unsupportedMode => 5
          | .noKey => 6
          | .badLength => 7
          | .illegalCommand => 8)
      ∧ (statusWord s c).extractLsb' 12 20 = 0

/-- 10_state.md R29, R34, R35: every field of `CTS_STATE`, with the codes of the codec modes and the padding modes. -/
def Obligations.CtsStateWordFields : Prop :=
  ∀ s : State, (∀ d, (s.codec d).Ok) →
    (∀ d k, k = (match d with | .enc => 0 | .dec => 16) →
        ((ctsStateWord s).extractLsb' k 5).toNat = (s.codec d).blen
          ∧ (ctsStateWord s).getLsbD (k + 5) = (s.codec d).fused
          ∧ (ctsStateWord s).extractLsb' (k + 6) 2 = (match (s.codec d).cmode with
              | .cbc => 0
              | .ecb => 1
              | .mode2 => 2
              | .mode3 => 3)
          ∧ (ctsStateWord s).extractLsb' (k + 8) 2 = (match (s.codec d).pmode with
              | .standard => 0
              | .none => 1
              | .rtp => 2))
      ∧ (ctsStateWord s).extractLsb' 10 6 = 0
      ∧ (ctsStateWord s).extractLsb' 26 6 = 0

/-- 00_scope.md R6, 10_state.md R27, R28: the recognised algorithms and their key lengths, and every field of `ALG` and
`INFO`. -/
def Obligations.AlgAndInfoWordFields : Prop :=
  ∀ s : State, s.maxLen ≤ 8176 →
    (algRecognised s.algId = true ↔ s.algId = 0 ∨ s.algId = 1 ∨ s.algId = 2)
      ∧ keyLength 0 = 16 ∧ keyLength 1 = 24 ∧ keyLength 2 = 32
      ∧ (algRecognised s.algId = false → keyLength s.algId = 0)
      ∧ (algWord s).extractLsb' 0 8 = s.algId
      ∧ (algWord s).getLsbD 8 = algRecognised s.algId
      ∧ (algWord s).extractLsb' 9 7 = 0
      ∧ ((algWord s).extractLsb' 16 8).toNat = keyLength s.algId
      ∧ (algWord s).extractLsb' 24 8 = 16
      ∧ (infoWord s).toNat = s.maxLen

/-- 10_state.md R45, 60_exceptions.md R178, R182: `irq` is the or of the enabled pending sources, and 0 after reset; after the
host writes ones to the pending bits of both channels it is 0. -/
def Obligations.IrqIsTheOrOfEnabledSources : Prop :=
  ∀ s : State,
    (s.irq = true ↔
      ∃ c, ((s.chan c).status.done = true ∧ (s.chan c).doneEn = true)
        ∨ ((s.chan c).status.overrun = true ∧ (s.chan c).ovrEn = true))
      ∧ State.reset.irq = false
      ∧ ∀ rest : List Event,
        s.agenda = writeEvent (pageBase .enc + 4) 0x0000000A :: writeEvent (pageBase .dec + 4) 0x0000000A :: rest →
        ∃ t, Host.Core.run core 2 s = .next t ∧ t.irq = false

/-! ### Decoding -/

/-- 30_encoding.md R77, R79, R82: a word on a channel decodes to a command exactly when the command is well formed on that
channel and the word agrees with the command's encoding on every bit the command reads; so decoding the encoding of a
well-formed command gives it back, and no ignored bit matters. -/
def Obligations.DecodeMatchesEncodeOnReadBits : Prop :=
  ∀ (c : Chan) (w : Word) (i : Instr),
    decode c w = .ok i ↔ i.wellFormed = true ∧ i.chan = c ∧ w &&& i.readMask = encode i

/-- 30_encoding.md R75, R76, R77, R78: which words are ILLEGAL. -/
def Obligations.IllegalWordsAreExactlyThese : Prop :=
  ∀ (c : Chan) (w : Word),
    (∃ e, decode c w = .error e) ↔
      w.extractLsb' 5 3 ≠ 0 ∨ w.extractLsb' 12 20 ≠ 0 ∨ 0x0A ≤ (w.extractLsb' 0 5).toNat
        ∨ ((w.extractLsb' 0 5).toNat = 3 ∧ c = .dec) ∨ ((w.extractLsb' 0 5).toNat = 4 ∧ c = .enc)

/-- 30_encoding.md R82 and its examples: the words of a few commands. -/
def Obligations.WordsOfTheSpecDecode : Prop :=
  decode .enc 0x00000000 = .ok (.nop .enc)
    ∧ decode .dec 0x00000F01 = .ok (.setkey .dec)
    ∧ decode .enc 0x00000103 = .ok (.encrypt .enc true)
    ∧ decode .dec 0x00000304 = .ok (.decrypt .dec true true)
    ∧ decode .enc 0x00000505 = .ok (.ctsEncInit .enc true .ecb)
    ∧ decode .dec 0x00000105 = .ok (.ctsDecInit .dec true .cbc)
    ∧ decode .enc 0x00000006 = .ok (.ctsEncUpdate .enc)
    ∧ decode .dec 0x00000007 = .ok (.ctsDecFinal .dec)
    ∧ decode .enc 0x00000108 = .ok (.ivDerive .enc true)
    ∧ decode .dec 0x00000009 = .ok (.zeroize .dec)

/-! ### The machine -/

/-- 44_control.md R163, 30_encoding.md R77, R78: a completion step of a channel runs the command its pending word decodes
to, on the state in which that event is past; an ILLEGAL word fails with `IllegalCommand` and has no other effect. The
third clause is the model's choice (log 6): the spec has no completion step of an idle channel, and the model lets such an
event of the agenda pass with no effect. -/
def Obligations.StepRunsTheDecodedCommand : Prop :=
  ∀ (c : Chan) (s : State) (rest : List Event), s.agenda = .completion c :: rest →
    (∀ p i, s.Pends c p → decode c p.word = .ok i → step s = exec i (s.setAgenda rest))
      ∧ (∀ p e, s.Pends c p → decode c p.word = .error e →
          ∃ t, step s = .next t ∧ Failed c .illegalCommand (s.setAgenda rest) t)
      ∧ ((s.chan c).pending = none → step s = .next (s.setAgenda rest))

/-- 10_state.md R46, R45: every element after reset, for every algorithm code and maximum length; and `State.reset` is such
a state. -/
def Obligations.ResetValues : Prop :=
  ∀ (alg : Byte) (maxLen : Nat) (s : State), s = State.resetOf alg maxLen →
    s.algId = alg ∧ s.maxLen = maxLen ∧ s.key = Vector.replicate 32 0 ∧ s.keyValid = false
      ∧ s.keywin = Vector.replicate 32 0
      ∧ (∀ d, (s.codec d).buf = Vector.replicate 16 0 ∧ (s.codec d).blen = 0
          ∧ (s.codec d).fin = Vector.replicate 16 0 ∧ (s.codec d).fused = false
          ∧ (s.codec d).chain = Vector.replicate 16 0 ∧ (s.codec d).cmode = .cbc ∧ (s.codec d).pmode = .standard)
      ∧ (∀ c, (s.chan c).cmd = 0 ∧ statusWord s c = 0 ∧ intEnWord s c = 0 ∧ (s.chan c).len = 0
          ∧ (s.chan c).outLen = 0 ∧ (s.chan c).seq = Vector.replicate 6 0 ∧ (s.chan c).pending = none)
      ∧ (∀ a, s.mem.read a = 0) ∧ ctsStateWord s = 0 ∧ s.irq = false
      ∧ ∃ alg' maxLen', State.reset = State.resetOf alg' maxLen'

/-- 70_reset_and_hazards.md R200, R201: a reset puts every element of the block at its reset value, whatever was pending;
the construction parameters stay. The events to come and the count of draws, which are the model's own, stay too. -/
def Obligations.ResetEventResetsTheBlock : Prop :=
  ∀ (s : State) (rest : List Event), s.agenda = .reset :: rest →
    step s = .next (((State.resetOf s.algId s.maxLen).setDraws s.draws).setAgenda rest)

/-- The invariant holds after reset, for every legal `MAX_LEN` (00_scope.md R8). -/
def Obligations.ResetMeetsInv : Prop :=
  ∀ (alg : Byte) (maxLen : Nat), 1040 ≤ maxLen → maxLen ≤ 8176 → (State.resetOf alg maxLen).Inv

/-- Every step keeps the invariant: legal codec states (10_state.md R31, R32), the memory canonical and within the windows'
capacity (20_memory.md R55), a busy channel with neither `DONE` nor `ERR` (44_control.md R166), an error with no output
(60_exceptions.md R170), the key zero outside its length (10_state.md R23). -/
def Obligations.StepKeepsInv : Prop :=
  ∀ s t : State, s.Inv → step s = .next t → t.Inv

/-- 60_exceptions.md R181, 44_control.md R165: the block takes no traps and never stops; and a step changes neither the
algorithm nor the maximum length (10_state.md R27, R28). -/
def Obligations.StepNeverStops : Prop :=
  ∀ s : State, ∃ t, step s = .next t ∧ t.algId = s.algId ∧ t.maxLen = s.maxLen

/-- 70_reset_and_hazards.md R208: an accepted command completes after finitely many steps. With nothing more on the agenda,
which is how the model says that the host is silent (log 7), two steps are enough for both channels. -/
def Obligations.PendingCommandsComplete : Prop :=
  ∀ s : State, s.agenda = [] →
    ∃ t, Host.Core.run core 2 s = .next t ∧ ∀ c, (t.chan c).pending = none

/-! ### The step lemma of the buffer -/

/-- 42_cts_codec.md R103, one update of its induction (R102): a codec state that has taken the bytes `x` of a stream and
takes `inp` has taken `x ++ inp`, and has emitted what that update emits as well. -/
def Obligations.UpdateKeepsTheBufferRelation : Prop :=
  ∀ (K : KeyedCipher) (d : Chan) (s0 s : Codec) (x out inp : Bytes), Codec.HasTaken K d s0 x out s →
    Codec.HasTaken K d s0 (x ++ inp) (out ++ (ctsUpdate K d inp s).1) (ctsUpdate K d inp s).2
end

