-- ==== Sys2Proof/Laws/Memory.lean ====
section
/-!
SUPPORT. The laws of byte strings and of the byte memory: read after write, the canonical form and its uniqueness.
-/

namespace Sys2Proof.Machine

/-! ### `pack` -/

theorem pack_toList (n : Nat) (s : Bytes) : (pack n s).toList = (s ++ List.replicate n 0).take n := rfl

@[simp] theorem pack_toList_of_length {n : Nat} {s : Bytes} (h : s.length = n) : (pack n s).toList = s := by
  rw [pack_toList, ← h, List.take_left' rfl]

@[simp] theorem pack_toList_self {n : Nat} (v : Vector Byte n) : pack n v.toList = v := by
  apply Vector.toList_inj.mp
  exact pack_toList_of_length (Vector.length_toList)

theorem pack_injective {n : Nat} {s t : Bytes} (hs : s.length = n) (ht : t.length = n) (h : pack n s = pack n t) :
    s = t := by
  rw [← pack_toList_of_length hs, ← pack_toList_of_length ht, h]

theorem pack_append_zeros (n : Nat) (s : Bytes) (k : Nat) :
    pack n (s ++ zeros k) = pack n s := by
  apply Vector.toList_inj.mp
  rw [pack_toList, pack_toList, zeros, List.append_assoc, List.replicate_append_replicate]
  rw [List.take_append, List.take_append]
  congr 1
  rw [List.take_replicate, List.take_replicate]
  congr 1
  omega

theorem pack_take (n : Nat) (s : Bytes) : pack n (s.take n) = pack n s := by
  apply Vector.toList_inj.mp
  rw [pack_toList, pack_toList]
  rcases Nat.le_total n s.length with h | h
  · rw [List.take_append_of_le_length (by simpa using h), List.take_append_of_le_length h, List.take_take,
      Nat.min_self]
  · rw [List.take_of_length_le h]

@[simp] theorem length_zeros (n : Nat) : (zeros n).length = n := List.length_replicate

/-! ### Reading and writing -/

theorem Memory.wfFrom_mono {m : Memory} : ∀ {a b : Nat}, b ≤ a → Memory.wfFrom a m = true → Memory.wfFrom b m = true := by
  cases m with
  | nil => intros; rfl
  | cons x m =>
    intro a b hab h
    simp only [Memory.wfFrom, Bool.and_eq_true, decide_eq_true_eq] at h ⊢
    exact ⟨⟨by omega, h.1.2⟩, h.2⟩

theorem Memory.read_eq_zero_of_lt {m : Memory} : ∀ {a x : Nat}, Memory.wfFrom a m = true → x < a → m.read x = 0 := by
  induction m with
  | nil => intros; rfl
  | cons p m ih =>
    intro a x h hx
    obtain ⟨b, v⟩ := p
    simp only [Memory.wfFrom, Bool.and_eq_true, decide_eq_true_eq] at h
    rw [Memory.read, if_neg (by omega)]
    exact ih h.2 (by omega)

/-- What is in canonical form from `a` on is so after a write at or above `a`. -/
theorem Memory.wfFrom_write {m : Memory} : ∀ {a x : Nat} {v : Byte}, Memory.wfFrom a m = true → a ≤ x →
    Memory.wfFrom a (m.write x v) = true := by
  induction m with
  | nil =>
    intro a x v _ hx
    by_cases hv : v = 0#8 <;> simp [Memory.write, hv, Memory.wfFrom, hx]
  | cons p m ih =>
    intro a x v h hx
    obtain ⟨b, y⟩ := p
    simp only [Memory.wfFrom, Bool.and_eq_true, decide_eq_true_eq] at h
    simp only [Memory.write]
    split_ifs with h1 h2 h3 h4
    · simp only [Memory.wfFrom, Bool.and_eq_true, decide_eq_true_eq]
      exact h
    · simp only [Memory.wfFrom, Bool.and_eq_true, decide_eq_true_eq]
      exact ⟨⟨hx, bne_iff_ne.mpr h2⟩, ⟨by omega, h.1.2⟩, h.2⟩
    · exact Memory.wfFrom_mono (by omega) h.2
    · subst h3
      simp only [Memory.wfFrom, Bool.and_eq_true, decide_eq_true_eq]
      exact ⟨⟨hx, bne_iff_ne.mpr h4⟩, h.2⟩
    · simp only [Memory.wfFrom, Bool.and_eq_true, decide_eq_true_eq]
      exact ⟨h.1, ih h.2 (by omega)⟩

/-- Every write of a byte keeps the canonical form. -/
theorem Memory.wf_write {m : Memory} (a : Nat) (v : Byte) (h : m.wf = true) : (m.write a v).wf = true :=
  Memory.wfFrom_write h (Nat.zero_le a)

theorem Memory.read_write_from {m : Memory} : ∀ {a : Nat} (x : Nat) (v : Byte) (y : Nat), Memory.wfFrom a m = true →
    (m.write x v).read y = if y = x then v else m.read y := by
  induction m with
  | nil =>
    intro a x v y _
    by_cases hv : v = 0#8 <;> by_cases hy : y = x <;> simp [Memory.write, hv, hy, Memory.read]
  | cons p m ih =>
    intro a x v y h
    obtain ⟨b, w⟩ := p
    simp only [Memory.wfFrom, Bool.and_eq_true, decide_eq_true_eq] at h
    have hz : ∀ z, z ≤ b → Memory.read m z = 0 := fun z hz => Memory.read_eq_zero_of_lt h.2 (by omega)
    by_cases hxb : x < b
    · rw [Memory.write, if_pos hxb]
      by_cases hv : v = 0
      · rw [if_pos hv]
        by_cases hy : y = x
        · rw [if_pos hy, hy, Memory.read, if_neg (by omega), hz x (by omega), hv]
        · rw [if_neg hy]
      · rw [if_neg hv, Memory.read]
    · by_cases hxe : x = b
      · rw [Memory.write, if_neg hxb, if_pos hxe]
        by_cases hv : v = 0
        · rw [if_pos hv]
          by_cases hy : y = x
          · rw [if_pos hy, hv, hz y (by omega)]
          · rw [if_neg hy, Memory.read, if_neg (by omega)]
        · rw [if_neg hv, Memory.read]
          by_cases hy : y = x
          · rw [if_pos hy, if_pos hy]
          · rw [if_neg hy, if_neg hy, Memory.read, if_neg (by omega)]
      · rw [Memory.write, if_neg hxb, if_neg hxe, Memory.read, ih x v y h.2, Memory.read]
        by_cases hy : y = b
        · rw [if_pos hy, if_pos hy, if_neg (by omega)]
        · rw [if_neg hy, if_neg hy]

/-- A read after a write: the value written at its offset, and every other offset as before. -/
theorem Memory.read_write {m : Memory} (a : Nat) (v : Byte) (x : Nat) (h : m.wf = true) :
    (m.write a v).read x = if x = a then v else m.read x :=
  Memory.read_write_from a v x h

/-- Every write of a byte string keeps the canonical form. -/
theorem Memory.wf_writeBytes {m : Memory} (a : Nat) (s : Bytes) (h : m.wf = true) : (m.writeBytes a s).wf = true := by
  induction s generalizing m a with
  | nil => exact h
  | cons v s ih => exact ih _ (Memory.wf_write _ _ h)

/-- What a write of a byte string does, once and for all: the bytes written at their offsets, and every other offset as
before. -/
theorem Memory.read_writeBytes {m : Memory} (a : Nat) (s : Bytes) (x : Nat) (h : m.wf = true) :
    (m.writeBytes a s).read x = if a ≤ x ∧ x < a + s.length then s.getD (x - a) 0 else m.read x := by
  induction s generalizing m a with
  | nil =>
    rw [if_neg (by simp)]
    rfl
  | cons v s ih =>
    rw [Memory.writeBytes, ih _ (Memory.wf_write _ _ h), Memory.read_write _ _ _ h]
    by_cases h1 : x = a
    · subst h1
      simp
    · by_cases h2 : a + 1 ≤ x ∧ x < a + 1 + s.length
      · rw [if_pos h2, if_pos (by simp; omega)]
        obtain ⟨k, rfl⟩ : ∃ k, x = a + 1 + k := ⟨x - (a + 1), by omega⟩
        rw [show a + 1 + k - (a + 1) = k by omega, show a + 1 + k - a = k + 1 by omega]
        simp
      · rw [if_neg h2, if_neg h1, if_neg (by simp; omega)]

/-- Two memories in canonical form that read alike are equal. -/
theorem Memory.eq_of_read_eq_from {m n : Memory} : ∀ {a : Nat}, Memory.wfFrom a m = true → Memory.wfFrom a n = true →
    (∀ x, m.read x = n.read x) → m = n := by
  induction m generalizing n with
  | nil =>
    intro a _ hn h
    cases n with
    | nil => rfl
    | cons q n =>
      obtain ⟨b, v⟩ := q
      simp only [Memory.wfFrom, Bool.and_eq_true, decide_eq_true_eq] at hn
      have := h b
      simp [Memory.read] at this
      simp [← this] at hn
  | cons p m ih =>
    intro a hm hn h
    obtain ⟨b, v⟩ := p
    simp only [Memory.wfFrom, Bool.and_eq_true, decide_eq_true_eq] at hm
    cases n with
    | nil =>
      have := h b
      simp [Memory.read] at this
      simp [this] at hm
    | cons q n =>
      obtain ⟨c, w⟩ := q
      simp only [Memory.wfFrom, Bool.and_eq_true, decide_eq_true_eq] at hn
      have hbc : b = c := by
        rcases Nat.lt_trichotomy b c with hlt | heq | hgt
        · have e := h b
          rw [Memory.read, if_pos rfl, Memory.read, if_neg (by omega),
            Memory.read_eq_zero_of_lt hn.2 (by omega)] at e
          simp [e] at hm
        · exact heq
        · have e := h c
          rw [Memory.read, if_neg (by omega), Memory.read_eq_zero_of_lt hm.2 (by omega), Memory.read,
            if_pos rfl] at e
          simp [← e] at hn
      subst hbc
      have hvw : v = w := by
        have e := h b
        simpa [Memory.read] using e
      subst hvw
      congr 1
      refine ih hm.2 hn.2 fun x => ?_
      by_cases hx : x = b
      · subst hx
        rw [Memory.read_eq_zero_of_lt hm.2 (by omega), Memory.read_eq_zero_of_lt hn.2 (by omega)]
      · have e := h x
        rwa [Memory.read, if_neg hx, Memory.read, if_neg hx] at e

/-- The canonical form is unique: equal memories are equal data. -/
theorem Memory.eq_of_read_eq {m n : Memory} (hm : m.wf = true) (hn : n.wf = true) (h : ∀ x, m.read x = n.read x) :
    m = n :=
  Memory.eq_of_read_eq_from hm hn h

@[simp] theorem Memory.length_readBytes (m : Memory) (a n : Nat) : (m.readBytes a n).length = n := by
  induction n generalizing a with
  | zero => rfl
  | succ n ih => simp [Memory.readBytes, ih]

theorem Memory.getD_readBytes (m : Memory) (a n i : Nat) (h : i < n) :
    (m.readBytes a n).getD i 0 = m.read (a + i) := by
  induction n generalizing a i with
  | zero => omega
  | succ n ih =>
    cases i with
    | zero => simp [Memory.readBytes]
    | succ i =>
      rw [Memory.readBytes, List.getD_cons_succ, ih _ _ (by omega)]
      congr 1
      omega

end Sys2Proof.Machine
end

