-- ==== Sys2Proof/Laws/Blocks.lean ====
section
/-!
SUPPORT. The laws of blocks and of strings of blocks: bytes of packed, spliced and combined blocks, and how a string is cut
into blocks.
-/

namespace Sys2Proof.Machine

/-! ### Bytes of a block -/

theorem getD_pack {n : Nat} (s : Bytes) (i : Nat) (h : i < n) : (pack n s).toList.getD i 0 = s.getD i 0 := by
  rw [pack_toList, List.getD_eq_getElem?_getD, List.getD_eq_getElem?_getD, List.getElem?_take, if_pos h,
    List.getElem?_append]
  split_ifs with h1
  · rfl
  · rw [List.getElem?_replicate, if_pos (by omega), List.getElem?_eq_none (by omega)]
    rfl

/-- Two fields are equal when their bytes are. -/
theorem vector_ext_getD {n : Nat} {v w : Vector Byte n} (h : ∀ i, i < n → v.toList.getD i 0 = w.toList.getD i 0) :
    v = w := by
  apply Vector.toList_inj.mp
  apply List.ext_getElem?
  intro i
  by_cases hi : i < n
  · have := h i hi
    rw [List.getD_eq_getElem _ _ (by simpa using hi), List.getD_eq_getElem _ _ (by simpa using hi)] at this
    rw [List.getElem?_eq_getElem (by simpa using hi), List.getElem?_eq_getElem (by simpa using hi), this]
  · rw [List.getElem?_eq_none (by simpa using hi), List.getElem?_eq_none (by simpa using hi)]

/-- Two strings of one length are equal when their bytes are. -/
theorem bytes_ext_getD {s t : Bytes} (hl : s.length = t.length) (h : ∀ i, i < s.length → s.getD i 0 = t.getD i 0) :
    s = t := by
  apply List.ext_getElem hl
  intro i h1 h2
  have := h i h1
  rwa [List.getD_eq_getElem _ _ h1, List.getD_eq_getElem _ _ h2] at this

theorem getD_append (s t : Bytes) (i : Nat) :
    (s ++ t).getD i 0 = if i < s.length then s.getD i 0 else t.getD (i - s.length) 0 := by
  split_ifs with h
  · exact List.getD_append _ _ _ _ h
  · exact List.getD_append_right _ _ _ _ (by omega)

theorem getD_take (s : Bytes) (n i : Nat) : (s.take n).getD i 0 = if i < n then s.getD i 0 else 0 := by
  rw [List.getD_eq_getElem?_getD, List.getD_eq_getElem?_getD, List.getElem?_take]
  split_ifs <;> rfl

theorem getD_drop (s : Bytes) (n i : Nat) : (s.drop n).getD i 0 = s.getD (n + i) 0 := by
  rw [List.getD_eq_getElem?_getD, List.getD_eq_getElem?_getD, List.getElem?_drop]

theorem getD_zeros (n i : Nat) : (zeros n).getD i 0 = 0 := by
  rw [zeros, List.getD_eq_getElem?_getD, List.getElem?_replicate]
  split_ifs <;> rfl

theorem getD_of_length_le (s : Bytes) (i : Nat) (h : s.length ≤ i) : s.getD i 0 = 0 := by
  rw [List.getD_eq_getElem?_getD, List.getElem?_eq_none h]
  rfl

theorem getD_xorBlock (a b : Block) (i : Nat) :
    (xorBlock a b).toList.getD i 0 = a.toList.getD i 0 ^^^ b.toList.getD i 0 := by
  by_cases hi : i < 16
  · rw [xorBlock, getD_pack _ _ hi]
    rw [List.getD_eq_getElem _ _ (by simpa using hi), List.getD_eq_getElem _ _ (by simpa using hi),
      List.getD_eq_getElem _ _ (by simpa using hi), List.getElem_zipWith]
  · rw [getD_of_length_le _ _ (by simpa using hi), getD_of_length_le _ _ (by simpa using hi),
      getD_of_length_le _ _ (by simpa using hi)]
    rfl

theorem xorBlock_comm (a b : Block) : xorBlock a b = xorBlock b a :=
  vector_ext_getD fun i _ => by rw [getD_xorBlock, getD_xorBlock, BitVec.xor_comm]

theorem xorBlock_assoc (a b c : Block) : xorBlock (xorBlock a b) c = xorBlock a (xorBlock b c) :=
  vector_ext_getD fun i _ => by simp only [getD_xorBlock, BitVec.xor_assoc]

/-- Combining with one block twice changes nothing. -/
@[simp] theorem xorBlock_cancel (a b : Block) : xorBlock (xorBlock a b) b = a :=
  vector_ext_getD fun i _ => by rw [getD_xorBlock, getD_xorBlock, BitVec.xor_assoc, BitVec.xor_self, BitVec.xor_zero]

/-- What a splice does, once: the bytes of the string from `i` on, and the other bytes as before. -/
theorem getD_splice (v : Block) (i : Nat) (s : Bytes) (j : Nat) (h : i + s.length ≤ 16) (hj : j < 16) :
    (splice v i s).toList.getD j 0 = if i ≤ j ∧ j < i + s.length then s.getD (j - i) 0 else v.toList.getD j 0 := by
  have hl : (v.toList.take i).length = i := by simp; omega
  rw [splice, getD_pack _ _ hj, getD_append, getD_append, getD_take, getD_drop, List.length_append, hl]
  split_ifs <;> first | rfl | omega | (congr 1; omega)

/-- A splice of a string that ends at or before `n`, read up to `n`. -/
theorem take_splice (v : Block) (i : Nat) (s : Bytes) (h : i + s.length ≤ 16) :
    (splice v i s).toList.take (i + s.length) = v.toList.take i ++ s := by
  rw [splice, pack_toList, List.take_take, Nat.min_eq_left h, List.append_assoc (_ ++ s), List.take_left']
  simp
  omega

/-- A splice that fills the block. -/
theorem splice_full (v : Block) (i : Nat) (s : Bytes) (h : i + s.length = 16) :
    splice v i s = pack 16 (v.toList.take i ++ s) := by
  rw [splice, List.drop_eq_nil_of_le (by simp; omega), List.append_nil]

/-! ### Strings of blocks -/

@[simp] theorem length_takeBlocks (n : Nat) (s : Bytes) : (takeBlocks n s).length = n := by
  induction n generalizing s with
  | zero => rfl
  | succ n ih => simp [takeBlocks, ih]

@[simp] theorem length_blocks (s : Bytes) : (blocks s).length = s.length / 16 := length_takeBlocks _ _

@[simp] theorem blocks_nil : blocks [] = [] := rfl

/-- A string that begins with one whole block. -/
theorem blocks_append_of_length (a s : Bytes) (h : a.length = 16) : blocks (a ++ s) = pack 16 a :: blocks s := by
  rw [blocks, show (a ++ s).length / 16 = s.length / 16 + 1 by simp [h], takeBlocks, List.take_left' h,
    List.drop_left' h]
  rfl

theorem blocks_toList (b : Block) : blocks b.toList = [b] := by
  have := blocks_append_of_length b.toList [] (by simp)
  simpa using this

theorem blocks_cons_toList (b : Block) (s : Bytes) : blocks (b.toList ++ s) = b :: blocks s := by
  rw [blocks_append_of_length _ _ (by simp), pack_toList_self]

theorem blocks_append (s t : Bytes) (h : s.length % 16 = 0) : blocks (s ++ t) = blocks s ++ blocks t := by
  obtain ⟨n, hn⟩ : ∃ n, s.length = 16 * n := ⟨s.length / 16, by omega⟩
  induction n generalizing s with
  | zero =>
    have : s = [] := List.length_eq_zero_iff.mp (by omega)
    simp [this]
  | succ n ih =>
    have hs : blocks s = pack 16 (s.take 16) :: blocks (s.drop 16) := by
      rw [← blocks_append_of_length _ _ (by simp; omega), List.take_append_drop]
    rw [hs, List.cons_append, ← ih _ (by simp; omega) (by simp; omega),
      ← blocks_append_of_length _ _ (by simp; omega), ← List.append_assoc, List.take_append_drop]

/-- The bytes of a list of blocks. -/
theorem blocks_flatMap (l : List Block) : blocks (l.flatMap Vector.toList) = l := by
  induction l with
  | nil => rfl
  | cons b l ih => rw [List.flatMap_cons, blocks_cons_toList, ih]

theorem flatMap_blocks (s : Bytes) (h : s.length % 16 = 0) : (blocks s).flatMap Vector.toList = s := by
  obtain ⟨n, hn⟩ : ∃ n, s.length = 16 * n := ⟨s.length / 16, by omega⟩
  induction n generalizing s with
  | zero =>
    have : s = [] := List.length_eq_zero_iff.mp (by omega)
    simp [this]
  | succ n ih =>
    have hs : blocks s = pack 16 (s.take 16) :: blocks (s.drop 16) := by
      rw [← blocks_append_of_length _ _ (by simp; omega), List.take_append_drop]
    rw [hs, List.flatMap_cons, ih _ (by simp; omega) (by simp; omega), pack_toList_of_length (by simp; omega),
      List.take_append_drop]

/-! ### `blockAt` and `lastBlock` -/

theorem blockAt_append_left (s t : Bytes) (i : Nat) (h : 16 * (i + 1) ≤ s.length) :
    blockAt (s ++ t) i = blockAt s i := by
  rw [blockAt, blockAt, List.drop_append_of_le_length (by omega), List.take_append_of_le_length (by simp; omega)]

theorem blockAt_append_right (s t : Bytes) (i k : Nat) (h : s.length = 16 * k) :
    blockAt (s ++ t) (k + i) = blockAt t i := by
  rw [blockAt, blockAt, List.drop_append, List.drop_eq_nil_of_le (by omega), List.nil_append]
  congr 3
  omega

@[simp] theorem blockAt_toList_append_zero (b : Block) (s : Bytes) : blockAt (b.toList ++ s) 0 = b := by
  rw [blockAt, Nat.mul_zero, List.drop_zero, List.take_left' (by simp), pack_toList_self]

theorem blockAt_toList_append_succ (b : Block) (s : Bytes) (i : Nat) : blockAt (b.toList ++ s) (i + 1) = blockAt s i := by
  rw [Nat.add_comm, blockAt_append_right _ _ i 1 (by simp)]

theorem lastBlock_of_lt (iv : Block) (s : Bytes) (h : s.length < 16) : lastBlock iv s = iv := if_pos h

@[simp] theorem lastBlock_nil (iv : Block) : lastBlock iv [] = iv := rfl

/-- The chaining value after one more leading block. -/
theorem lastBlock_toList_append (iv b : Block) (s : Bytes) : lastBlock iv (b.toList ++ s) = lastBlock b s := by
  have hl : (b.toList ++ s).length = s.length + 16 := by simp; omega
  rw [lastBlock, if_neg (by omega), lastBlock, hl]
  split_ifs with h
  · rw [show (s.length + 16) / 16 - 1 = 0 by omega, blockAt_toList_append_zero]
  · rw [show (s.length + 16) / 16 - 1 = (s.length / 16 - 1) + 1 by omega, blockAt_toList_append_succ]

/-- The chaining value after one more block at the end. -/
theorem lastBlock_append_toList (iv b : Block) (s : Bytes) (h : s.length % 16 = 0) :
    lastBlock iv (s ++ b.toList) = b := by
  obtain ⟨k, hk⟩ : ∃ k, s.length = 16 * k := ⟨s.length / 16, by omega⟩
  have hl : (s ++ b.toList).length = 16 * k + 16 := by simp; omega
  rw [lastBlock, if_neg (by omega), hl, show (16 * k + 16) / 16 - 1 = k + 0 by omega, blockAt_append_right _ _ _ _ hk]
  have := blockAt_toList_append_zero b []
  simpa using this

end Sys2Proof.Machine
end

