-- ==== Sys2Proof/Laws/Codec.lean ====
section
/-!
SUPPORT. What each operation of the CTS codec does, said once: the transformation of blocks and strings of blocks, an
update, and the final.
-/

namespace Sys2Proof.Machine

variable (K : KeyedCipher) (d : Chan)

/-! ### `xf` -/

@[simp] theorem xf_enc_cbc (x : Block) (s : Codec) (h : s.cmode = .cbc) :
    xf K .enc x s = (K.e (xorBlock x s.chain), { s with chain := K.e (xorBlock x s.chain) }) := by
  simp [xf, h]

@[simp] theorem xf_dec_cbc (x : Block) (s : Codec) (h : s.cmode = .cbc) :
    xf K .dec x s = (xorBlock (K.d x) s.chain, { s with chain := x }) := by
  simp [xf, h]

@[simp] theorem xf_enc_ecb (x : Block) (s : Codec) (h : s.cmode = .ecb) : xf K .enc x s = (K.e x, s) := by
  simp [xf, h]

@[simp] theorem xf_dec_ecb (x : Block) (s : Codec) (h : s.cmode = .ecb) : xf K .dec x s = (K.d x, s) := by
  simp [xf, h]

/-- A block transformation changes the chaining value alone. -/
theorem xf_codec (x : Block) (s : Codec) : (xf K d x s).2 = { s with chain := (xf K d x s).2.chain } := by
  unfold xf
  split_ifs <;> cases d <;> rfl

/-- A block transformation depends on the mode and the chaining value alone. -/
theorem xf_congr (x : Block) {s u : Codec} (hm : u.cmode = s.cmode) (hc : u.chain = s.chain) :
    (xf K d x u).1 = (xf K d x s).1 ∧ (xf K d x u).2.chain = (xf K d x s).2.chain := by
  unfold xf
  rw [hm]
  split_ifs <;> cases d <;> simp [hc]

/-! ### `xs` -/

@[simp] theorem length_xsBlocks (l : List Block) (s : Codec) : (xsBlocks K d l s).1.length = 16 * l.length := by
  induction l generalizing s with
  | nil => rfl
  | cons x l ih => simp [xsBlocks, ih, Nat.mul_add, Nat.add_comm]

theorem xsBlocks_codec (l : List Block) (s : Codec) :
    (xsBlocks K d l s).2 = { s with chain := (xsBlocks K d l s).2.chain } := by
  induction l generalizing s with
  | nil => rfl
  | cons x l ih => rw [xsBlocks, ih, xf_codec]

theorem xsBlocks_congr (l : List Block) {s u : Codec} (hm : u.cmode = s.cmode) (hc : u.chain = s.chain) :
    (xsBlocks K d l u).1 = (xsBlocks K d l s).1 ∧ (xsBlocks K d l u).2.chain = (xsBlocks K d l s).2.chain := by
  induction l generalizing s u with
  | nil => exact ⟨rfl, hc⟩
  | cons x l ih =>
    obtain ⟨h1, h2⟩ := xf_congr K d x hm hc
    have hm' : (xf K d x u).2.cmode = (xf K d x s).2.cmode := by rw [xf_codec, xf_codec K d x s, hm]
    obtain ⟨h3, h4⟩ := ih hm' h2
    exact ⟨by simp only [xsBlocks, h1, h3], h4⟩

theorem xsBlocks_append (l m : List Block) (s : Codec) :
    xsBlocks K d (l ++ m) s
      = ((xsBlocks K d l s).1 ++ (xsBlocks K d m (xsBlocks K d l s).2).1, (xsBlocks K d m (xsBlocks K d l s).2).2) := by
  induction l generalizing s with
  | nil => rfl
  | cons x l ih => simp [xsBlocks, ih]

theorem length_xs (bytes : Bytes) (s : Codec) : (xs K d bytes s).1.length = 16 * (bytes.length / 16) := by
  simp [xs]

theorem length_xs_of_aligned {bytes : Bytes} (s : Codec) (h : bytes.length % 16 = 0) :
    (xs K d bytes s).1.length = bytes.length := by
  rw [length_xs]
  omega

/-- The transformation of a string changes the chaining value alone. -/
theorem xs_codec (bytes : Bytes) (s : Codec) : (xs K d bytes s).2 = { s with chain := (xs K d bytes s).2.chain } :=
  xsBlocks_codec K d _ s

/-- The transformation of a string depends on the mode and the chaining value alone. -/
theorem xs_congr (bytes : Bytes) {s u : Codec} (hm : u.cmode = s.cmode) (hc : u.chain = s.chain) :
    (xs K d bytes u).1 = (xs K d bytes s).1 ∧ (xs K d bytes u).2.chain = (xs K d bytes s).2.chain :=
  xsBlocks_congr K d _ hm hc

@[simp] theorem xs_nil (s : Codec) : xs K d [] s = ([], s) := rfl

@[simp] theorem xs_toList (b : Block) (s : Codec) : xs K d b.toList s = ((xf K d b s).1.toList, (xf K d b s).2) := by
  rw [xs, blocks_toList, xsBlocks, xsBlocks, List.append_nil]

/-- A string is transformed piece by piece. -/
theorem xs_append {a : Bytes} (b : Bytes) (s : Codec) (h : a.length % 16 = 0) :
    xs K d (a ++ b) s = ((xs K d a s).1 ++ (xs K d b (xs K d a s).2).1, (xs K d b (xs K d a s).2).2) := by
  rw [xs, blocks_append _ _ h, xsBlocks_append]
  rfl

/-! ### An update -/

theorem tailLength_of_le {n : Nat} (h1 : 16 < n) (h2 : n ≤ 32) : tailLength n = n - 16 := by
  unfold tailLength
  omega

theorem tailLength_of_gt {n : Nat} (h : 32 < n) :
    tailLength n = if (n - 16) % 16 = 0 then 16 else (n - 16) % 16 := by
  unfold tailLength
  split_ifs <;> omega

theorem tailLength_pos (n : Nat) : 1 ≤ tailLength n := by
  unfold tailLength
  omega

theorem tailLength_le (n : Nat) : tailLength n ≤ 16 := by
  unfold tailLength
  omega

/-- All but the held bytes of a stream are whole blocks. -/
theorem tailLength_spec {n : Nat} (h : 16 < n) :
    tailLength n + 16 ≤ n ∧ (n - tailLength n - 16) % 16 = 0 := by
  unfold tailLength
  omega

/-- What is transformed and emitted by an update that overflows the buffer: the pending-final block, if there is one, and
of the string `y` all but the held bytes. -/
def emittedBy (s : Codec) (y : Bytes) : Bytes :=
  (if s.fused = true then s.fin.toList else []) ++ y.take (y.length - tailLength y.length - 16)

theorem length_emittedBy (s : Codec) (y : Bytes) :
    (emittedBy s y).length = (if s.fused = true then 16 else 0) + (y.length - tailLength y.length - 16) := by
  unfold emittedBy
  rw [List.length_append, List.length_take]
  split_ifs <;> simp <;> omega

theorem length_emittedBy_mod (s : Codec) {y : Bytes} (h : 16 < y.length) : (emittedBy s y).length % 16 = 0 := by
  have := (tailLength_spec h).2
  rw [length_emittedBy s y]
  split_ifs <;> omega

/-- The pending-final block is transformed as a string of one block or none. -/
theorem emitPending_eq (s : Codec) :
    emitPending K d s = ((xs K d (if s.fused = true then s.fin.toList else []) s).1,
      { (xs K d (if s.fused = true then s.fin.toList else []) s).2 with fused := false }) := by
  unfold emitPending
  split_ifs with h
  · simp
  · cases s
    simp_all

/-- An update that stays within the buffer. -/
theorem ctsUpdate_within {inp : Bytes} {s : Codec} (h : s.blen + inp.length ≤ 16) :
    ctsUpdate K d inp s = ([], { s with buf := splice s.buf s.blen inp, blen := s.blen + inp.length }) := by
  rw [ctsUpdate]
  simp only [if_pos h]

/-- An update that overflows the buffer, whatever its length: with `y` the buffered bytes and the input after them, the
last `tailLength` bytes are buffered, the block before them is pending, and all before that is transformed and emitted. -/
theorem ctsUpdate_beyond {inp y : Bytes} {s : Codec} (hb : s.blen ≤ 16) (h : 16 < s.blen + inp.length)
    (hy : y = s.buf.toList.take s.blen ++ inp) :
    ∃ buf : Block, buf.toList.take (tailLength y.length) = y.drop (y.length - tailLength y.length)
      ∧ ctsUpdate K d inp s = ((xs K d (emittedBy s y) s).1,
        { s with
          buf := buf, blen := tailLength y.length, fused := true
          fin := pack 16 ((y.drop (y.length - tailLength y.length - 16)).take 16)
          chain := (xs K d (emittedBy s y) s).2.chain }) := by
  have hyl : y.length = s.blen + inp.length := by rw [hy]; simp; omega
  have hspec := tailLength_spec (n := y.length) (by omega)
  have hpos := tailLength_pos y.length
  have hle := tailLength_le y.length
  have hkl : (inp.take (16 - s.blen)).length = 16 - s.blen := by simp; omega
  have hfull : splice s.buf s.blen (inp.take (16 - s.blen)) = pack 16 (y.take 16) := by
    rw [splice_full _ _ _ (by omega), hy, List.take_append, List.take_take]
    simp [hb]
  have hrest : inp.drop (16 - s.blen) = y.drop 16 := by
    have hl : (s.buf.toList.take s.blen).length = s.blen := by simp [hb]
    rw [hy, List.drop_append, hl, List.drop_eq_nil_of_le (as := s.buf.toList.take s.blen) (by omega), List.nil_append]
  have hr : inp.length - (16 - s.blen) = y.length - 16 := by omega
  have hfl : (if s.fused = true then s.fin.toList else []).length % 16 = 0 := by split_ifs <;> simp
  rw [ctsUpdate]
  simp only [if_neg (show ¬s.blen + inp.length ≤ 16 by omega), hfull, hrest, hr, emitPending_eq]
  by_cases hlong : y.length - 16 ≤ 16
  · have ht : tailLength y.length = y.length - 16 := tailLength_of_le (by omega) (by omega)
    simp only [if_pos hlong, ht, show y.length - (y.length - 16) = 16 by omega, Nat.sub_self, List.drop_zero,
      emittedBy, List.take_zero, List.append_nil]
    refine ⟨splice (pack 16 (y.take 16)) 0 (y.drop 16), ?_, ?_⟩
    · have := take_splice (pack 16 (y.take 16)) 0 (y.drop 16) (by simp; omega)
      simpa using this
    · rw [xs_codec]
  · have ht : (if (y.length - 16) % 16 = 0 then 16 else (y.length - 16) % 16) = tailLength y.length :=
      (tailLength_of_gt (by omega)).symm
    have hm : y.length - 16 - tailLength y.length - 16 = y.length - tailLength y.length - 32 := by omega
    have hpre : y.take (y.length - tailLength y.length - 16)
        = y.take 16 ++ (y.drop 16).take (y.length - tailLength y.length - 32) := by
      rw [← List.take_add]
      congr 1
      omega
    have hxf : ∀ u : Codec, xs K d (y.take 16) u = ((xf K d (pack 16 (y.take 16)) u).1.toList,
        (xf K d (pack 16 (y.take 16)) u).2) := by
      intro u
      have := xs_toList K d (pack 16 (y.take 16)) u
      rwa [pack_toList_of_length (by simp; omega)] at this
    simp only [if_neg hlong, ht, hm, List.drop_drop]
    refine ⟨splice (pack 16 (y.take 16)) 0 (y.drop (16 + (y.length - tailLength y.length - 32 + 16))), ?_, ?_⟩
    · have := take_splice (pack 16 (y.take 16)) 0 (y.drop (16 + (y.length - tailLength y.length - 32 + 16)))
        (by simp; omega)
      rw [show 16 + (y.length - tailLength y.length - 32 + 16) = y.length - tailLength y.length by omega] at this ⊢
      simpa [show y.length - (y.length - tailLength y.length) = tailLength y.length by omega] using this
    · obtain ⟨p, hp⟩ : ∃ p, p = xs K d (if s.fused = true then s.fin.toList else []) s := ⟨_, rfl⟩
      have hpc : p.2 = { s with chain := p.2.chain } := by rw [hp]; exact xs_codec _ _ _ _
      rw [← hp]
      obtain ⟨q, hq⟩ : ∃ q, q = xf K d (pack 16 (y.take 16)) p.2 := ⟨_, rfl⟩
      have hqc : q.2 = { p.2 with chain := q.2.chain } := by rw [hq]; exact xf_codec _ _ _ _
      obtain ⟨q', hq'⟩ : ∃ q', q' = xf K d (pack 16 (y.take 16)) { p.2 with fused := false } := ⟨_, rfl⟩
      have hqq : q'.1 = q.1 ∧ q'.2.chain = q.2.chain := by rw [hq, hq']; exact xf_congr _ _ _ rfl rfl
      have hqc' : q'.2 = { p.2 with fused := false, chain := q'.2.chain } := by rw [hq']; exact xf_codec _ _ _ _
      rw [← hq']
      obtain ⟨r, hr'⟩ : ∃ r, r = xs K d ((y.drop 16).take (y.length - tailLength y.length - 32)) q.2 := ⟨_, rfl⟩
      obtain ⟨r', hr''⟩ : ∃ r', r' = xs K d ((y.drop 16).take (y.length - tailLength y.length - 32)) q'.2 := ⟨_, rfl⟩
      have hrr : r'.1 = r.1 ∧ r'.2.chain = r.2.chain := by
        rw [hr', hr'']
        exact xs_congr _ _ _ (by rw [hqc, hqc']) hqq.2
      have hrc' : r'.2 = { q'.2 with chain := r'.2.chain } := by rw [hr'']; exact xs_codec _ _ _ _
      have hall : xs K d (emittedBy s y) s = (p.1 ++ q.1.toList ++ r.1, r.2) := by
        rw [emittedBy, hpre, xs_append _ _ _ _ hfl, ← hp, xs_append _ _ _ _ (by simp; omega), hxf, ← hq, ← hr',
          List.append_assoc]
      rw [← hr'', hall, hrc', hqc', hpc, hrr.1, hrr.2, hqq.1,
        show 16 + (y.length - tailLength y.length - 32) = y.length - tailLength y.length - 16 by omega,
        show y.length - tailLength y.length - 32 + 16 = y.length - tailLength y.length - 16 by omega]

/-! ### The final -/

/-- The final of a stream with a pending-final block and a short piece. -/
theorem ctsFinal_of_held {s : Codec} (h1 : s.fused = true) (h2 : s.blen ≠ 0) :
    ctsFinal K d s = .ok ((finalStep K d s).1, { (finalStep K d s).2 with blen := 0, fused := false }) := by
  rw [ctsFinal, if_neg (by simp [h1, h2])]

/-- The final of a stream that holds nothing back. -/
theorem ctsFinal_of_not_held {s : Codec} (h : s.fused = false ∨ s.blen = 0) :
    ctsFinal K d s = .error .missingState := if_pos h

/-- The final step changes the buffer and the chaining value alone. -/
theorem finalStep_codec (s : Codec) :
    (finalStep K d s).2 = { s with buf := (finalStep K d s).2.buf, chain := (finalStep K d s).2.chain } := by
  unfold finalStep finalEncEcb finalEncCbc finalDecEcb finalDecCbc
  cases d <;> simp only <;> split_ifs <;> rfl

/-- The final step gives a block and the short piece. -/
theorem length_finalStep {s : Codec} (h : s.blen ≤ 16) : (finalStep K d s).1.length = 16 + s.blen := by
  unfold finalStep finalEncEcb finalEncCbc finalDecEcb finalDecCbc
  cases d <;> simp only <;> split_ifs <;> simp [h]

end Sys2Proof.Machine
end

