-- ==== Sys2Proof/Laws/State.lean ====
section
/-!
SUPPORT. The small lemmas of the state's updates: for each update, what every field reads afterwards. With them no later
proof unfolds an update of the state.
-/

namespace Sys2Proof.Machine

variable (s : State)

/-! ### `State.setChan` -/

@[simp] theorem algId_setChan (c : Chan) (x : Channel) : (s.setChan c x).algId = s.algId := by cases c <;> rfl
@[simp] theorem maxLen_setChan (c : Chan) (x : Channel) : (s.setChan c x).maxLen = s.maxLen := by cases c <;> rfl
@[simp] theorem key_setChan (c : Chan) (x : Channel) : (s.setChan c x).key = s.key := by cases c <;> rfl
@[simp] theorem keyValid_setChan (c : Chan) (x : Channel) : (s.setChan c x).keyValid = s.keyValid := by cases c <;> rfl
@[simp] theorem keywin_setChan (c : Chan) (x : Channel) : (s.setChan c x).keywin = s.keywin := by cases c <;> rfl
@[simp] theorem mem_setChan (c : Chan) (x : Channel) : (s.setChan c x).mem = s.mem := by cases c <;> rfl
@[simp] theorem bus_setChan (c : Chan) (x : Channel) : (s.setChan c x).bus = s.bus := by cases c <;> rfl
@[simp] theorem draws_setChan (c : Chan) (x : Channel) : (s.setChan c x).draws = s.draws := by cases c <;> rfl
@[simp] theorem agenda_setChan (c : Chan) (x : Channel) : (s.setChan c x).agenda = s.agenda := by cases c <;> rfl
@[simp] theorem chan_setChan (c : Chan) (x : Channel) : (s.setChan c x).chan c = x := by cases c <;> rfl
@[simp] theorem chan_setChan_of_ne (c : Chan) (x : Channel) (e : Chan) (h : e ≠ c) : (s.setChan c x).chan e = s.chan e := by
  cases c <;> cases e <;> first | rfl | exact absurd rfl h
@[simp] theorem codec_setChan (c : Chan) (x : Channel) (e : Chan) : (s.setChan c x).codec e = s.codec e := by
  cases c <;> cases e <;> rfl
@[simp] theorem cipher_setChan (c : Chan) (x : Channel) : (s.setChan c x).cipher = s.cipher := by cases c <;> rfl

/-! ### `State.setCodec` -/

@[simp] theorem algId_setCodec (d : Chan) (x : Codec) : (s.setCodec d x).algId = s.algId := by cases d <;> rfl
@[simp] theorem maxLen_setCodec (d : Chan) (x : Codec) : (s.setCodec d x).maxLen = s.maxLen := by cases d <;> rfl
@[simp] theorem key_setCodec (d : Chan) (x : Codec) : (s.setCodec d x).key = s.key := by cases d <;> rfl
@[simp] theorem keyValid_setCodec (d : Chan) (x : Codec) : (s.setCodec d x).keyValid = s.keyValid := by cases d <;> rfl
@[simp] theorem keywin_setCodec (d : Chan) (x : Codec) : (s.setCodec d x).keywin = s.keywin := by cases d <;> rfl
@[simp] theorem mem_setCodec (d : Chan) (x : Codec) : (s.setCodec d x).mem = s.mem := by cases d <;> rfl
@[simp] theorem bus_setCodec (d : Chan) (x : Codec) : (s.setCodec d x).bus = s.bus := by cases d <;> rfl
@[simp] theorem draws_setCodec (d : Chan) (x : Codec) : (s.setCodec d x).draws = s.draws := by cases d <;> rfl
@[simp] theorem agenda_setCodec (d : Chan) (x : Codec) : (s.setCodec d x).agenda = s.agenda := by cases d <;> rfl
@[simp] theorem codec_setCodec (d : Chan) (x : Codec) : (s.setCodec d x).codec d = x := by cases d <;> rfl
@[simp] theorem codec_setCodec_of_ne (d : Chan) (x : Codec) (e : Chan) (h : e ≠ d) : (s.setCodec d x).codec e = s.codec e := by
  cases d <;> cases e <;> first | rfl | exact absurd rfl h
@[simp] theorem chan_setCodec (d : Chan) (x : Codec) (e : Chan) : (s.setCodec d x).chan e = s.chan e := by
  cases d <;> cases e <;> rfl
@[simp] theorem cipher_setCodec (d : Chan) (x : Codec) : (s.setCodec d x).cipher = s.cipher := by cases d <;> rfl

/-! ### `State.setMem` -/

@[simp] theorem algId_setMem (m : Memory) : (s.setMem m).algId = s.algId := rfl
@[simp] theorem maxLen_setMem (m : Memory) : (s.setMem m).maxLen = s.maxLen := rfl
@[simp] theorem key_setMem (m : Memory) : (s.setMem m).key = s.key := rfl
@[simp] theorem keyValid_setMem (m : Memory) : (s.setMem m).keyValid = s.keyValid := rfl
@[simp] theorem keywin_setMem (m : Memory) : (s.setMem m).keywin = s.keywin := rfl
@[simp] theorem mem_setMem (m : Memory) : (s.setMem m).mem = m := rfl
@[simp] theorem bus_setMem (m : Memory) : (s.setMem m).bus = s.bus := rfl
@[simp] theorem draws_setMem (m : Memory) : (s.setMem m).draws = s.draws := rfl
@[simp] theorem agenda_setMem (m : Memory) : (s.setMem m).agenda = s.agenda := rfl
@[simp] theorem chan_setMem (m : Memory) (e : Chan) : (s.setMem m).chan e = s.chan e := by cases e <;> rfl
@[simp] theorem codec_setMem (m : Memory) (e : Chan) : (s.setMem m).codec e = s.codec e := by cases e <;> rfl
@[simp] theorem cipher_setMem (m : Memory) : (s.setMem m).cipher = s.cipher := rfl

/-! ### `State.setKeywin` -/

@[simp] theorem algId_setKeywin (w : Vector Byte 32) : (s.setKeywin w).algId = s.algId := rfl
@[simp] theorem maxLen_setKeywin (w : Vector Byte 32) : (s.setKeywin w).maxLen = s.maxLen := rfl
@[simp] theorem key_setKeywin (w : Vector Byte 32) : (s.setKeywin w).key = s.key := rfl
@[simp] theorem keyValid_setKeywin (w : Vector Byte 32) : (s.setKeywin w).keyValid = s.keyValid := rfl
@[simp] theorem keywin_setKeywin (w : Vector Byte 32) : (s.setKeywin w).keywin = w := rfl
@[simp] theorem mem_setKeywin (w : Vector Byte 32) : (s.setKeywin w).mem = s.mem := rfl
@[simp] theorem bus_setKeywin (w : Vector Byte 32) : (s.setKeywin w).bus = s.bus := rfl
@[simp] theorem draws_setKeywin (w : Vector Byte 32) : (s.setKeywin w).draws = s.draws := rfl
@[simp] theorem agenda_setKeywin (w : Vector Byte 32) : (s.setKeywin w).agenda = s.agenda := rfl
@[simp] theorem chan_setKeywin (w : Vector Byte 32) (e : Chan) : (s.setKeywin w).chan e = s.chan e := by cases e <;> rfl
@[simp] theorem codec_setKeywin (w : Vector Byte 32) (e : Chan) : (s.setKeywin w).codec e = s.codec e := by cases e <;> rfl
@[simp] theorem cipher_setKeywin (w : Vector Byte 32) : (s.setKeywin w).cipher = s.cipher := rfl

/-! ### `State.setKey` -/

@[simp] theorem algId_setKey (k : Vector Byte 32) (v : Bool) : (s.setKey k v).algId = s.algId := rfl
@[simp] theorem maxLen_setKey (k : Vector Byte 32) (v : Bool) : (s.setKey k v).maxLen = s.maxLen := rfl
@[simp] theorem key_setKey (k : Vector Byte 32) (v : Bool) : (s.setKey k v).key = k := rfl
@[simp] theorem keyValid_setKey (k : Vector Byte 32) (v : Bool) : (s.setKey k v).keyValid = v := rfl
@[simp] theorem keywin_setKey (k : Vector Byte 32) (v : Bool) : (s.setKey k v).keywin = s.keywin := rfl
@[simp] theorem mem_setKey (k : Vector Byte 32) (v : Bool) : (s.setKey k v).mem = s.mem := rfl
@[simp] theorem bus_setKey (k : Vector Byte 32) (v : Bool) : (s.setKey k v).bus = s.bus := rfl
@[simp] theorem draws_setKey (k : Vector Byte 32) (v : Bool) : (s.setKey k v).draws = s.draws := rfl
@[simp] theorem agenda_setKey (k : Vector Byte 32) (v : Bool) : (s.setKey k v).agenda = s.agenda := rfl
@[simp] theorem chan_setKey (k : Vector Byte 32) (v : Bool) (e : Chan) : (s.setKey k v).chan e = s.chan e := by cases e <;> rfl
@[simp] theorem codec_setKey (k : Vector Byte 32) (v : Bool) (e : Chan) : (s.setKey k v).codec e = s.codec e := by cases e <;> rfl

/-! ### `State.setBus` -/

@[simp] theorem algId_setBus (b : BusResponse) : (s.setBus b).algId = s.algId := rfl
@[simp] theorem maxLen_setBus (b : BusResponse) : (s.setBus b).maxLen = s.maxLen := rfl
@[simp] theorem key_setBus (b : BusResponse) : (s.setBus b).key = s.key := rfl
@[simp] theorem keyValid_setBus (b : BusResponse) : (s.setBus b).keyValid = s.keyValid := rfl
@[simp] theorem keywin_setBus (b : BusResponse) : (s.setBus b).keywin = s.keywin := rfl
@[simp] theorem mem_setBus (b : BusResponse) : (s.setBus b).mem = s.mem := rfl
@[simp] theorem bus_setBus (b : BusResponse) : (s.setBus b).bus = b := rfl
@[simp] theorem draws_setBus (b : BusResponse) : (s.setBus b).draws = s.draws := rfl
@[simp] theorem agenda_setBus (b : BusResponse) : (s.setBus b).agenda = s.agenda := rfl
@[simp] theorem chan_setBus (b : BusResponse) (e : Chan) : (s.setBus b).chan e = s.chan e := by cases e <;> rfl
@[simp] theorem codec_setBus (b : BusResponse) (e : Chan) : (s.setBus b).codec e = s.codec e := by cases e <;> rfl
@[simp] theorem cipher_setBus (b : BusResponse) : (s.setBus b).cipher = s.cipher := rfl

/-! ### `State.setDraws` -/

@[simp] theorem algId_setDraws (n : Nat) : (s.setDraws n).algId = s.algId := rfl
@[simp] theorem maxLen_setDraws (n : Nat) : (s.setDraws n).maxLen = s.maxLen := rfl
@[simp] theorem key_setDraws (n : Nat) : (s.setDraws n).key = s.key := rfl
@[simp] theorem keyValid_setDraws (n : Nat) : (s.setDraws n).keyValid = s.keyValid := rfl
@[simp] theorem keywin_setDraws (n : Nat) : (s.setDraws n).keywin = s.keywin := rfl
@[simp] theorem mem_setDraws (n : Nat) : (s.setDraws n).mem = s.mem := rfl
@[simp] theorem bus_setDraws (n : Nat) : (s.setDraws n).bus = s.bus := rfl
@[simp] theorem draws_setDraws (n : Nat) : (s.setDraws n).draws = n := rfl
@[simp] theorem agenda_setDraws (n : Nat) : (s.setDraws n).agenda = s.agenda := rfl
@[simp] theorem chan_setDraws (n : Nat) (e : Chan) : (s.setDraws n).chan e = s.chan e := by cases e <;> rfl
@[simp] theorem codec_setDraws (n : Nat) (e : Chan) : (s.setDraws n).codec e = s.codec e := by cases e <;> rfl
@[simp] theorem cipher_setDraws (n : Nat) : (s.setDraws n).cipher = s.cipher := rfl

/-! ### `State.setAgenda` -/

@[simp] theorem algId_setAgenda (l : List Event) : (s.setAgenda l).algId = s.algId := rfl
@[simp] theorem maxLen_setAgenda (l : List Event) : (s.setAgenda l).maxLen = s.maxLen := rfl
@[simp] theorem key_setAgenda (l : List Event) : (s.setAgenda l).key = s.key := rfl
@[simp] theorem keyValid_setAgenda (l : List Event) : (s.setAgenda l).keyValid = s.keyValid := rfl
@[simp] theorem keywin_setAgenda (l : List Event) : (s.setAgenda l).keywin = s.keywin := rfl
@[simp] theorem mem_setAgenda (l : List Event) : (s.setAgenda l).mem = s.mem := rfl
@[simp] theorem bus_setAgenda (l : List Event) : (s.setAgenda l).bus = s.bus := rfl
@[simp] theorem draws_setAgenda (l : List Event) : (s.setAgenda l).draws = s.draws := rfl
@[simp] theorem agenda_setAgenda (l : List Event) : (s.setAgenda l).agenda = l := rfl
@[simp] theorem chan_setAgenda (l : List Event) (e : Chan) : (s.setAgenda l).chan e = s.chan e := by cases e <;> rfl
@[simp] theorem codec_setAgenda (l : List Event) (e : Chan) : (s.setAgenda l).codec e = s.codec e := by cases e <;> rfl
@[simp] theorem cipher_setAgenda (l : List Event) : (s.setAgenda l).cipher = s.cipher := rfl

/-! ### The other channel -/

@[simp] theorem otherChan_ne (c : Chan) : otherChan c ≠ c := by cases c <;> decide
@[simp] theorem ne_otherChan (c : Chan) : c ≠ otherChan c := by cases c <;> decide
@[simp] theorem otherChan_enc : otherChan .enc = .dec := rfl
@[simp] theorem otherChan_dec : otherChan .dec = .enc := rfl
@[simp] theorem otherChan_otherChan (c : Chan) : otherChan (otherChan c) = c := by cases c <;> rfl
theorem eq_or_eq_otherChan (c e : Chan) : e = c ∨ e = otherChan c := by cases c <;> cases e <;> decide

/-! ### `State.setRtpPadOut` and `State.installKey` -/

@[simp] theorem algId_setRtpPadOut (b : Bool) : (s.setRtpPadOut b).algId = s.algId := rfl
@[simp] theorem maxLen_setRtpPadOut (b : Bool) : (s.setRtpPadOut b).maxLen = s.maxLen := rfl
@[simp] theorem key_setRtpPadOut (b : Bool) : (s.setRtpPadOut b).key = s.key := rfl
@[simp] theorem keyValid_setRtpPadOut (b : Bool) : (s.setRtpPadOut b).keyValid = s.keyValid := rfl
@[simp] theorem keywin_setRtpPadOut (b : Bool) : (s.setRtpPadOut b).keywin = s.keywin := rfl
@[simp] theorem mem_setRtpPadOut (b : Bool) : (s.setRtpPadOut b).mem = s.mem := rfl
@[simp] theorem bus_setRtpPadOut (b : Bool) : (s.setRtpPadOut b).bus = s.bus := rfl
@[simp] theorem draws_setRtpPadOut (b : Bool) : (s.setRtpPadOut b).draws = s.draws := rfl
@[simp] theorem agenda_setRtpPadOut (b : Bool) : (s.setRtpPadOut b).agenda = s.agenda := rfl
@[simp] theorem codec_setRtpPadOut (b : Bool) (e : Chan) : (s.setRtpPadOut b).codec e = s.codec e := by
  cases e <;> rfl
@[simp] theorem cipher_setRtpPadOut (b : Bool) : (s.setRtpPadOut b).cipher = s.cipher := rfl
@[simp] theorem chan_dec_setRtpPadOut (b : Bool) : (s.setRtpPadOut b).chan .dec = s.chan .dec := rfl
@[simp] theorem chan_enc_setRtpPadOut (b : Bool) :
    (s.setRtpPadOut b).chan .enc
      = { s.chan .enc with status := { (s.chan .enc).status with rtpPadOut := b } } := rfl

@[simp] theorem algId_installKey (k : Bytes) : (s.installKey k).algId = s.algId := rfl
@[simp] theorem maxLen_installKey (k : Bytes) : (s.installKey k).maxLen = s.maxLen := rfl
@[simp] theorem key_installKey (k : Bytes) : (s.installKey k).key = pack 32 k := rfl
@[simp] theorem keyValid_installKey (k : Bytes) : (s.installKey k).keyValid = true := rfl
@[simp] theorem keywin_installKey (k : Bytes) : (s.installKey k).keywin = s.keywin := rfl
@[simp] theorem mem_installKey (k : Bytes) : (s.installKey k).mem = s.mem := rfl
@[simp] theorem bus_installKey (k : Bytes) : (s.installKey k).bus = s.bus := rfl
@[simp] theorem draws_installKey (k : Bytes) : (s.installKey k).draws = s.draws := rfl
@[simp] theorem agenda_installKey (k : Bytes) : (s.installKey k).agenda = s.agenda := rfl
@[simp] theorem chan_installKey (k : Bytes) (e : Chan) : (s.installKey k).chan e = s.chan e := by cases e <;> rfl
@[simp] theorem codec_installKey (k : Bytes) (e : Chan) : (s.installKey k).codec e = s.codec e := by cases e <;> rfl

/-- Two states that agree in every field, read through the accessors, are equal. -/
theorem State.ext_fields {s t : State} (h1 : s.algId = t.algId) (h2 : s.maxLen = t.maxLen) (h3 : s.key = t.key)
    (h4 : s.keyValid = t.keyValid) (h5 : s.keywin = t.keywin) (h6 : ∀ d, s.codec d = t.codec d)
    (h7 : ∀ c, s.chan c = t.chan c) (h8 : s.mem = t.mem) (h9 : s.bus = t.bus) (h10 : s.draws = t.draws)
    (h11 : s.agenda = t.agenda) : s = t := by
  have e1 := h6 .enc; have e2 := h6 .dec; have e3 := h7 .enc; have e4 := h7 .dec
  cases s; cases t
  simp_all [State.codec, State.chan]

end Sys2Proof.Machine
end

