-- ==== Sys2Proof/Laws/Ops.lean ====
section
/-!
SUPPORT. What each shared operation over the state does, said once: the ends of a command, acceptance, and the outcome of
a completion step.
-/

namespace Sys2Proof.Machine

variable (s : State)

/-! ### `finish` -/

@[simp] theorem algId_finish (c : Chan) (out : Bytes) : (finish c out s).algId = s.algId := by simp [finish]
@[simp] theorem maxLen_finish (c : Chan) (out : Bytes) : (finish c out s).maxLen = s.maxLen := by simp [finish]
@[simp] theorem key_finish (c : Chan) (out : Bytes) : (finish c out s).key = s.key := by simp [finish]
@[simp] theorem keyValid_finish (c : Chan) (out : Bytes) : (finish c out s).keyValid = s.keyValid := by simp [finish]
@[simp] theorem keywin_finish (c : Chan) (out : Bytes) : (finish c out s).keywin = s.keywin := by simp [finish]
@[simp] theorem bus_finish (c : Chan) (out : Bytes) : (finish c out s).bus = s.bus := by simp [finish]
@[simp] theorem draws_finish (c : Chan) (out : Bytes) : (finish c out s).draws = s.draws := by simp [finish]
@[simp] theorem agenda_finish (c : Chan) (out : Bytes) : (finish c out s).agenda = s.agenda := by simp [finish]
@[simp] theorem codec_finish (c : Chan) (out : Bytes) (d : Chan) : (finish c out s).codec d = s.codec d := by
  simp [finish]
@[simp] theorem mem_finish (c : Chan) (out : Bytes) :
    (finish c out s).mem = s.mem.writeBytes (outBase c) out := by simp [finish]
@[simp] theorem chan_finish (c : Chan) (out : Bytes) :
    (finish c out s).chan c = { s.chan c with
      outLen := BitVec.ofNat 16 out.length
      status := { (s.chan c).status with err := false, errcode := .ok, done := true }
      pending := none } := by simp [finish]
@[simp] theorem chan_finish_of_ne (c : Chan) (out : Bytes) (e : Chan) (h : e ≠ c) :
    (finish c out s).chan e = s.chan e := by simp [finish, h]

/-! ### `raiseError` -/

@[simp] theorem algId_raiseError (c : Chan) (e : ErrCode) : (raiseError c e s).algId = s.algId := by simp [raiseError]
@[simp] theorem maxLen_raiseError (c : Chan) (e : ErrCode) : (raiseError c e s).maxLen = s.maxLen := by
  simp [raiseError]
@[simp] theorem key_raiseError (c : Chan) (e : ErrCode) : (raiseError c e s).key = s.key := by simp [raiseError]
@[simp] theorem keyValid_raiseError (c : Chan) (e : ErrCode) : (raiseError c e s).keyValid = s.keyValid := by
  simp [raiseError]
@[simp] theorem keywin_raiseError (c : Chan) (e : ErrCode) : (raiseError c e s).keywin = s.keywin := by
  simp [raiseError]
@[simp] theorem mem_raiseError (c : Chan) (e : ErrCode) : (raiseError c e s).mem = s.mem := by simp [raiseError]
@[simp] theorem bus_raiseError (c : Chan) (e : ErrCode) : (raiseError c e s).bus = s.bus := by simp [raiseError]
@[simp] theorem draws_raiseError (c : Chan) (e : ErrCode) : (raiseError c e s).draws = s.draws := by simp [raiseError]
@[simp] theorem agenda_raiseError (c : Chan) (e : ErrCode) : (raiseError c e s).agenda = s.agenda := by
  simp [raiseError]
@[simp] theorem codec_raiseError (c : Chan) (e : ErrCode) (d : Chan) : (raiseError c e s).codec d = s.codec d := by
  simp [raiseError]
@[simp] theorem chan_raiseError (c : Chan) (e : ErrCode) :
    (raiseError c e s).chan c = { s.chan c with
      outLen := 0
      status := { (s.chan c).status with err := true, errcode := e, done := true }
      pending := none } := by simp [raiseError]
@[simp] theorem chan_raiseError_of_ne (c : Chan) (e : ErrCode) (d : Chan) (h : d ≠ c) :
    (raiseError c e s).chan d = s.chan d := by simp [raiseError, h]

variable {s}

/-- `raise e` fails the command with `e` and does nothing else (60_exceptions.md R172, R174). -/
theorem failed_raiseError (c : Chan) (e : ErrCode) : Failed c e s (raiseError c e s) where
  idle := by simp
  done := by simp
  err := by simp
  errcode := by simp
  outLen := by simp
  mem := by simp
  cmd := by simp
  len := by simp
  seq := by simp
  doneEn := by simp
  ovrEn := by simp
  overrun := by simp
  other := by simp [KeepsOther]
  key := by simp [KeepsKey]
  codecs := by simp [KeepsCodecs]
  padFlags := by
    intro d
    rcases eq_or_eq_otherChan c d with rfl | rfl <;> simp
  algId := by simp
  maxLen := by simp
  keywin := by simp
  bus := by simp
  draws := by simp
  agenda := by simp

/-- `finish out` after writes that touch neither the memory, the bus, nor a channel but for its padding flag, completes the
command (44_control.md R163). -/
theorem completed_finish {c : Chan} {out : Bytes} {t : State} (hmem : s.mem.wf = true) (hlen : out.length < 2 ^ 16)
    (h1 : (t.chan c).cmd = (s.chan c).cmd) (h2 : (t.chan c).len = (s.chan c).len)
    (h3 : (t.chan c).seq = (s.chan c).seq) (h4 : (t.chan c).doneEn = (s.chan c).doneEn)
    (h5 : (t.chan c).ovrEn = (s.chan c).ovrEn) (h6 : (t.chan c).status.overrun = (s.chan c).status.overrun)
    (h7 : t.mem = s.mem) (h8 : t.algId = s.algId) (h9 : t.maxLen = s.maxLen) (h10 : t.keywin = s.keywin)
    (h11 : t.bus = s.bus) (h12 : t.agenda = s.agenda) : Completed c out s (finish c out t) where
  idle := by simp
  done := by simp
  err := by simp
  errcode := by simp
  outLen := by simpa using hlen
  stored := by
    intro a ha hb
    rw [mem_finish, h7, Memory.read_writeBytes _ _ _ hmem, if_pos ⟨ha, hb⟩]
  unstored := by
    intro a ha
    rw [mem_finish, h7, Memory.read_writeBytes _ _ _ hmem, if_neg (by omega)]
  cmd := by simpa using h1
  len := by simpa using h2
  seq := by simpa using h3
  doneEn := by simpa using h4
  ovrEn := by simpa using h5
  overrun := by simpa using h6
  algId := by simpa using h8
  maxLen := by simpa using h9
  keywin := by simpa using h10
  bus := by simpa using h11
  agenda := by simpa using h12

/-! ### `accept`, `clearStatus`, `overrun` -/

theorem accept_chan (c : Chan) (w : Word) :
    (accept c w s).chan c = { s.chan c with
      cmd := w
      pending := some (s.snapshot c w)
      status := { (s.chan c).status with done := false, err := false, errcode := .ok } } := by
  simp [accept]

@[simp] theorem length_snapshot_inp (c : Chan) (w : Word) :
    (s.snapshot c w).inp.length = min (s.chan c).len.toNat s.maxLen := by
  simp [State.snapshot]

/-! ### The outcome of a completion step -/

/-- A command on a channel that has accepted one ends in `conclude` of its rule. -/
theorem runCommand_of_pends {c : Chan} {p : Snapshot} (h : s.Pends c p) (rule : Snapshot → CommandResult) :
    runCommand c s rule = .next (conclude c s (rule p)) := by
  rw [runCommand, show (s.chan c).pending = some p from h]

/-- A completion step that answers a next state answers the conclusion of the rule on the accepted command. -/
theorem runCommand_next {c : Chan} {rule : Snapshot → CommandResult} {t : State}
    (h : runCommand c s rule = .next t) : ∃ p, s.Pends c p ∧ t = conclude c s (rule p) := by
  unfold runCommand at h
  split at h
  · exact absurd h (by simp)
  · rename_i p hp
    exact ⟨p, hp, by simpa using h.symm⟩

@[simp] theorem conclude_ok (c : Chan) (t : State) (out : Bytes) : conclude c s (.ok (t, out)) = finish c out t := rfl
@[simp] theorem conclude_error (c : Chan) (e : ErrCode) : conclude c s (.error e) = raiseError c e s := rfl
@[simp] theorem require_true (e : ErrCode) (k : CommandResult) : require true e k = k := rfl
@[simp] theorem require_false (e : ErrCode) (k : CommandResult) : require false e k = .error e := rfl

end Sys2Proof.Machine
end

