-- ==== Sys2Proof/Laws/Commands.lean ====
section
/-!
SUPPORT. What the commands share, said once: the ends of a command with and without output, the operands, and what
`ZEROIZE` writes.
-/

namespace Sys2Proof.Machine

/-- The transform a command uses is the one under the active key at its completion (43_cipher_engine.md R133). -/
theorem cipher_eq_underActiveKey (s : State) : s.cipher = s.underActiveKey := rfl

/-! ### The ends of a command -/

/-- A command that emits nothing completes whatever form the memory is in (44_control.md R163). -/
theorem completed_finish_nil {c : Chan} {s t : State}
    (h1 : (t.chan c).cmd = (s.chan c).cmd) (h2 : (t.chan c).len = (s.chan c).len)
    (h3 : (t.chan c).seq = (s.chan c).seq) (h4 : (t.chan c).doneEn = (s.chan c).doneEn)
    (h5 : (t.chan c).ovrEn = (s.chan c).ovrEn) (h6 : (t.chan c).status.overrun = (s.chan c).status.overrun)
    (h7 : t.mem = s.mem) (h8 : t.algId = s.algId) (h9 : t.maxLen = s.maxLen) (h10 : t.keywin = s.keywin)
    (h11 : t.bus = s.bus) (h12 : t.agenda = s.agenda) : Completed c [] s (finish c [] t) where
  idle := by simp
  done := by simp
  err := by simp
  errcode := by simp
  outLen := by simp
  stored := by
    intro a ha hb
    exact absurd hb (by simp; omega)
  unstored := by
    intro a _
    rw [mem_finish, h7]
    rfl
  cmd := by simpa using h1
  len := by simpa using h2
  seq := by simpa using h3
  doneEn := by simpa using h4
  ovrEn := by simpa using h5
  overrun := by simpa using h6
  algId := by simpa using h8
  maxLen := by simpa using h9
  keywin := by simpa using h10
  bus := by simpa using h11
  agenda := by simpa using h12

@[simp] theorem rtpPadOut_finish (c : Chan) (out : Bytes) (s : State) (e : Chan) :
    ((finish c out s).chan e).status.rtpPadOut = (s.chan e).status.rtpPadOut := by
  rcases eq_or_eq_otherChan c e with rfl | rfl <;> simp

@[simp] theorem rtpPadOut_raiseError (c : Chan) (x : ErrCode) (s : State) (e : Chan) :
    ((raiseError c x s).chan e).status.rtpPadOut = (s.chan e).status.rtpPadOut := by
  rcases eq_or_eq_otherChan c e with rfl | rfl <;> simp

/-! ### Checks -/

/-- A check that passes. -/
theorem require_of {b : Bool} (e : ErrCode) (k : CommandResult) (h : b = true) : require b e k = k := by
  rw [h, require_true]

/-- A check that fails. -/
theorem require_of_not {b : Bool} (e : ErrCode) (k : CommandResult) (h : b = false) : require b e k = .error e := by
  rw [h, require_false]

/-! ### Operands -/

/-- The data operand of a snapshot that holds all its bytes. -/
theorem Snapshot.data_of_whole {p : Snapshot} (h : p.Whole) : p.data = p.inp := by
  rw [Snapshot.data, List.take_of_length_le (by rw [h])]

/-- The data operand is never longer than the length operand. -/
theorem Snapshot.length_data_le (p : Snapshot) : p.data.length ≤ p.n := by
  simp [Snapshot.data]

theorem keyLength_le (a : Byte) : keyLength a ≤ 32 := by
  unfold keyLength
  split_ifs <;> omega

@[simp] theorem length_entropyDraw (k n : Nat) : (entropyDraw k n).length = n := by
  simp [entropyDraw]

theorem pack_toList_of_length_le {n : Nat} {s : Bytes} (h : s.length ≤ n) :
    (pack n s).toList = s ++ zeros (n - s.length) := by
  rw [pack_toList, List.take_append, List.take_of_length_le h, zeros, List.take_replicate]
  congr 2
  omega

@[simp] theorem length_repeatBytes (n : Nat) (s : Bytes) : (repeatBytes n s).length = n * s.length := by
  induction n with
  | zero => simp [repeatBytes]
  | succ n ih => simp [repeatBytes, ih, Nat.add_mul, Nat.add_comm]

@[simp] theorem length_ivDerive (l : Nat) (q : Option (Vector Byte 6)) : (ivDerive l q).length = l := by
  cases q with
  | none => simp [ivDerive]
  | some q =>
    simp [ivDerive]
    omega

/-! ### `State.zeroized` -/

variable (s : State)

@[simp] theorem algId_zeroized : s.zeroized.algId = s.algId := by simp [State.zeroized, State.zeroizeChan]
@[simp] theorem maxLen_zeroized : s.zeroized.maxLen = s.maxLen := by simp [State.zeroized, State.zeroizeChan]
@[simp] theorem key_zeroized : s.zeroized.key = Vector.replicate 32 0 := by
  simp [State.zeroized, State.zeroizeChan]
@[simp] theorem keyValid_zeroized : s.zeroized.keyValid = false := by simp [State.zeroized, State.zeroizeChan]
@[simp] theorem keywin_zeroized : s.zeroized.keywin = Vector.replicate 32 0 := by
  simp [State.zeroized, State.zeroizeChan]
@[simp] theorem mem_zeroized : s.zeroized.mem = [] := by simp [State.zeroized, State.zeroizeChan]
@[simp] theorem bus_zeroized : s.zeroized.bus = s.bus := by simp [State.zeroized, State.zeroizeChan]
@[simp] theorem draws_zeroized : s.zeroized.draws = s.draws := by simp [State.zeroized, State.zeroizeChan]
@[simp] theorem agenda_zeroized : s.zeroized.agenda = s.agenda := by simp [State.zeroized, State.zeroizeChan]
@[simp] theorem codec_zeroized (d : Chan) : s.zeroized.codec d = Codec.reset := by
  cases d <;> simp [State.zeroized, State.zeroizeChan]
@[simp] theorem chan_enc_zeroized : s.zeroized.chan .enc = { s.chan .enc with
    outLen := 0
    seq := Vector.replicate 6 0
    status := { (s.chan .enc).status with rtpPadOut := false } } := by
  simp [State.zeroized, State.zeroizeChan]
@[simp] theorem chan_dec_zeroized : s.zeroized.chan .dec = { s.chan .dec with
    outLen := 0
    seq := Vector.replicate 6 0 } := by
  simp [State.zeroized, State.zeroizeChan]

end Sys2Proof.Machine
end

