-- ==== Sys2Proof/Laws/HostPort.lean ====
section
/-!
SUPPORT. The address map read from its names (20_memory.md R51), and what one step does with the event at the head of the
agenda.
-/

namespace Sys2Proof.Machine

/-! ### The address map -/

/-- The registers of a channel's page stand at its offsets. -/
theorem placeAt_page (c : Chan) (k : Nat) (h : k < 0x100) : placeAt (pageBase c + k) = placeOnPage c k := by
  cases c <;> simp (disch := omega) only [placeAt, pageBase, ↓if_neg, ↓if_pos, Nat.add_sub_cancel_left]

theorem placeAt_keywin (k : Nat) (h : k < 32) : placeAt (0x40 + k) = .keywin k := by
  simp (disch := omega) only [placeAt, ↓if_neg, ↓if_pos, Nat.add_sub_cancel_left]

theorem placeAt_inp (c : Chan) (i : Nat) (h : i < 0x2000) : placeAt (inBase c + i) = .inp c i := by
  cases c <;> simp (disch := omega) only [placeAt, inBase, ↓if_neg, ↓if_pos, Nat.add_sub_cancel_left]

theorem placeAt_out (c : Chan) (i : Nat) (h : i < 0x2000) : placeAt (outBase c + i) = .out c i := by
  cases c <;> simp (disch := omega) only [placeAt, outBase, ↓if_neg, ↓if_pos, Nat.add_sub_cancel_left]

/-- No page holds a place of an input window. -/
theorem placeOnPage_ne_inp (d c : Chan) (k i : Nat) : placeOnPage d k ≠ .inp c i := by
  unfold placeOnPage
  repeat' split
  all_goals exact Place.noConfusion

/-- A place of an input window stands at its window's offsets, and at no other. -/
theorem placeAt_eq_inp {off : Nat} {c : Chan} {i : Nat} (h : placeAt off = .inp c i) :
    off = inBase c + i ∧ i < 0x2000 := by
  unfold placeAt at h
  repeat' split at h
  all_goals first
    | exact absurd h (placeOnPage_ne_inp _ _ _ _)
    | exact Place.noConfusion h
    | (injection h with h1 h2
       subst h1 h2
       simp only [inBase]
       omega)

/-! ### One step -/

theorem step_of_agenda {s : State} {e : Event} {rest : List Event} (h : s.agenda = e :: rest) :
    step s = runEvent e (s.setAgenda rest) := by
  rw [step, nextStep, h]

/-- A 32-bit write at an aligned offset of the register space is performed. -/
theorem step_write {s : State} {off : Nat} {w : Word} {rest : List Event} (h : s.agenda = writeEvent off w :: rest)
    (h4 : off % 4 = 0) (h16 : off < 0x10000) :
    step s = .next ((writePlace (s.setAgenda rest) w (placeAt off)).setBus .written) := by
  have hn : (BitVec.ofNat 16 off).toNat = off := by simp; omega
  rw [step_of_agenda h, writeEvent, runEvent, hostAccess, hn, if_pos (by simp [accessPerformed, hn, h4])]

/-- A 32-bit read at an aligned offset of the register space is performed. -/
theorem step_read {s : State} {off : Nat} {rest : List Event} (h : s.agenda = readEvent off :: rest)
    (h4 : off % 4 = 0) (h16 : off < 0x10000) :
    step s = .next (((s.setAgenda rest).setBus (.data (readAnswer (s.setAgenda rest) (placeAt off)))).setDraws
      (if unspecifiedBits (s.setAgenda rest) (placeAt off) = 0 then s.draws else s.draws + 1)) := by
  have hn : (BitVec.ofNat 16 off).toNat = off := by simp; omega
  rw [step_of_agenda h, readEvent, runEvent, hostAccess, hn, if_pos (by simp [accessPerformed, hn, h4])]
  rfl

/-- A read that involves no unspecified value answers what stands at the place, and changes nothing else. -/
theorem step_read_specified {s : State} {off : Nat} {rest : List Event} (h : s.agenda = readEvent off :: rest)
    (h4 : off % 4 = 0) (h16 : off < 0x10000) (hu : unspecifiedBits (s.setAgenda rest) (placeAt off) = 0) :
    step s = .next ((s.setAgenda rest).setBus (.data (readPlace (s.setAgenda rest) (placeAt off)))) := by
  rw [step_read h h4 h16, if_pos hu, readAnswer, if_pos hu]
  rfl

end Sys2Proof.Machine
end

