-- ==== Sys2Proof/Laws/Rules.lean ====
section
/-!
SUPPORT. The commands seen alike: the rule of each command, `exec` as the completion step of that rule, and what a
successful rule may have done to the state, said once for all commands but `ZEROIZE`.
-/

namespace Sys2Proof.Machine

/-- The rule of a command at a state: what its completion step computes from the snapshot (44_control.md R163). -/
def ruleOf (i : Instr) (s : State) (p : Snapshot) : CommandResult :=
  match i with
  | .nop _ => .ok (s, [])
  | .setkey _ =>
    require (algRecognised s.algId) .unsupportedAlgorithm <|
    require (p.n = keyLength s.algId) .invalidKeyLength <|
    .ok (s.installKey p.keyBytes, [])
  | .genkey _ =>
    require (algRecognised s.algId) .unsupportedAlgorithm <|
    .ok ((s.installKey (entropyDraw s.draws (keyLength s.algId))).setDraws (s.draws + 1),
      entropyDraw s.draws (keyLength s.algId))
  | .encrypt c seq =>
    onlyOn .enc c <| lengthInRange s p <| keyReady s <|
    match encryptPaths s.cipher p.data ((s.codec .enc).start (p.iv seq) .cbc) with
    | .error e => .error e
    | .ok (out, x) => .ok ((s.setCodec .enc x).setRtpPadOut (p.n < 16), out)
  | .decrypt c seq pad =>
    onlyOn .dec c <| lengthInRange s p <| keyReady s <|
    match decryptPaths s.cipher pad p.data ((s.codec .dec).start (p.iv seq) .cbc) with
    | .error e => .error e
    | .ok (out, x) => .ok (s.setCodec .dec x, out)
  | .ctsEncInit c seq mode => onlyOn .enc c <| initRule .enc seq mode s p
  | .ctsDecInit c seq mode => onlyOn .dec c <| initRule .dec seq mode s p
  | .ctsEncUpdate c => onlyOn .enc c <| updateRule .enc s p
  | .ctsDecUpdate c => onlyOn .dec c <| updateRule .dec s p
  | .ctsEncFinal c => onlyOn .enc c <| finalRule .enc s
  | .ctsDecFinal c => onlyOn .dec c <| finalRule .dec s
  | .ivDerive _ seq => .ok (s, ivDerive 16 (p.seed seq))
  | .zeroize _ => .ok (s.zeroized, [])

/-- Every meaning is the completion step of its rule on the command's channel. -/
theorem exec_eq_runCommand (i : Instr) (s : State) : exec i s = runCommand i.chan s (ruleOf i s) := by
  cases i <;> rfl

theorem exec_of_pends {i : Instr} {s : State} {p : Snapshot} (h : s.Pends i.chan p) :
    exec i s = .next (conclude i.chan s (ruleOf i s p)) := by
  rw [exec_eq_runCommand, runCommand_of_pends h]

theorem exec_next {i : Instr} {s t : State} (h : exec i s = .next t) :
    ∃ p, s.Pends i.chan p ∧ t = conclude i.chan s (ruleOf i s p) := by
  rw [exec_eq_runCommand] at h
  exact runCommand_next h

theorem require_ok {b : Bool} {e : ErrCode} {k : CommandResult} {r : State × Bytes} :
    require b e k = .ok r ↔ b = true ∧ k = .ok r := by
  cases b <;> simp

theorem require_error {b : Bool} {e x : ErrCode} {k : CommandResult} :
    require b e k = .error x ↔ (b = false ∧ e = x) ∨ (b = true ∧ k = .error x) := by
  cases b <;> simp

/-- A rule that fails names an error (60_exceptions.md R170). -/
theorem rule_error_ne_ok {i : Instr} {s : State} {p : Snapshot} {e : ErrCode} (h : ruleOf i s p = .error e) :
    e ≠ .ok := by
  rintro rfl
  have hfin : ∀ K d x, ctsFinal K d x ≠ .error .ok := by
    intro K d x
    unfold ctsFinal
    split_ifs <;> simp
  have henc : ∀ K b x, encryptPaths K b x ≠ .error .ok := by
    intro K b x hx
    unfold encryptPaths at hx
    split_ifs at hx
    split at hx
    · rename_i h1
      cases hx
      exact hfin _ _ _ h1
    · cases hx
  have hdec : ∀ K q b x, decryptPaths K q b x ≠ .error .ok := by
    intro K q b x hx
    unfold decryptPaths depadMessage at hx
    split_ifs at hx
    · cases hx
    · cases hx
    · split at hx
      · rename_i h1
        cases hx
        simp only at h1
        split_ifs at h1
        exact absurd h1 (by simp)
      · cases hx
    · split at hx
      · rename_i h1
        cases hx
        exact hfin _ _ _ h1
      · cases hx
  cases i <;>
    simp only [ruleOf, onlyOn, lengthInRange, keyReady, initRule, updateRule, finalRule, modeSupported,
      require_error, reduceCtorEq, and_false, false_or, or_false] at h
  case encrypt =>
    obtain ⟨-, -, -, -, h⟩ := h
    split at h
    · rename_i h1
      cases h
      exact henc _ _ _ h1
    · cases h
  case decrypt =>
    obtain ⟨-, -, -, -, h⟩ := h
    split at h
    · rename_i h1
      cases h
      exact hdec _ _ _ _ h1
    · cases h
  all_goals
    obtain ⟨-, -, -, -, h⟩ := h
    split at h
    · rename_i h1
      cases h
      exact hfin _ _ _ h1
    · cases h

/-- What a successful rule, of any command but `ZEROIZE`, may have done: it wrote the key, the codec state of its
direction, the padding flag of channel 0 when it is channel 0's, and the count of draws. -/
structure RuleKeeps (c : Chan) (s t : State) : Prop where
  algId : t.algId = s.algId
  maxLen : t.maxLen = s.maxLen
  keywin : t.keywin = s.keywin
  mem : t.mem = s.mem
  bus : t.bus = s.bus
  agenda : t.agenda = s.agenda
  otherCodec : t.codec (otherChan c) = s.codec (otherChan c)
  otherChan : t.chan (otherChan c) = s.chan (otherChan c)
  chan : ∃ b, t.chan c = { s.chan c with status := { (s.chan c).status with rtpPadOut := b } }
  pad_dec : c = .dec → t.chan c = s.chan c

theorem rule_keeps {i : Instr} {s t : State} {p : Snapshot} {out : Bytes} (hz : ∀ c, i ≠ .zeroize c)
    (h : ruleOf i s p = .ok (t, out)) : RuleKeeps i.chan s t := by
  cases i <;>
    simp only [ruleOf, onlyOn, lengthInRange, keyReady, initRule, updateRule, finalRule, modeSupported,
      require_ok, Except.ok.injEq, Prod.mk.injEq, decide_eq_true_eq] at h
  case zeroize c => exact absurd rfl (hz c)
  case nop c =>
    obtain ⟨rfl, rfl⟩ := h
    exact ⟨rfl, rfl, rfl, rfl, rfl, rfl, rfl, rfl, ⟨_, rfl⟩, fun _ => rfl⟩
  case ivDerive c seq =>
    obtain ⟨rfl, rfl⟩ := h
    exact ⟨rfl, rfl, rfl, rfl, rfl, rfl, rfl, rfl, ⟨_, rfl⟩, fun _ => rfl⟩
  case setkey c =>
    obtain ⟨-, -, rfl, rfl⟩ := h
    exact ⟨rfl, rfl, rfl, rfl, rfl, rfl, by simp, by simp, ⟨(s.chan c).status.rtpPadOut, by simp [Instr.chan]⟩,
      fun _ => by simp⟩
  case genkey c =>
    obtain ⟨-, rfl, rfl⟩ := h
    exact ⟨rfl, rfl, rfl, rfl, rfl, rfl, by simp, by simp, ⟨(s.chan c).status.rtpPadOut, by simp [Instr.chan]⟩,
      fun _ => by simp⟩
  case encrypt c seq =>
    obtain ⟨rfl, -, -, -, h⟩ := h
    split at h
    · cases h
    · cases h
      exact ⟨rfl, rfl, rfl, rfl, rfl, rfl, rfl, rfl, ⟨_, rfl⟩, fun h => absurd h (by simp [Instr.chan])⟩
  case decrypt c seq pad =>
    obtain ⟨rfl, -, -, -, h⟩ := h
    split at h
    · cases h
    · cases h
      exact ⟨rfl, rfl, rfl, rfl, rfl, rfl, rfl, rfl, ⟨_, rfl⟩, fun _ => rfl⟩
  case ctsEncInit c seq mode =>
    obtain ⟨rfl, rfl, rfl⟩ := h
    exact ⟨rfl, rfl, rfl, rfl, rfl, rfl, rfl, rfl, ⟨_, rfl⟩, fun _ => rfl⟩
  case ctsDecInit c seq mode =>
    obtain ⟨rfl, rfl, rfl⟩ := h
    exact ⟨rfl, rfl, rfl, rfl, rfl, rfl, rfl, rfl, ⟨_, rfl⟩, fun _ => rfl⟩
  case ctsEncUpdate c =>
    obtain ⟨rfl, -, -, -, -, rfl, rfl⟩ := h
    exact ⟨rfl, rfl, rfl, rfl, rfl, rfl, rfl, rfl, ⟨_, rfl⟩, fun _ => rfl⟩
  case ctsDecUpdate c =>
    obtain ⟨rfl, -, -, -, -, rfl, rfl⟩ := h
    exact ⟨rfl, rfl, rfl, rfl, rfl, rfl, rfl, rfl, ⟨_, rfl⟩, fun _ => rfl⟩
  case ctsEncFinal c =>
    obtain ⟨rfl, -, -, -, h⟩ := h
    split at h
    · cases h
    · cases h
      exact ⟨rfl, rfl, rfl, rfl, rfl, rfl, rfl, rfl, ⟨_, rfl⟩, fun _ => rfl⟩
  case ctsDecFinal c =>
    obtain ⟨rfl, -, -, -, h⟩ := h
    split at h
    · cases h
    · cases h
      exact ⟨rfl, rfl, rfl, rfl, rfl, rfl, rfl, rfl, ⟨_, rfl⟩, fun _ => rfl⟩

end Sys2Proof.Machine
end

