-- ==== Sys2Proof/Tests/Slice0.lean ====
section
/-!
SUPPORT. The author's own tests. Expected values are those of 95_test_vectors.md, each named by its number there
(V…, P…), or are worked out by hand from the rule named. Every test is one step, one decoding, or one witness that the
hypotheses of a statement can be met, at the boundary values of its clauses.
-/

namespace Sys2Proof.Tests

open Sys2Proof.Machine

/-! ### Helpers -/

/-- The `len` bytes whose hexadecimal digits are `n`, first byte first. -/
def hexBytes (len n : Nat) : Bytes :=
  (List.range len).map fun i => BitVec.ofNat 8 (n >>> (8 * (len - 1 - i)))

/-- The bytes `00 01 02 ..`, `n` of them. -/
def upto (n : Nat) : Bytes :=
  (List.range n).map (BitVec.ofNat 8)

/-- The key `K` of 95_test_vectors.md. -/
def keyK : Bytes := upto 16

/-- The sequence value `seq` of 95_test_vectors.md. -/
def seqV : Vector Byte 6 := pack 6 (hexBytes 6 0x0001AABBCCDD)

/-- The initialisation vector `IV` of 95_test_vectors.md. -/
def ivV : Block := pack 16 (hexBytes 16 0x0001AABBCCDD0001AABBCCDD0001AABB)

/-- The snapshot of the word `w` with length `len`, data `data`, sequence value `seqV` and staged key `K`. -/
def snap (w : Word) (len : Nat) (data : Bytes) : Snapshot :=
  { word := w, len := BitVec.ofNat 16 len, seq := seqV, inp := data, keywin := pack 32 keyK }

/-- `s` with a command accepted on channel `c`. -/
def issued (c : Chan) (p : Snapshot) (s : State) : State :=
  s.setChan c { s.chan c with cmd := p.word, len := p.len, seq := p.seq, pending := some p }

/-- Reset, with key `K` installed. -/
def keyed : State := State.reset.installKey keyK

/-- A codec state in the middle of a stream: `buf` pending, `fin` the pending-final block. -/
def stream (mode : CtsMode) (chain : Block) (fin buf : Bytes) : Codec :=
  { buf := pack 16 buf, blen := buf.length, fin := pack 16 fin, fused := true, chain := chain, cmode := mode, pmode := .none }

/-- The state after a step that goes on. -/
def after : Host.Outcome State Fault Refusal → Option State
  | .next t => some t
  | _ => none

/-- After a step: the word of `STATUS[c]`, the value of `OUT_LEN[c]`, and as many bytes of `OUT[c]`. -/
def seen (c : Chan) (o : Host.Outcome State Fault Refusal) : Option (Word × Nat × Bytes) :=
  (after o).map fun t =>
    (statusWord t c, (t.chan c).outLen.toNat, t.mem.readBytes (outBase c) (t.chan c).outLen.toNat)

/-- The word a read at an offset is answered with. -/
def readOf (off : Nat) (s : State) : Option BusResponse :=
  (after (step (s.setAgenda [readEvent off]))).map (·.bus)

/-- The state after a write at an offset. -/
def writeTo (off : Nat) (w : Word) (s : State) : Option State :=
  after (step (s.setAgenda [writeEvent off w]))

/-! ### Well-formedness: each channel that a row of the opcode table forbids is refused (30_encoding.md R76, R78) -/

theorem test_wf_encrypt : (Instr.encrypt .dec true).wellFormed = false ∧ (Instr.encrypt .enc true).wellFormed = true := by
  decide

theorem test_wf_decrypt :
    (Instr.decrypt .enc true false).wellFormed = false ∧ (Instr.decrypt .dec true false).wellFormed = true := by
  decide

theorem test_wf_cts_enc_init :
    (Instr.ctsEncInit .dec true .cbc).wellFormed = false ∧ (Instr.ctsEncInit .enc true .cbc).wellFormed = true := by
  decide

theorem test_wf_cts_dec_init :
    (Instr.ctsDecInit .enc true .cbc).wellFormed = false ∧ (Instr.ctsDecInit .dec true .cbc).wellFormed = true := by
  decide

theorem test_wf_cts_update :
    (Instr.ctsEncUpdate .dec).wellFormed = false ∧ (Instr.ctsDecUpdate .enc).wellFormed = false := by
  decide

theorem test_wf_cts_final :
    (Instr.ctsEncFinal .dec).wellFormed = false ∧ (Instr.ctsDecFinal .enc).wellFormed = false := by
  decide

theorem test_wf_either_channel :
    ∀ c : Bool, let d := if c then Chan.enc else Chan.dec
      (Instr.nop d).wellFormed = true ∧ (Instr.setkey d).wellFormed = true ∧ (Instr.genkey d).wellFormed = true
        ∧ (Instr.ivDerive d true).wellFormed = true ∧ (Instr.zeroize d).wellFormed = true := by
  decide

/-! ### Decoding (95_test_vectors.md §2.3): the words written out from 30_encoding.md R70 and R76 -/

theorem test_decode_nop : decode .enc 0x00000000 = .ok (.nop .enc) ∧ decode .dec 0x00000000 = .ok (.nop .dec) := by
  decide

theorem test_decode_setkey : decode .enc 0x00000001 = .ok (.setkey .enc) ∧ decode .dec 0x00000F01 = .ok (.setkey .dec) := by
  decide

theorem test_decode_genkey : decode .enc 0x00000002 = .ok (.genkey .enc) ∧ decode .dec 0x00000002 = .ok (.genkey .dec) := by
  decide

theorem test_decode_encrypt :
    decode .enc 0x00000103 = .ok (.encrypt .enc true) ∧ decode .enc 0x00000E03 = .ok (.encrypt .enc false)
      ∧ decode .dec 0x00000103 = .error .wrongChannel := by
  decide

theorem test_decode_decrypt :
    decode .dec 0x00000304 = .ok (.decrypt .dec true true) ∧ decode .dec 0x00000104 = .ok (.decrypt .dec true false)
      ∧ decode .dec 0x00000204 = .ok (.decrypt .dec false true) ∧ decode .enc 0x00000004 = .error .wrongChannel := by
  decide

theorem test_decode_cts_enc_init :
    decode .enc 0x00000505 = .ok (.ctsEncInit .enc true .ecb) ∧ decode .enc 0x00000C05 = .ok (.ctsEncInit .enc false .mode3)
      ∧ decode .enc 0x00000805 = .ok (.ctsEncInit .enc false .mode2) := by
  decide

theorem test_decode_cts_dec_init :
    decode .dec 0x00000105 = .ok (.ctsDecInit .dec true .cbc) ∧ decode .dec 0x00000605 = .ok (.ctsDecInit .dec false .ecb) := by
  decide

theorem test_decode_cts_update :
    decode .enc 0x00000006 = .ok (.ctsEncUpdate .enc) ∧ decode .dec 0x00000006 = .ok (.ctsDecUpdate .dec) := by
  decide

theorem test_decode_cts_final :
    decode .enc 0x00000007 = .ok (.ctsEncFinal .enc) ∧ decode .dec 0x00000007 = .ok (.ctsDecFinal .dec) := by
  decide

theorem test_decode_iv_derive :
    decode .enc 0x00000108 = .ok (.ivDerive .enc true) ∧ decode .dec 0x00000008 = .ok (.ivDerive .dec false) := by
  decide

theorem test_decode_zeroize :
    decode .enc 0x00000009 = .ok (.zeroize .enc) ∧ decode .dec 0x00000009 = .ok (.zeroize .dec) := by
  decide

/-- V3.14: the first and last unused opcodes, and two between. -/
theorem test_decode_unused_opcodes :
    [(0x0000000A : Word), 0x0000000F, 0x00000010, 0x0000001F].all (fun w =>
      decode .enc w = .error .unusedOpcode && decode .dec w = .error .unusedOpcode) = true := by
  decide

/-- V3.15, V3.16. -/
theorem test_decode_reserved_bits :
    [(0x00000020 : Word), 0x00000040, 0x00000080, 0x00001000, 0x80000003].all (fun w =>
      decode .enc w = .error .reservedBits && decode .dec w = .error .reservedBits) = true := by
  decide

/-- The bytes of a word, little-endian (20_memory.md R53), and one byte too few. -/
theorem test_decode_bytes :
    decodeBytes .dec [0x04, 0x03, 0x00, 0x00, 0xAA] = .ok (.decrypt .dec true true, [0xAA])
      ∧ decodeBytes .dec [0x04, 0x03, 0x00] = .error .truncated := by
  decide

/-- V3.5, V3.7, V3.9 the other way: encoding. -/
theorem test_encode :
    encode (.encrypt .enc true) = 0x00000103 ∧ encode (.decrypt .dec true true) = 0x00000304
      ∧ encode (.ctsEncInit .enc true .ecb) = 0x00000505 ∧ encode (.ctsDecInit .dec true .cbc) = 0x00000105
      ∧ encode (.ivDerive .enc true) = 0x00000108 := by
  decide

theorem test_table_word :
    decodeTableWord 32 0x00000103 = some (.encrypt .enc true) ∧ decodeTableWord 32 0x00000304 = some (.decrypt .dec true true)
      ∧ decodeTableWord 32 0x00000020 = none := by
  decide

/-- The placed instruction is the one the next step runs. -/
theorem test_fetch_word :
    (after (step (State.reset.withFetchWord 32 0x00000009))).map (fun t => (statusWord t .enc, (t.chan .enc).cmd))
      = some (0x00000002, 0x00000009) := by
  decide

/-! ### The block transform (95_test_vectors.md §2.1, FIPS-197 Appendix C) -/

theorem test_aes128 :
    ((aesUnder keyK).e (pack 16 (hexBytes 16 0x00112233445566778899AABBCCDDEEFF))).toList
      = hexBytes 16 0x69C4E0D86A7B0430D8CDB78070B4C55A := by
  decide +kernel

theorem test_aes192 :
    ((aesUnder (upto 24)).e (pack 16 (hexBytes 16 0x00112233445566778899AABBCCDDEEFF))).toList
      = hexBytes 16 0xDDA97CA4864CDFE06EAF70A0EC0D7191 := by
  decide +kernel

theorem test_aes256 :
    ((aesUnder (upto 32)).e (pack 16 (hexBytes 16 0x00112233445566778899AABBCCDDEEFF))).toList
      = hexBytes 16 0x8EA2B7CA516745BFEAFC49904B496089 := by
  decide +kernel

theorem test_aes128_inverse :
    ((aesUnder keyK).d (pack 16 (hexBytes 16 0x69C4E0D86A7B0430D8CDB78070B4C55A))).toList
      = hexBytes 16 0x00112233445566778899AABBCCDDEEFF := by
  decide +kernel

/-! ### The commands, one completion step each -/

/-- V7.8. -/
theorem test_nop : seen .enc (exec (.nop .enc) (issued .enc (snap 0 0 []) State.reset)) = some (0x00000002, 0, []) := by
  decide

/-- An idle channel has no completion step (44_control.md R163, log 9). -/
theorem test_nop_idle : exec (.nop .enc) State.reset = .fault .noCommandPending := by
  rfl

/-- V7.1. -/
theorem test_setkey :
    (after (exec (.setkey .enc) (issued .enc (snap 1 16 []) State.reset))).map
        (fun t => (statusWord t .enc, statusWord t .dec, t.activeKey))
      = some (0x00000022, 0x00000020, keyK) := by
  decide

/-- V7.3. -/
theorem test_setkey_length :
    (after (exec (.setkey .enc) (issued .enc (snap 1 32 []) keyed))).map (fun t => (statusWord t .enc, t.activeKey))
      = some (0x00000226, keyK) := by
  decide

/-- V7.6: 24 bytes, whatever they are. -/
theorem test_genkey :
    (after (exec (.genkey .enc) (issued .enc (snap 2 0 []) (State.resetOf 1 4096)))).map
        (fun t => (statusWord t .enc, (t.chan .enc).outLen))
      = some (0x00000022, 24) := by
  decide

/-- V7.7. -/
theorem test_genkey_algorithm :
    seen .dec (exec (.genkey .dec) (issued .dec (snap 2 0 []) (State.resetOf 0xFF 4096))) = some (0x00000106, 0, []) := by
  decide

/-- V4.6. -/
theorem test_encrypt_steals :
    seen .enc (exec (.encrypt .enc true) (issued .enc (snap 0x103 20 (List.replicate 20 0x41)) keyed))
      = some (0x00000022, 20, hexBytes 20 0x7EEB012FD580420455F55157B7DC8951C20240CB) := by
  decide +kernel

/-- V4.1. -/
theorem test_encrypt_empty :
    seen .enc (exec (.encrypt .enc true) (issued .enc (snap 0x103 0 []) keyed))
      = some (0x00000032, 16, hexBytes 16 0xC8EDC4FBE8C8430B099627869B7F8C99) := by
  decide +kernel

/-- V5.10. -/
theorem test_decrypt_steals :
    seen .dec (exec (.decrypt .dec true false)
        (issued .dec (snap 0x104 20 (hexBytes 20 0x7EEB012FD580420455F55157B7DC8951C20240CB)) keyed))
      = some (0x00000022, 20, List.replicate 20 0x41) := by
  decide +kernel

/-- V5.1: the padding bytes before the last one are not looked at. -/
theorem test_decrypt_padding :
    seen .dec (exec (.decrypt .dec true true)
        (issued .dec (snap 0x304 16 (hexBytes 16 0xD2670F31C1EC88349F0FE26C44211543)) keyed))
      = some (0x00000022, 13, List.replicate 13 0x41) := by
  decide +kernel

/-- P4: `CTS_ENC_INIT mode2` is stored. -/
theorem test_cts_enc_init :
    (after (exec (.ctsEncInit .enc false .mode2) (issued .enc (snap 0x805 0 []) keyed))).map
        (fun t => (statusWord t .enc, ctsStateWord t))
      = some (0x00000022, 0x00000180) := by
  decide

/-- P3, the first line of the decode, on a block whose other direction is as after reset. -/
theorem test_cts_dec_init :
    (after (exec (.ctsDecInit .dec true .cbc) (issued .dec (snap 0x105 0 []) keyed))).map
        (fun t => (ctsStateWord t, (t.codec .dec).chain))
      = some (0x01000000, ivV) := by
  decide

/-- P3, the third update. -/
theorem test_cts_enc_update :
    let s := keyed.setCodec .enc (stream .cbc ivV (upto 16) ((upto 23).drop 16))
    let o := exec (.ctsEncUpdate .enc) (issued .enc (snap 6 20 ((upto 43).drop 23)) s)
    seen .enc o = some (0x00000022, 16, hexBytes 16 0x68B3DAE8B93056802C40A30F20E0BED8)
      ∧ (after o).map ctsStateWord = some 0x0000012B := by
  decide +kernel

/-- 42_cts_codec.md R110, as P4: the mode is checked before the bytes are taken. -/
theorem test_cts_enc_update_mode :
    seen .enc (exec (.ctsEncUpdate .enc)
        (issued .enc (snap 6 0 []) (keyed.setCodec .enc { Codec.reset with cmode := .mode2 })))
      = some (0x00000526, 0, []) := by
  decide

/-- V6.8, the decode update, from the start of the stream. -/
theorem test_cts_dec_update :
    let s := keyed.setCodec .dec (Codec.reset.start ivV .cbc)
    let o := exec (.ctsDecUpdate .dec) (issued .dec (snap 6 33 (hexBytes 33
      0x68B3DAE8B93056802C40A30F20E0BED88FC19EAA7DB55ED9EBC5BE4E0DB2DE63F2)) s)
    seen .dec o = some (0x00000022, 16, upto 16)
      ∧ (after o).map (fun t => ((t.codec .dec).blen, (t.codec .dec).fused)) = some (1, true) := by
  decide +kernel

/-- V6.2 and V6.4, the short ECB stream: 20 bytes, the stolen ending. -/
theorem test_cts_enc_final_ecb :
    seen .enc (exec (.ctsEncFinal .enc)
        (issued .enc (snap 7 0 []) (keyed.setCodec .enc (stream .ecb ivV (upto 16) ((upto 20).drop 16)))))
      = some (0x00000022, 20, hexBytes 20 0xFDDA6BE36CE1C039D6F994E314FAE2E00A940BB5) := by
  decide +kernel

/-- V6.7: a full tail, so that the two last blocks come out swapped. -/
theorem test_cts_enc_final_cbc :
    seen .enc (exec (.ctsEncFinal .enc)
        (issued .enc (snap 7 0 []) (keyed.setCodec .enc (stream .cbc ivV (upto 16) ((upto 32).drop 16)))))
      = some (0x00000022, 32, hexBytes 32 0xF2A15883559E8D2296F1AAAA65080D6568B3DAE8B93056802C40A30F20E0BED8) := by
  decide +kernel

/-- V6.2, the decode final. -/
theorem test_cts_dec_final_ecb :
    seen .dec (exec (.ctsDecFinal .dec) (issued .dec (snap 7 0 []) (keyed.setCodec .dec
        (stream .ecb ivV (hexBytes 16 0xFDDA6BE36CE1C039D6F994E314FAE2E0) (hexBytes 4 0x0A940BB5)))))
      = some (0x00000022, 20, upto 20) := by
  decide +kernel

/-- V6.6, the decode final. -/
theorem test_cts_dec_final_cbc :
    seen .dec (exec (.ctsDecFinal .dec) (issued .dec (snap 7 0 []) (keyed.setCodec .dec
        (stream .cbc ivV (hexBytes 16 0xFC2CCB8E0DDAEDE10DC75468174ED4C3) (hexBytes 4 0x68B3DAE8)))))
      = some (0x00000022, 20, upto 20) := by
  decide +kernel

/-- V2.1, and V2.5: no key and no algorithm is needed. -/
theorem test_iv_derive :
    seen .enc (exec (.ivDerive .enc true) (issued .enc (snap 0x108 0 []) (State.resetOf 7 4096)))
      = some (0x00000002, 16, ivV.toList) := by
  decide +kernel

/-- V2.3. -/
theorem test_iv_derive_zero :
    seen .enc (exec (.ivDerive .enc false) (issued .enc (snap 0x008 0 []) State.reset))
      = some (0x00000002, 16, List.replicate 16 0) := by
  decide

/-- The state of V7.9: after a padded message on channel 0, `ZEROIZE` accepted on channel 1. -/
def padded : State :=
  issued .dec (snap 9 0 []) (((keyed.setCodec .enc { Codec.reset with chain := ivV, pmode := .rtp }).setChan .enc
    { Channel.reset with outLen := 16, status := { Status.reset with done := true, rtpPadOut := true } }).setMem
    [(0x4000, 0x8B)])

/-- V7.9: what the host sees. -/
theorem test_zeroize :
    (after (exec (.zeroize .dec) padded)).map
        (fun t => (statusWord t .enc, statusWord t .dec, ctsStateWord t, (t.chan .enc).outLen))
      = some (0x00000002, 0x00000002, 0, 0) := by
  decide

/-- V7.9: what it destroys. -/
theorem test_zeroize_data :
    (after (exec (.zeroize .dec) padded)).map (fun t => (t.mem.length, t.key.toList)) = some (0, List.replicate 32 0) := by
  decide

/-- 30_encoding.md R78, with a key (95_test_vectors.md §2.3). -/
theorem test_illegal_word :
    seen .enc (step ((issued .enc (snap 0x00000020 0 []) keyed).setAgenda [.completion .enc])) = some (0x00000826, 0, []) := by
  decide

/-! ### The host port (95_test_vectors.md §2.8) -/

/-- V8.1. -/
theorem test_alg_word :
    algWord (State.resetOf 0 4096) = 0x10100100 ∧ algWord (State.resetOf 1 4096) = 0x10180101
      ∧ algWord (State.resetOf 2 4096) = 0x10200102 ∧ algWord (State.resetOf 7 4096) = 0x10000007 := by
  decide

/-- V8.2. -/
theorem test_info_word : readOf 0x004 State.reset = some (.data 0x00001000) := by
  decide

/-- V8.3. -/
theorem test_keywin_write_only : (writeTo 0x040 0x03020100 State.reset).map (fun t => (readOf 0x040 t, t.keywin.toList.take 5))
    = some (some (.data 0), [0, 1, 2, 3, 0]) := by
  decide

/-- V8.4. -/
theorem test_reserved : ∀ off ∈ [0x00C, 0x300, 0xA000], readOf off keyed = some (.data 0) := by
  decide

/-- V8.6. -/
theorem test_bus_errors :
    ∀ a ∈ [HostAccess.read .w8 0x0101, .write .w16 0x2000 0xFFFF, .read .w32 0x0102],
      after (step (keyed.setAgenda [.host a])) = some (keyed.setBus .accessFault) := by
  decide

/-- V8.7. -/
theorem test_seq_write :
    ((writeTo 0x114 0xBBAA0100 State.reset).bind (writeTo 0x118 0x0000DDCC)).map (fun t => ((t.chan .enc).seq, readOf 0x118 t))
      = some (seqV, some (.data 0x0000DDCC)) := by
  decide

/-- V8.8. -/
theorem test_in_write :
    (writeTo 0x2000 0x44434241 State.reset).map (·.mem)
      = some [(0x2000, 0x41), (0x2001, 0x42), (0x2002, 0x43), (0x2003, 0x44)] := by
  decide

/-- V8.9. -/
theorem test_status_write :
    let s := keyed.setChan .enc { Channel.reset with status := { Status.reset with done := true } }
    (writeTo 0x104 0x00000002 s).map (statusWord · .enc) = some 0x00000020
      ∧ (writeTo 0x104 0x00000001 s).map (statusWord · .enc) = some 0x00000022 := by
  decide

/-- V8.10. -/
theorem test_irq_done :
    let s := issued .enc (snap 0 0 []) (State.reset.setChan .enc { Channel.reset with doneEn := true })
    ((after (exec (.nop .enc) s)).map State.irq, ((after (exec (.nop .enc) s)).bind (writeTo 0x104 0xA)).map State.irq)
      = (some true, some false) := by
  decide

/-- V8.11. -/
theorem test_overrun :
    let s := issued .dec (snap 0 16 []) (State.reset.setChan .dec { Channel.reset with ovrEn := true })
    (writeTo 0x20C 5 s).map (fun t => ((t.chan .dec).len, (t.chan .dec).status.overrun, t.irq)) = some (16, true, true) := by
  decide

/-- V8.12. -/
theorem test_cts_state_word :
    ctsStateWord ((State.reset.setCodec .enc { Codec.reset with blen := 11, fused := true, pmode := .none }).setCodec .dec
      { Codec.reset with blen := 4, fused := true, cmode := .ecb, pmode := .none }) = 0x0164012B := by
  decide

/-- 44_control.md R162: a write to `CMD[0]` takes the snapshot. -/
theorem test_accept :
    let s := (State.reset.setMem [(0x2000, 0x41)]).setChan .enc { Channel.reset with len := 2, seq := seqV }
    (writeTo 0x100 0x103 s).map (fun t => (t.chan .enc).pending)
      = some (some { word := 0x103, len := 2, seq := seqV, inp := [0x41, 0], keywin := Vector.replicate 32 0 }) := by
  decide

/-! ### The hypotheses of the statements can be met, clause by clause, at the boundary values -/

/-- `n` bytes of `0x41`. -/
def msg (n : Nat) : Bytes := List.replicate n 0x41

/-- `ENCRYPT seq` of `n` bytes accepted, key `K` installed. -/
def encOf (n : Nat) : State := issued .enc (snap 0x103 n (msg n)) keyed

/-- `DECRYPT` with command word `w` of `n` bytes accepted, key `K` installed. -/
def decOf (w : Word) (n : Nat) : State := issued .dec (snap w n (msg n)) keyed

theorem test_hyps_control :
    (issued .enc (snap 0 0 []) State.reset).Pends .enc (snap 0 0 [])
      ∧ (issued .dec (snap 9 0 []) State.reset).Pends .dec (snap 9 0 []) := by
  decide

theorem test_hyps_ivDerive :
    (issued .dec (snap 0x108 0 []) State.reset).Pends .dec (snap 0x108 0 [])
      ∧ (issued .dec (snap 0x108 0 []) State.reset).mem.wf = true := by
  decide

theorem test_hyps_setkey :
    [0, 1, 2].all (fun a => let s := issued .enc (snap 1 (keyLength a) []) (State.resetOf a 4096)
      s.Pends .enc (snap 1 (keyLength a) []) && algRecognised s.algId
        && (snap 1 (keyLength a) []).n = keyLength s.algId) = true := by
  decide

theorem test_hyps_keyCommandsRefuse :
    ((issued .enc (snap 1 16 []) (State.resetOf 3 4096)).Pends .enc (snap 1 16 []) ∧ algRecognised 3 = false)
      ∧ (issued .enc (snap 1 17 []) State.reset).Pends .enc (snap 1 17 []) ∧ algRecognised State.reset.algId = true
      ∧ (snap 1 17 []).n ≠ keyLength State.reset.algId ∧ (snap 1 15 []).n ≠ keyLength State.reset.algId := by
  decide

theorem test_hyps_genkey :
    let s := issued .dec (snap 2 0 []) (State.resetOf 2 4096)
    s.Pends .dec (snap 2 0 []) ∧ s.mem.wf = true ∧ algRecognised s.algId = true := by
  decide

/-- A snapshot of `n` bytes of data holds them all. -/
theorem snap_n (w : Word) (n : Nat) (h : n < 65536) : (snap w n (msg n)).n = n ∧ (snap w n (msg n)).Whole := by
  simp [snap, msg, Snapshot.Whole, Snapshot.n]
  omega

/-- What the three `ENCRYPT` statements share, for a length. -/
theorem test_hyps_encrypt :
    ∀ n ∈ [0, 15, 16, 17, 4095, 4096], (encOf n).Pends .enc (snap 0x103 n (msg n)) ∧ (encOf n).mem.wf = true
      ∧ (snap 0x103 n (msg n)).Whole ∧ (snap 0x103 n (msg n)).n ≤ (encOf n).maxLen ∧ (encOf n).Keyed
      ∧ (snap 0x103 n (msg n)).n = n := by
  intro n h
  have h1 := snap_n 0x103 n (by simp at h; omega)
  refine ⟨rfl, rfl, h1.2, h1.1.trans_le ?_, ⟨rfl, rfl⟩, h1.1⟩
  change n ≤ 4096
  simp at h
  omega

theorem test_hyps_encryptRefuses :
    (encOf 4097).Pends .enc (snap 0x103 4097 (msg 4097)) ∧ (encOf 4097).maxLen < (snap 0x103 4097 (msg 4097)).n
      ∧ algRecognised (issued .enc (snap 0x103 16 (msg 16)) (State.resetOf 3 4096)).algId = false
      ∧ (issued .enc (snap 0x103 16 (msg 16)) State.reset).keyValid = false :=
  ⟨rfl, by decide, rfl, rfl⟩

/-- What the `DECRYPT` statements share, for a length. -/
theorem test_hyps_decrypt :
    ∀ n ∈ [0, 1, 15, 16, 17, 4095, 4096], (decOf 0x304 n).Pends .dec (snap 0x304 n (msg n)) ∧ (decOf 0x304 n).mem.wf = true
      ∧ (snap 0x304 n (msg n)).Whole ∧ (snap 0x304 n (msg n)).n ≤ (decOf 0x304 n).maxLen ∧ (decOf 0x304 n).Keyed
      ∧ (snap 0x304 n (msg n)).n = n := by
  intro n h
  have h1 := snap_n 0x304 n (by simp at h; omega)
  refine ⟨rfl, rfl, h1.2, h1.1.trans_le ?_, ⟨rfl, rfl⟩, h1.1⟩
  change n ≤ 4096
  simp at h
  omega

theorem test_hyps_decryptRefuses :
    (decOf 0x104 4097).Pends .dec (snap 0x104 4097 (msg 4097)) ∧ (decOf 0x104 4097).maxLen < (snap 0x104 4097 (msg 4097)).n
      ∧ algRecognised (issued .dec (snap 0x104 16 (msg 16)) (State.resetOf 3 4096)).algId = false
      ∧ (issued .dec (snap 0x104 16 (msg 16)) State.reset).keyValid = false :=
  ⟨rfl, by decide, rfl, rfl⟩

/-- A keyed block with a stream of `b` buffered bytes in direction `d`, and the update or final accepted. -/
def streaming (d : Chan) (mode : CtsMode) (b : Nat) (p : Snapshot) : State :=
  issued d p (keyed.setCodec d (stream mode ivV (upto 16) (upto b)))

theorem test_hyps_ctsInit :
    (issued .enc (snap 5 0 []) State.reset).Pends .enc (snap 5 0 [])
      ∧ (issued .dec (snap 0xC05 0 []) State.reset).Pends .dec (snap 0xC05 0 []) := by
  decide

/-- 1 + 15 bytes stay within a block, 1 + 16 do not. -/
theorem test_hyps_ctsUpdate :
    ∀ n ∈ [0, 15, 16, 4096],
      (streaming .dec .ecb 1 (snap 6 n (msg n))).Pends .dec (snap 6 n (msg n))
        ∧ (streaming .dec .ecb 1 (snap 6 n (msg n))).mem.wf = true ∧ (snap 6 n (msg n)).Whole
        ∧ (snap 6 n (msg n)).n ≤ (streaming .dec .ecb 1 (snap 6 n (msg n))).maxLen
        ∧ ((streaming .dec .ecb 1 (snap 6 n (msg n))).codec .dec).Supported
        ∧ (streaming .dec .ecb 1 (snap 6 n (msg n))).Keyed
        ∧ ((streaming .dec .ecb 1 (snap 6 n (msg n))).codec .dec).blen + (snap 6 n (msg n)).n = 1 + n := by
  intro n h
  have h1 := snap_n 6 n (by simp at h; omega)
  refine ⟨rfl, rfl, h1.2, h1.1.trans_le ?_, .inr rfl, ⟨rfl, rfl⟩, by rw [h1.1]; rfl⟩
  change n ≤ 4096
  simp at h
  omega

theorem test_hyps_ctsUpdate_ok : ((streaming .dec .ecb 1 (snap 6 16 (msg 16))).codec .dec).Ok :=
  ⟨by decide, by decide⟩

theorem test_hyps_ctsRefuse :
    4096 < (snap 6 4097 (msg 4097)).n
      ∧ ¬((streaming .enc .mode2 1 (snap 6 0 [])).codec .enc).Supported
      ∧ ¬((streaming .enc .mode3 1 (snap 6 0 [])).codec .enc).Supported
      ∧ (issued .enc (snap 6 0 []) (State.resetOf 3 4096)).Pends .enc (snap 6 0 []) ∧ algRecognised 3 = false
      ∧ ((State.resetOf 3 4096).codec .enc).Supported ∧ State.reset.keyValid = false
      ∧ (State.reset.codec .dec).fused = false ∧ (streaming .dec .cbc 0 (snap 7 0 [])).Keyed
      ∧ ((streaming .dec .cbc 0 (snap 7 0 [])).codec .dec).fused = true
      ∧ ((streaming .dec .cbc 0 (snap 7 0 [])).codec .dec).blen = 0 := by
  decide

/-- The finals, in each mode and direction, with one byte buffered and with sixteen. -/
theorem test_hyps_ctsFinal :
    [1, 16].all (fun b => [CtsMode.ecb, .cbc].all fun m => [Chan.enc, .dec].all fun d =>
      (streaming d m b (snap 7 0 [])).Pends d (snap 7 0 []) && (streaming d m b (snap 7 0 [])).mem.wf
        && ((streaming d m b (snap 7 0 [])).codec d).cmode = m && decide (streaming d m b (snap 7 0 [])).Keyed
        && ((streaming d m b (snap 7 0 [])).codec d).fused && ((streaming d m b (snap 7 0 [])).codec d).blen = b) = true := by
  decide

theorem test_hyps_ctsFinal_ok :
    ((streaming .enc .cbc 1 (snap 7 0 [])).codec .enc).Ok ∧ ((streaming .dec .cbc 16 (snap 7 0 [])).codec .dec).Ok
      ∧ ((streaming .enc .ecb 16 (snap 7 0 [])).codec .enc).Ok :=
  ⟨⟨by decide, by decide⟩, ⟨by decide, by decide⟩, ⟨by decide, by decide⟩⟩

theorem test_hyps_xs :
    (upto 32).length % 16 = 0 ∧ ([] : Bytes).length % 16 = 0 ∧ (Codec.reset.start ivV .cbc).cmode = .cbc
      ∧ (Codec.reset.start ivV .ecb).cmode = .ecb := by
  decide

/-- For the statements about streams: an empty direction, and streams of 16 and of 17 bytes in two chunks. -/
theorem test_hyps_streams :
    (Codec.reset.start ivV .cbc).Empty ∧ [upto 10, upto 6].flatten.length = 16 ∧ [upto 10, upto 7].flatten.length = 17
      ∧ [upto 10, (upto 17).drop 10].flatten = [upto 17].flatten :=
  ⟨⟨rfl, rfl⟩, by decide, by decide, by decide⟩

/-- A block transform with the law of 00_scope.md R9: reversing the bytes. -/
def reversing : KeyedCipher := { e := Vector.reverse, d := Vector.reverse }

/-- For the step lemma of the buffer: nothing taken yet, a block taken, and one byte more, with a pending block. -/
theorem test_hyps_bufferStep :
    ∃ s0 : Codec, Codec.HasTaken reversing .enc s0 [] [] s0
      ∧ Codec.HasTaken reversing .dec s0 (upto 16) [] { s0 with buf := pack 16 (upto 16), blen := 16 }
      ∧ Codec.HasTaken reversing .enc s0 (upto 17) [] { s0 with
          buf := pack 16 [16], blen := 1, fin := pack 16 (upto 16), fused := true } :=
  ⟨Codec.reset.start ivV .cbc,
    ⟨rfl, rfl, fun _ => by decide, fun h => absurd h (by decide)⟩,
    ⟨rfl, rfl, fun _ => by decide, fun h => absurd h (by decide)⟩,
    ⟨rfl, rfl, fun h => absurd h (by decide), fun _ => ⟨rfl, rfl, by decide, by decide, rfl, rfl⟩⟩⟩

theorem test_hyps_streamDecode :
    reversing.Inverse ∧ (Codec.reset.start ivV .cbc).Empty ∧ (Codec.reset.start ivV .cbc).Supported
      ∧ 16 < [upto 10, (upto 17).drop 10].flatten.length
      ∧ ∃ out, streamOut reversing .enc [upto 10, (upto 17).drop 10] (Codec.reset.start ivV .cbc) = .ok out
          ∧ [out].flatten = out :=
  ⟨⟨fun x => by simp [reversing], fun x => by simp [reversing]⟩, ⟨rfl, rfl⟩, by decide, by decide, _, rfl, by simp⟩

/-- The round trip: the state after encrypting 20 bytes, and the snapshot of its output on channel 1. -/
def encrypted : State := (after (exec (.encrypt .enc true) (encOf 20))).getD State.reset

/-- See `encrypted`. -/
def returned : Snapshot :=
  { word := 0x104, len := (encrypted.chan .enc).outLen, seq := seqV
    inp := encrypted.mem.readBytes (outBase .enc) 20, keywin := pack 32 keyK }

theorem test_hyps_roundTrip :
    let u := issued .dec returned encrypted
    (encOf 20).Pends .enc (snap 0x103 20 (msg 20)) ∧ (snap 0x103 20 (msg 20)).Whole ∧ (encOf 20).Keyed
      ∧ u.Pends .dec returned ∧ u.algId = encrypted.algId ∧ u.keyValid = encrypted.keyValid
      ∧ returned.seq = (snap 0x103 20 (msg 20)).seq ∧ returned.len = (encrypted.chan .enc).outLen := by
  decide +kernel

theorem test_hyps_roundTrip_data :
    (issued .dec returned encrypted).mem.wf = true ∧ (issued .dec returned encrypted).key.toList = encrypted.key.toList
      ∧ returned.inp = encrypted.mem.readBytes (outBase .enc) returned.n
      ∧ returned.n ≤ (issued .dec returned encrypted).maxLen := by
  decide +kernel

theorem test_hyps_roundTrip_step : exec (.encrypt .enc true) (encOf 20) = .next encrypted := rfl

theorem test_hyps_everyCommand :
    (encOf 20).Pends (Instr.encrypt .enc true).chan (snap 0x103 20 (msg 20)) := by
  decide

theorem test_hyps_failure :
    ∃ t, exec (.encrypt .enc true) (issued .enc (snap 0x103 0 []) State.reset) = .next t
      ∧ (t.chan (Instr.encrypt .enc true).chan).status.err = true :=
  ⟨_, rfl, rfl⟩

theorem test_hyps_wrongChannel :
    (Instr.encrypt .dec true).wellFormed = false
      ∧ (issued .dec (snap 0x103 0 []) State.reset).Pends (Instr.encrypt .dec true).chan (snap 0x103 0 []) := by
  decide

/-- Both channels busy, key `K` installed. -/
def bothBusy : State :=
  issued .dec (snap 0x108 0 []) (issued .enc (snap 0x103 20 (msg 20)) keyed)

/-- A state in which much has happened meets the invariant. -/
theorem test_bothBusy_inv : bothBusy.Inv where
  maxLen_ge := by decide
  maxLen_le := by decide
  mem_wf := by decide
  mem_windows := fun _ h => absurd rfl h
  codec_ok := fun d => by cases d <;> exact ⟨by decide, by decide⟩
  chan_ok := fun c => by
    cases c <;>
      exact ⟨by decide, by decide, by decide, by decide, fun _ h => by cases h; rfl, fun _ h => by cases h; rfl,
        fun _ h => by cases h; rfl⟩
  key_alg := by decide
  key_tail := fun _ i h h' => by
    have h16 : 16 ≤ i := h
    have key : ∀ j : Fin 32, 16 ≤ j.val → bothBusy.key.toList.getD j.val 0 = 0 := by decide
    exact key ⟨i, h'⟩ h16
  key_clear := by decide
  rtp_dec := by decide

/-- For `CommandsWriteOnlyTheirOwn`, `DirectionsAreIsolated` and `CommandsOfTheTwoChannelsCommute`. -/
theorem test_hyps_commute :
    bothBusy.Inv ∧ (Instr.encrypt .enc true).chan = .enc ∧ (Instr.ivDerive .dec true).chan = .dec
      ∧ (∀ c, Instr.encrypt .enc true ≠ .setkey c ∧ Instr.encrypt .enc true ≠ .genkey c
          ∧ Instr.encrypt .enc true ≠ .zeroize c)
      ∧ (∀ c, Instr.ivDerive .dec true ≠ .setkey c ∧ Instr.ivDerive .dec true ≠ .genkey c
          ∧ Instr.ivDerive .dec true ≠ .zeroize c)
      ∧ (∃ t, exec (.encrypt .enc true) bothBusy = .next t) ∧ ∃ t, exec (.ivDerive .dec true) bothBusy = .next t :=
  ⟨test_bothBusy_inv, rfl, rfl, fun _ => ⟨nofun, nofun, nofun⟩, fun _ => ⟨nofun, nofun, nofun⟩, ⟨_, rfl⟩, ⟨_, rfl⟩⟩

/-- For the statements about one write: `s` with the write on the agenda, on an idle and on a busy channel. -/
theorem test_hyps_writes :
    (keyed.setAgenda [writeEvent (pageBase .enc) 0x103]).agenda = writeEvent (pageBase .enc) 0x103 :: []
      ∧ (keyed.setAgenda [writeEvent (pageBase .enc) 0x103]).busy .enc = false
      ∧ (bothBusy.setAgenda [writeEvent (pageBase .dec) 0x103]).busy .dec = true ∧ bothBusy.maxLen ≤ 8176 := by
  decide

/-- The first and last words of an input window, also of one whose capacity is no multiple of 4. -/
theorem test_hyps_input_window :
    [0, 4092].all (fun i => i % 4 = 0 && i < keyed.maxLen
        && (keyed.setAgenda [writeEvent (inBase .dec + i) 7]).agenda = [writeEvent (inBase .dec + i) 7]) = true
      ∧ keyed.busy .dec = false ∧ keyed.mem.wf = true ∧ keyed.maxLen ≤ 8176
      ∧ 1040 % 4 = 0 ∧ 1040 < (State.resetOf 0 1041).maxLen := by
  decide

/-- Both ends of every reserved range, for the default capacity. -/
theorem test_hyps_reserved :
    ∀ off ∈ [0x000C, 0x003C, 0x0060, 0x00FC, 0x011C, 0x01FC, 0x021C, 0x1FFC, 0x3000, 0x3FFC, 0x5010, 0x5FFC, 0x7000,
      0x7FFC, 0x9010, 0x9FFC, 0xA000, 0xFFFC], off % 4 = 0 ∧ reservedOffset keyed.maxLen off := by
  unfold reservedOffset
  decide

/-- The ends of the windows and of the staging window, in a state of which one channel is busy; and a word that straddles
the capacity, of a `MAX_LEN` that is no multiple of 4. -/
theorem test_hyps_reads :
    4092 % 4 = 0 ∧ 4092 + 3 < keyed.maxLen ∧ 4108 % 4 = 0 ∧ 4108 + 3 < keyed.maxLen + 16 ∧ 8188 % 4 = 0 ∧ 8188 < 0x2000
      ∧ (issued .enc (snap 0 0 []) keyed).busy .enc = true ∧ (issued .enc (snap 0 0 []) keyed).busy .dec = false
      ∧ keyed.busy .enc = false ∧ keyed.busy .dec = false ∧ 0x40 ≤ 0x5C ∧ 0x5C < 0x60
      ∧ 1040 % 4 = 0 ∧ 1040 + 0 < (State.resetOf 0 1041).maxLen ∧ (State.resetOf 0 1041).maxLen ≤ 1040 + 1
      ∧ ((issued .enc (snap 0 0 []) keyed).setAgenda [readEvent 8]).agenda = readEvent 8 :: []
      ∧ (keyed.setAgenda [readEvent 0x5C]).agenda = readEvent 0x5C :: [] := by
  decide

theorem test_hyps_misaligned :
    (Width.w8 ≠ .w32 ∨ (0x0100#16).toNat % 4 ≠ 0) ∧ (Width.w32 ≠ .w32 ∨ (0x0102#16).toNat % 4 ≠ 0)
      ∧ (keyed.setAgenda [.host (.read .w32 0x0102)]).agenda = .host (.read .w32 0x0102) :: [] := by
  decide

/-- Two states that differ in their secrets: only the second has a key whose bytes are all 1. -/
theorem test_hyps_secrets :
    ∃ s u : State, s.agenda = [.host (.read .w32 0x0008)] ∧ s.key ≠ u.key
      ∧ u = (((s.setKey (Vector.replicate 32 1) s.keyValid).setKeywin (Vector.replicate 32 1)).setCodec .enc
          { s.codec .enc with buf := ivV, fin := ivV, chain := ivV }).setCodec .dec
          { s.codec .dec with buf := ivV, fin := ivV, chain := ivV } :=
  ⟨keyed.setAgenda [.host (.read .w32 0x0008)], _, rfl, by decide, rfl⟩

theorem test_hyps_fields :
    (∀ d, (State.reset.codec d).Ok) ∧ (stream .ecb ivV (upto 16) (upto 16)).Ok ∧ (State.resetOf 2 8176).maxLen ≤ 8176
      ∧ (State.resetOf 0 1040).maxLen ≤ 8176 :=
  ⟨fun d => by cases d <;> exact ⟨by decide, by decide⟩, ⟨by decide, by decide⟩, by decide, by decide⟩

/-- The three clauses of a completion step: a command, an ILLEGAL word, an idle channel. -/
theorem test_hyps_step :
    (bothBusy.setAgenda [.completion .enc]).Pends .enc (snap 0x103 20 (msg 20))
      ∧ decode .enc (snap 0x103 20 (msg 20)).word = .ok (.encrypt .enc true)
      ∧ decode .dec (snap 0x103 20 (msg 20)).word = .error .wrongChannel
      ∧ (issued .dec (snap 0x103 20 (msg 20)) keyed).Pends .dec (snap 0x103 20 (msg 20))
      ∧ (keyed.chan .enc).pending = none ∧ (bothBusy.setAgenda [.completion .enc]).agenda = .completion .enc :: []
      ∧ (bothBusy.setAgenda [.reset]).agenda = .reset :: [] := by
  decide

/-- `State.reset` meets the invariant, so that the premise of `StepKeepsInv` can be met, and a step goes on from it. -/
theorem test_reset_inv : State.reset.Inv where
  maxLen_ge := by decide
  maxLen_le := by decide
  mem_wf := by decide
  mem_windows := fun _ h => absurd rfl h
  codec_ok := fun d => by cases d <;> exact ⟨by decide, by decide⟩
  chan_ok := fun c => by
    cases c <;> exact ⟨by decide, by decide, by decide, by decide, nofun, nofun, nofun⟩
  key_alg := by decide
  key_tail := by decide
  key_clear := by decide
  rtp_dec := by decide

theorem test_hyps_inv :
    (bothBusy.setAgenda [.completion .enc]).Inv ∧ ∃ t, step (bothBusy.setAgenda [.completion .enc]) = .next t :=
  let h := test_bothBusy_inv
  ⟨⟨h.maxLen_ge, h.maxLen_le, h.mem_wf, h.mem_windows, fun d => by cases d; exacts [h.codec_ok .enc, h.codec_ok .dec],
    fun c => by cases c; exacts [h.chan_ok .enc, h.chan_ok .dec], h.key_alg, h.key_tail, h.key_clear, h.rtp_dec⟩, _, rfl⟩

theorem test_hyps_drain : bothBusy.agenda = [] ∧ bothBusy.busy .enc = true ∧ bothBusy.busy .dec = true := by
  decide

theorem test_hyps_irq :
    (keyed.setAgenda [writeEvent (pageBase .enc + 4) 0x0000000A, writeEvent (pageBase .dec + 4) 0x0000000A]).agenda
      = writeEvent (pageBase .enc + 4) 0x0000000A :: writeEvent (pageBase .dec + 4) 0x0000000A :: [] := by
  decide

end Sys2Proof.Tests
end

section
/-!
SUPPORT. The law of the block transform (00_scope.md R9) for the AES of log 1: each layer of a round undoes its inverse layer,
in both orders, and so do the cipher and the inverse cipher under any list of round keys. `MixColumns` is a polynomial with
`c^4 = 1`, and `InvMixColumns` is `c^3`: one identity gives both orders.
-/

namespace Sys2Proof.Machine.Aes

/-! ### Bytes -/

@[simp] theorem invSbox_sbox : ∀ b : Byte, invSbox (sbox b) = b := by decide

@[simp] theorem sbox_invSbox : ∀ b : Byte, sbox (invSbox b) = b := by decide

theorem byte_xor_left_comm (a b c : Byte) : a ^^^ (b ^^^ c) = b ^^^ (a ^^^ c) := by ac_rfl

/-- Multiplication by `x` is linear. -/
theorem xtime_xor (a b : Byte) : xtime (a ^^^ b) = xtime a ^^^ xtime b := by
  rw [xtime, xtime, xtime, BitVec.shiftLeft_xor_distrib, BitVec.msb_xor]
  cases a.msb <;> cases b.msb <;> simp [BitVec.xor_assoc, BitVec.xor_comm, byte_xor_left_comm]

/-! ### Columns -/

@[simp] theorem Col.xor_xor_cancel (a k : Col) : (a.xor k).xor k = a := by
  simp [Col.xor]

/-- The sum of the four bytes of a column, which `MixColumns` keeps. -/
def Col.sum (a : Col) : Byte :=
  a.r0 ^^^ a.r1 ^^^ a.r2 ^^^ a.r3

/-- A byte added to the sum of its column leaves the other three. -/
theorem Col.xor_sum (a : Col) :
    a.r0 ^^^ a.sum = a.r1 ^^^ a.r2 ^^^ a.r3 ∧ a.r1 ^^^ a.sum = a.r0 ^^^ a.r2 ^^^ a.r3
      ∧ a.r2 ^^^ a.sum = a.r0 ^^^ a.r1 ^^^ a.r3 ∧ a.r3 ^^^ a.sum = a.r0 ^^^ a.r1 ^^^ a.r2 := by
  simp [Col.sum, BitVec.xor_comm, byte_xor_left_comm]

theorem Col.mix_eq (a : Col) : a.mix =
    ⟨a.r0 ^^^ a.sum ^^^ xtime (a.r0 ^^^ a.r1), a.r1 ^^^ a.sum ^^^ xtime (a.r1 ^^^ a.r2),
     a.r2 ^^^ a.sum ^^^ xtime (a.r2 ^^^ a.r3), a.r3 ^^^ a.sum ^^^ xtime (a.r3 ^^^ a.r0)⟩ := by
  obtain ⟨h0, h1, h2, h3⟩ := a.xor_sum
  simp only [Col.mix, mul3, h0, h1, h2, h3, xtime_xor]
  congr 1 <;> ac_rfl

theorem Col.invMix_eq (a : Col) : a.invMix =
    ⟨a.r0 ^^^ a.sum ^^^ xtime (a.r0 ^^^ a.r1 ^^^ xtime (a.r0 ^^^ a.r2 ^^^ xtime a.sum)),
     a.r1 ^^^ a.sum ^^^ xtime (a.r1 ^^^ a.r2 ^^^ xtime (a.r1 ^^^ a.r3 ^^^ xtime a.sum)),
     a.r2 ^^^ a.sum ^^^ xtime (a.r2 ^^^ a.r3 ^^^ xtime (a.r2 ^^^ a.r0 ^^^ xtime a.sum)),
     a.r3 ^^^ a.sum ^^^ xtime (a.r3 ^^^ a.r0 ^^^ xtime (a.r3 ^^^ a.r1 ^^^ xtime a.sum))⟩ := by
  obtain ⟨h0, h1, h2, h3⟩ := a.xor_sum
  simp only [Col.invMix, mul9, mul11, mul13, mul14, h0, h1, h2, h3]
  simp only [Col.sum, xtime_xor]
  congr 1 <;> ac_rfl

@[simp] theorem Col.sum_mix (a : Col) : a.mix.sum = a.sum := by
  rw [mix_eq]
  simp [Col.sum, xtime_xor, BitVec.xor_assoc, BitVec.xor_comm, byte_xor_left_comm]

/-- The square of `MixColumns` multiplies by `x^2` only. -/
theorem Col.mix_mix (a : Col) : a.mix.mix =
    ⟨a.r0 ^^^ xtime (xtime (a.r0 ^^^ a.r2)), a.r1 ^^^ xtime (xtime (a.r1 ^^^ a.r3)),
     a.r2 ^^^ xtime (xtime (a.r2 ^^^ a.r0)), a.r3 ^^^ xtime (xtime (a.r3 ^^^ a.r1))⟩ := by
  rw [mix_eq a.mix, sum_mix, mix_eq a]
  simp [xtime_xor, BitVec.xor_assoc, BitVec.xor_comm, byte_xor_left_comm]

theorem Col.mix_mix_mix (a : Col) : a.mix.mix.mix = a.invMix := by
  rw [mix_eq a.mix.mix, sum_mix, sum_mix, mix_mix, invMix_eq]
  simp only [Col.sum, xtime_xor]
  congr 1 <;> ac_rfl

theorem Col.mix_mix_mix_mix (a : Col) : a.mix.mix.mix.mix = a := by
  rw [mix_mix, mix_mix]
  simp [xtime_xor, BitVec.xor_assoc, BitVec.xor_comm]

@[simp] theorem Col.invMix_mix (a : Col) : a.mix.invMix = a := by
  rw [← mix_mix_mix, mix_mix_mix_mix]

@[simp] theorem Col.mix_invMix (a : Col) : a.invMix.mix = a := by
  rw [← mix_mix_mix, mix_mix_mix_mix]

/-! ### The layers of a round -/

@[simp] theorem St.addKey_addKey (s k : St) : (s.addKey k).addKey k = s := by
  simp [St.addKey]

@[simp] theorem St.invShiftRows_shiftRows (s : St) : s.shiftRows.invShiftRows = s := rfl

@[simp] theorem St.shiftRows_invShiftRows (s : St) : s.invShiftRows.shiftRows = s := rfl

@[simp] theorem St.invSubBytes_subBytes (s : St) : (s.mapCols (·.map sbox)).mapCols (·.map invSbox) = s := by
  simp [St.mapCols, Col.map]

@[simp] theorem St.subBytes_invSubBytes (s : St) : (s.mapCols (·.map invSbox)).mapCols (·.map sbox) = s := by
  simp [St.mapCols, Col.map]

@[simp] theorem St.invMixColumns_mixColumns (s : St) : (s.mapCols Col.mix).mapCols Col.invMix = s := by
  simp [St.mapCols]

@[simp] theorem St.mixColumns_invMixColumns (s : St) : (s.mapCols Col.invMix).mapCols Col.mix = s := by
  simp [St.mapCols]

@[simp] theorem St.ofBlock_toBlock (s : St) : St.ofBlock s.toBlock = s := rfl

@[simp] theorem St.toBlock_ofBlock (x : Block) : (St.ofBlock x).toBlock = x := by
  ext i hi
  interval_cases i <;> rfl

/-! ### The rounds and the ciphers, for any list of round keys -/

@[simp] theorem rounds_singleton (k s : St) : rounds [k] s = (s.mapCols (·.map sbox)).shiftRows.addKey k := rfl

@[simp] theorem invRounds_singleton (k s : St) :
    invRounds [k] s = (s.addKey k).invShiftRows.mapCols (·.map invSbox) := rfl

/-- A round that is not the last. -/
@[simp] theorem rounds_cons_cons (k k' : St) (ks : List St) (s : St) : rounds (k :: k' :: ks) s =
    rounds (k' :: ks) (((s.mapCols (·.map sbox)).shiftRows.mapCols Col.mix).addKey k) := rfl

@[simp] theorem invRounds_cons_cons (k k' : St) (ks : List St) (s : St) : invRounds (k :: k' :: ks) s =
    (((invRounds (k' :: ks) s).addKey k).mapCols Col.invMix).invShiftRows.mapCols (·.map invSbox) := rfl

theorem invRounds_rounds : ∀ (ks : List St) (s : St), invRounds ks (rounds ks s) = s
  | [], _ => rfl
  | [k], s => by simp
  | k :: k' :: ks, s => by simp [invRounds_rounds (k' :: ks)]

theorem rounds_invRounds : ∀ (ks : List St) (s : St), rounds ks (invRounds ks s) = s
  | [], _ => rfl
  | [k], s => by simp
  | k :: k' :: ks, s => by simp [rounds_invRounds (k' :: ks)]

@[simp] theorem invCipher_cipher (ks : List St) (s : St) : invCipher ks (cipher ks s) = s := by
  cases ks with
  | nil => rfl
  | cons k ks => rw [cipher, invCipher, invRounds_rounds, St.addKey_addKey]

@[simp] theorem cipher_invCipher (ks : List St) (s : St) : cipher ks (invCipher ks s) = s := by
  cases ks with
  | nil => rfl
  | cons k ks => rw [cipher, invCipher, St.addKey_addKey, rounds_invRounds]

end Sys2Proof.Machine.Aes

namespace Sys2Proof.Machine

theorem aesUnder_inverse (key : Bytes) : (aesUnder key).Inverse where
  left x := by simp [aesUnder]
  right x := by simp [aesUnder]

/-- Settles O28: every layer of a round is undone, whatever the round keys, so the law needs no fact of the key schedule. -/
theorem aesInverseLaw : Obligations.AesInverseLaw :=
  aesUnder_inverse

end Sys2Proof.Machine
end

section
/-!
SUPPORT. The recognised algorithms and the fields of the words `ALG` and `INFO` (00_scope.md R6, 10_state.md R27, R28).
-/

namespace Sys2Proof.Machine

/-! ### The algorithm codes -/

theorem algRecognised_iff (a : Byte) : algRecognised a = true ↔ a = 0 ∨ a = 1 ∨ a = 2 := by
  simp [algRecognised, or_assoc]

theorem keyLength_of_not_recognised {a : Byte} (h : algRecognised a = false) : keyLength a = 0 := by
  have hn : ¬(a = 0 ∨ a = 1 ∨ a = 2) := by rw [← algRecognised_iff, h]; decide
  obtain ⟨h0, h1, h2⟩ : a ≠ 0 ∧ a ≠ 1 ∧ a ≠ 2 := by simpa only [not_or] using hn
  rw [keyLength, if_neg h0, if_neg h1, if_neg h2]

/-- A key length fills one byte, the field `KEYLEN`. -/
theorem toNat_ofNat_keyLength (a : Byte) : (BitVec.ofNat 8 (keyLength a)).toNat = keyLength a := by
  have h := keyLength_le a
  exact Nat.mod_eq_of_lt (by omega)

/-! ### The fields of `ALG` -/

/-- The word of `ALG` with its key length as the byte it fills. -/
def packAlg (code : Byte) (recognised : Bool) (keyLen : Byte) : Word :=
  code.setWidth 32 ||| bitAt 8 recognised ||| keyLen.setWidth 32 <<< 16 ||| (16 : Word) <<< 24

theorem algWord_eq_packAlg (s : State) :
    algWord s = packAlg s.algId (algRecognised s.algId) (BitVec.ofNat 8 (keyLength s.algId)) := by
  have hk : (BitVec.ofNat 8 (keyLength s.algId)).setWidth 32 = BitVec.ofNat 32 (keyLength s.algId) := by
    apply BitVec.eq_of_toNat_eq
    rw [BitVec.toNat_setWidth, toNat_ofNat_keyLength, BitVec.toNat_ofNat]
  rw [algWord, packAlg, hk]

section
variable (a k : Byte) (r : Bool)

@[simp] theorem packAlg_code : (packAlg a r k).extractLsb' 0 8 = a := by
  ext i hi
  interval_cases i <;> simp [packAlg, bitAt]

@[simp] theorem packAlg_recognised : (packAlg a r k).getLsbD 8 = r := by
  simp [packAlg, bitAt]

@[simp] theorem packAlg_reserved : (packAlg a r k).extractLsb' 9 7 = 0 := by
  ext i hi
  interval_cases i <;> simp [packAlg, bitAt]

@[simp] theorem packAlg_keyLength : (packAlg a r k).extractLsb' 16 8 = k := by
  ext i hi
  interval_cases i <;> simp [packAlg, bitAt]

@[simp] theorem packAlg_blockLength : (packAlg a r k).extractLsb' 24 8 = 16 := by
  ext i hi
  interval_cases i <;> simp [packAlg, bitAt]

end

/-! ### `INFO` -/

theorem toNat_infoWord {s : State} (h : s.maxLen ≤ 8176) : (infoWord s).toNat = s.maxLen := by
  rw [infoWord, BitVec.toNat_setWidth, BitVec.toNat_ofNat]
  omega

/-- Settles O48, field by field. -/
theorem algAndInfoWordFields : Obligations.AlgAndInfoWordFields := by
  intro s h
  rw [algWord_eq_packAlg, packAlg_code, packAlg_recognised, packAlg_reserved, packAlg_keyLength, packAlg_blockLength,
    toNat_ofNat_keyLength, toNat_infoWord h]
  exact ⟨algRecognised_iff _, rfl, rfl, rfl, keyLength_of_not_recognised, rfl, rfl, rfl, rfl, rfl, rfl⟩

end Sys2Proof.Machine
end

section
/-!
SUPPORT. The invariant of the machine (Safety, `State.Inv`): each update of the state keeps it under a condition on what it
writes alone, each command's rule answers a state and an output that meet those conditions, and so does each event.
-/

namespace Sys2Proof.Machine

/-! ### The updates of the state -/

namespace State.Inv

variable {s : State}

/-- The answer on the bus, the staging window, the count of draws and the agenda are no part of the invariant. -/
theorem of_keeps {t : State} (h : s.Inv) (ha : t.algId = s.algId) (hl : t.maxLen = s.maxLen) (hk : KeepsKey s t)
    (hm : t.mem = s.mem) (hd : KeepsCodecs s t) (hc : ∀ c, t.chan c = s.chan c) : t.Inv := by
  obtain ⟨hkey, hvalid⟩ := hk
  constructor
  case maxLen_ge => exact hl ▸ h.maxLen_ge
  case maxLen_le => exact hl ▸ h.maxLen_le
  case mem_wf => exact hm ▸ h.mem_wf
  case mem_windows => rw [hm, hl]; exact h.mem_windows
  case codec_ok => intro d; rw [hd]; exact h.codec_ok d
  case chan_ok => intro c; rw [hc, hl]; exact h.chan_ok c
  case key_alg => rw [hvalid, ha]; exact h.key_alg
  case key_tail => rw [hvalid, ha, hkey]; exact h.key_tail
  case key_clear => rw [hvalid, hkey]; exact h.key_clear
  case rtp_dec => rw [hc]; exact h.rtp_dec

theorem setBus (h : s.Inv) (b : BusResponse) : (s.setBus b).Inv :=
  h.of_keeps rfl rfl ⟨rfl, rfl⟩ rfl (fun _ => by simp) (fun _ => by simp)

theorem setDraws (h : s.Inv) (n : Nat) : (s.setDraws n).Inv :=
  h.of_keeps rfl rfl ⟨rfl, rfl⟩ rfl (fun _ => by simp) (fun _ => by simp)

theorem setAgenda (h : s.Inv) (l : List Event) : (s.setAgenda l).Inv :=
  h.of_keeps rfl rfl ⟨rfl, rfl⟩ rfl (fun _ => by simp) (fun _ => by simp)

theorem setKeywin (h : s.Inv) (w : Vector Byte 32) : (s.setKeywin w).Inv :=
  h.of_keeps rfl rfl ⟨rfl, rfl⟩ rfl (fun _ => by simp) (fun _ => by simp)

theorem setChan (h : s.Inv) {c : Chan} {x : Channel} (hx : x.Ok s.maxLen)
    (hp : c = .dec → x.status.rtpPadOut = false) : (s.setChan c x).Inv where
  maxLen_ge := by simpa using h.maxLen_ge
  maxLen_le := by simpa using h.maxLen_le
  mem_wf := by simpa using h.mem_wf
  mem_windows := by simpa using h.mem_windows
  codec_ok d := by simpa using h.codec_ok d
  chan_ok e := by
    by_cases he : e = c
    · subst he; simpa using hx
    · simpa [he] using h.chan_ok e
  key_alg := by simpa using h.key_alg
  key_tail := by simpa using h.key_tail
  key_clear := by simpa using h.key_clear
  rtp_dec := by
    cases c with
    | enc => exact h.rtp_dec
    | dec => simpa using hp rfl

theorem setCodec (h : s.Inv) (d : Chan) {x : Codec} (hx : x.Ok) : (s.setCodec d x).Inv where
  maxLen_ge := by simpa using h.maxLen_ge
  maxLen_le := by simpa using h.maxLen_le
  mem_wf := by simpa using h.mem_wf
  mem_windows := by simpa using h.mem_windows
  codec_ok e := by
    by_cases he : e = d
    · subst he; simpa using hx
    · simpa [he] using h.codec_ok e
  chan_ok e := by simpa using h.chan_ok e
  key_alg := by simpa using h.key_alg
  key_tail := by simpa using h.key_tail
  key_clear := by simpa using h.key_clear
  rtp_dec := by simpa using h.rtp_dec

/-- A write of bytes into the windows, below their capacity. -/
theorem writeBytes (h : s.Inv) {base : Nat} {l : Bytes}
    (hl : ∀ a, base ≤ a → a < base + l.length → inDataWindow s.maxLen a) :
    (s.setMem (s.mem.writeBytes base l)).Inv where
  maxLen_ge := h.maxLen_ge
  maxLen_le := h.maxLen_le
  mem_wf := Memory.wf_writeBytes base l h.mem_wf
  mem_windows a ha := by
    rw [mem_setMem, Memory.read_writeBytes _ _ _ h.mem_wf] at ha
    split_ifs at ha with hin
    · exact hl a hin.1 hin.2
    · exact h.mem_windows a ha
  codec_ok d := by simpa using h.codec_ok d
  chan_ok c := by simpa using h.chan_ok c
  key_alg := h.key_alg
  key_tail := h.key_tail
  key_clear := h.key_clear
  rtp_dec := by simpa using h.rtp_dec

/-- Installing a key of the algorithm's length (10_state.md R23). -/
theorem installKey (h : s.Inv) {k : Bytes} (ha : algRecognised s.algId = true) (hk : k.length ≤ keyLength s.algId) :
    (s.installKey k).Inv where
  maxLen_ge := h.maxLen_ge
  maxLen_le := h.maxLen_le
  mem_wf := h.mem_wf
  mem_windows := h.mem_windows
  codec_ok d := by simpa using h.codec_ok d
  chan_ok c := by simpa using h.chan_ok c
  key_alg _ := ha
  key_tail _ i hi hi' := by
    rw [algId_installKey] at hi
    rw [key_installKey, getD_pack _ _ hi', getD_of_length_le _ _ (by omega)]
  key_clear hv := absurd hv (by simp)
  rtp_dec := by simpa using h.rtp_dec

theorem setRtpPadOut (h : s.Inv) (b : Bool) : (s.setRtpPadOut b).Inv :=
  let hx := h.chan_ok .enc
  h.setChan ⟨hx.err_iff, hx.err_outLen, hx.busy_clear, hx.outLen_le, hx.snapshot_word, hx.snapshot_len,
    hx.snapshot_inp⟩ nofun

end State.Inv

/-! ### The codec's operations -/

theorem Codec.Empty.ok {x : Codec} (h : x.Empty) : x.Ok where
  blen_le := by rw [h.1]; omega
  fused_pos hf := absurd hf (by simp [h.2])

theorem Codec.empty_start (x : Codec) (iv : Block) (mode : CtsMode) : (x.start iv mode).Empty := ⟨rfl, rfl⟩

/-- The bytes a codec state holds back: the buffered ones and the pending-final block (10_state.md R31, R32). -/
def Codec.held (x : Codec) : Nat :=
  x.blen + if x.fused = true then 16 else 0

theorem Codec.Empty.held {x : Codec} (h : x.Empty) : x.held = 0 := by
  simp [Codec.held, h.1, h.2]

section
variable (K : KeyedCipher) (d : Chan)

/-- An update keeps the bounds of the codec state (10_state.md R31, R32). -/
theorem ctsUpdate_ok (inp : Bytes) {x : Codec} (h : x.Ok) : (ctsUpdate K d inp x).2.Ok := by
  by_cases hw : x.blen + inp.length ≤ 16
  · rw [ctsUpdate_within K d hw]
    exact ⟨hw, fun hf => Nat.le_trans (h.fused_pos hf) (Nat.le_add_right _ _)⟩
  · obtain ⟨buf, -, hu⟩ := ctsUpdate_beyond K d h.blen_le (Nat.lt_of_not_le hw) rfl
    rw [hu]
    exact ⟨tailLength_le _, fun _ => tailLength_pos _⟩

/-- An update emits what it does not hold: no byte is lost and none is made. -/
theorem length_ctsUpdate (inp : Bytes) {x : Codec} (h : x.Ok) :
    (ctsUpdate K d inp x).1.length + (ctsUpdate K d inp x).2.held = x.held + inp.length := by
  by_cases hw : x.blen + inp.length ≤ 16
  · rw [ctsUpdate_within K d hw]
    simp only [Codec.held, List.length_nil]
    omega
  · have hy : (x.buf.toList.take x.blen ++ inp).length = x.blen + inp.length := by simp [h.blen_le]
    obtain ⟨buf, -, hu⟩ := ctsUpdate_beyond K d h.blen_le (Nat.lt_of_not_le hw) rfl
    have htail := (tailLength_spec (n := x.blen + inp.length) (by omega)).1
    rw [hu, length_xs_of_aligned _ _ _ (length_emittedBy_mod x (by omega)), length_emittedBy, hy]
    simp only [Codec.held, if_true]
    omega

/-- What an update emits exceeds its input by less than a block (20_memory.md R55). -/
theorem length_ctsUpdate_le (inp : Bytes) {x : Codec} (h : x.Ok) :
    (ctsUpdate K d inp x).1.length ≤ inp.length + 16 := by
  by_cases hw : x.blen + inp.length ≤ 16
  · rw [ctsUpdate_within K d hw]
    exact Nat.zero_le _
  · obtain ⟨buf, -, hu⟩ := ctsUpdate_beyond K d h.blen_le (Nat.lt_of_not_le hw) rfl
    have hheld : 16 ≤ (ctsUpdate K d inp x).2.held := by
      rw [hu]
      simp [Codec.held]
    have hlen := length_ctsUpdate K d inp h
    have hx : x.held ≤ 32 := by
      have := h.blen_le
      unfold Codec.held
      split_ifs <;> omega
    omega

/-- A final empties the codec state and emits all it held (42_cts_codec.md R105 to R109). -/
theorem ctsFinal_eq_ok {x y : Codec} {out : Bytes} (hx : x.Ok) (h : ctsFinal K d x = .ok (out, y)) :
    y.Empty ∧ out.length = x.held ∧ x.held ≤ 32 := by
  by_cases hh : x.fused = false ∨ x.blen = 0
  · rw [ctsFinal_of_not_held K d hh] at h
    cases h
  · obtain ⟨hf, hb⟩ : x.fused = true ∧ x.blen ≠ 0 := by simpa using hh
    rw [ctsFinal_of_held K d hf hb] at h
    cases h
    have hle := hx.blen_le
    rw [length_finalStep K d hle, Codec.held, if_pos hf]
    exact ⟨⟨rfl, rfl⟩, by omega, by omega⟩

theorem xs_empty (bytes : Bytes) {x : Codec} (h : x.Empty) : (xs K d bytes x).2.Empty := by
  rw [xs_codec]
  exact h

/-- An update of an empty codec state and a final emit as many bytes as they took. -/
theorem length_update_final {msg last : Bytes} {x y : Codec} (hx : x.Empty)
    (h : ctsFinal K d (ctsUpdate K d msg x).2 = .ok (last, y)) :
    y.Empty ∧ ((ctsUpdate K d msg x).1 ++ last).length = msg.length := by
  obtain ⟨hy, hlast, -⟩ := ctsFinal_eq_ok K d (ctsUpdate_ok K d msg hx.ok) h
  have hupd := length_ctsUpdate K d msg hx.ok
  rw [hx.held] at hupd
  rw [List.length_append]
  exact ⟨hy, by omega⟩

end

/-- `ENCRYPT` leaves an empty codec state and emits at most a block more than the message. -/
theorem encryptPaths_eq_ok {K : KeyedCipher} {msg out : Bytes} {x y : Codec} (hx : x.Empty)
    (h : encryptPaths K msg x = .ok (out, y)) : y.Empty ∧ out.length ≤ msg.length + 16 := by
  unfold encryptPaths at h
  split_ifs at h with hshort haligned
  · cases h
    have hpad : (padMessage msg).length = 16 := by simp [padMessage]; omega
    exact ⟨xs_empty K .enc _ hx, by rw [length_xs, hpad]; omega⟩
  · cases h
    exact ⟨xs_empty K .enc _ hx, by rw [length_xs]; omega⟩
  · split at h
    · cases h
    · next last z hfinal =>
      cases h
      obtain ⟨hz, hlen⟩ := length_update_final K .enc hx hfinal
      exact ⟨hz, by omega⟩

theorem length_depadMessage_le {pp out : Bytes} (h : depadMessage pp = .ok out) : out.length ≤ pp.length := by
  simp only [depadMessage] at h
  split_ifs at h
  cases h
  simp

/-- `DECRYPT` leaves an empty codec state and emits no more bytes than the message has. -/
theorem decryptPaths_eq_ok {K : KeyedCipher} {pad : Bool} {msg out : Bytes} {x y : Codec} (hx : x.Empty)
    (h : decryptPaths K pad msg x = .ok (out, y)) : y.Empty ∧ out.length ≤ msg.length := by
  have hxs : (xs K .dec msg x).1.length ≤ msg.length := by rw [length_xs]; omega
  unfold decryptPaths at h
  split_ifs at h with hpad hzero haligned haligned
  · split at h
    · cases h
    · next hdepad =>
      cases h
      exact ⟨xs_empty K .dec _ hx, Nat.le_trans (length_depadMessage_le hdepad) hxs⟩
  · cases h
    exact ⟨xs_empty K .dec _ hx, hxs⟩
  · split at h
    · cases h
    · next last z hfinal =>
      cases h
      obtain ⟨hz, hlen⟩ := length_update_final K .dec hx hfinal
      exact ⟨hz, by omega⟩

/-! ### The rules of the commands -/

/-- A rule that succeeds answers a state that meets the invariant and an output that fits its window. -/
def LegalResult (r : CommandResult) : Prop :=
  ∀ t out, r = .ok (t, out) → t.Inv ∧ out.length ≤ t.maxLen + 16

theorem legalResult_ok {t : State} {out : Bytes} (ht : t.Inv) (hout : out.length ≤ t.maxLen + 16) :
    LegalResult (.ok (t, out)) := by
  intro t' out' h
  cases h
  exact ⟨ht, hout⟩

theorem legalResult_error (e : ErrCode) : LegalResult (.error e) := by
  intro t out h
  cases h

theorem legalResult_require {b : Bool} {e : ErrCode} {k : CommandResult} (h : b = true → LegalResult k) :
    LegalResult (require b e k) := by
  cases b with
  | false => exact legalResult_error e
  | true => exact h rfl

theorem legalResult_keyReady {s : State} {k : CommandResult} (h : LegalResult k) : LegalResult (keyReady s k) :=
  legalResult_require fun _ => legalResult_require fun _ => h

theorem legalResult_lengthInRange {s : State} {p : Snapshot} {k : CommandResult} (h : p.n ≤ s.maxLen → LegalResult k) :
    LegalResult (lengthInRange s p k) :=
  legalResult_require fun hn => h (by simpa using hn)

section
variable {s : State} (hs : s.Inv) (d : Chan) (p : Snapshot)
include hs

theorem legalResult_initRule (seq : Bool) (mode : CtsMode) : LegalResult (initRule d seq mode s p) :=
  legalResult_ok (hs.setCodec d (Codec.Empty.ok ⟨rfl, rfl⟩)) (Nat.zero_le _)

theorem legalResult_updateRule : LegalResult (updateRule d s p) := by
  refine legalResult_lengthInRange fun hn => legalResult_require fun _ => legalResult_keyReady ?_
  refine legalResult_ok (hs.setCodec d (ctsUpdate_ok _ _ _ (hs.codec_ok d))) ?_
  have hlen := length_ctsUpdate_le s.cipher d p.data (hs.codec_ok d)
  have hdata := p.length_data_le
  rw [maxLen_setCodec]
  omega

theorem legalResult_finalRule : LegalResult (finalRule d s) := by
  refine legalResult_require fun _ => legalResult_keyReady ?_
  split
  · exact legalResult_error _
  · next hfinal =>
    obtain ⟨hx, hlen, hheld⟩ := ctsFinal_eq_ok _ _ (hs.codec_ok d) hfinal
    have hmax := hs.maxLen_ge
    exact legalResult_ok (hs.setCodec d hx.ok) (by rw [maxLen_setCodec]; omega)

theorem zeroized_inv : s.zeroized.Inv where
  maxLen_ge := by simpa using hs.maxLen_ge
  maxLen_le := by simpa using hs.maxLen_le
  mem_wf := by simp [Memory.wf, Memory.wfFrom]
  mem_windows a ha := absurd (by simp [Memory.read]) ha
  codec_ok d := by rw [codec_zeroized]; exact Codec.Empty.ok ⟨rfl, rfl⟩
  chan_ok c := by
    have hx := hs.chan_ok c
    rw [maxLen_zeroized]
    cases c with
    | enc =>
      rw [chan_enc_zeroized]
      exact ⟨hx.err_iff, fun _ => rfl, hx.busy_clear, Nat.zero_le _, hx.snapshot_word, hx.snapshot_len,
        hx.snapshot_inp⟩
    | dec =>
      rw [chan_dec_zeroized]
      exact ⟨hx.err_iff, fun _ => rfl, hx.busy_clear, Nat.zero_le _, hx.snapshot_word, hx.snapshot_len,
        hx.snapshot_inp⟩
  key_alg h := absurd h (by simp)
  key_tail h := absurd h (by simp)
  key_clear _ := by simp
  rtp_dec := by simpa using hs.rtp_dec

/-- What the rule of a command answers meets the invariant and fits its window, for every command. -/
theorem legalResult_ruleOf (i : Instr) : LegalResult (ruleOf i s p) := by
  have hmax := hs.maxLen_ge
  have hdata := p.length_data_le
  cases i with
  | nop c => exact legalResult_ok hs (Nat.zero_le _)
  | setkey c =>
    refine legalResult_require fun ha => legalResult_require fun hn => ?_
    have hlen : p.keyBytes.length ≤ keyLength s.algId := by
      have hn' : p.n = keyLength s.algId := by simpa using hn
      simp [Snapshot.keyBytes, hn']
    exact legalResult_ok (hs.installKey ha hlen) (Nat.zero_le _)
  | genkey c =>
    refine legalResult_require fun ha => legalResult_ok ((hs.installKey ha (by simp)).setDraws _) ?_
    have hk := keyLength_le s.algId
    rw [length_entropyDraw, maxLen_setDraws, maxLen_installKey]
    omega
  | encrypt c seq =>
    refine legalResult_require fun _ => legalResult_lengthInRange fun hn => legalResult_keyReady ?_
    split
    · exact legalResult_error _
    · next hpaths =>
      obtain ⟨hx, hlen⟩ := encryptPaths_eq_ok (Codec.empty_start _ _ _) hpaths
      exact legalResult_ok ((hs.setCodec .enc hx.ok).setRtpPadOut _)
        (by rw [maxLen_setRtpPadOut, maxLen_setCodec]; omega)
  | decrypt c seq pad =>
    refine legalResult_require fun _ => legalResult_lengthInRange fun hn => legalResult_keyReady ?_
    split
    · exact legalResult_error _
    · next hpaths =>
      obtain ⟨hx, hlen⟩ := decryptPaths_eq_ok (Codec.empty_start _ _ _) hpaths
      exact legalResult_ok (hs.setCodec .dec hx.ok) (by rw [maxLen_setCodec]; omega)
  | ctsEncInit c seq mode => exact legalResult_require fun _ => legalResult_initRule hs .enc p seq mode
  | ctsDecInit c seq mode => exact legalResult_require fun _ => legalResult_initRule hs .dec p seq mode
  | ctsEncUpdate c => exact legalResult_require fun _ => legalResult_updateRule hs .enc p
  | ctsDecUpdate c => exact legalResult_require fun _ => legalResult_updateRule hs .dec p
  | ctsEncFinal c => exact legalResult_require fun _ => legalResult_finalRule hs .enc
  | ctsDecFinal c => exact legalResult_require fun _ => legalResult_finalRule hs .dec
  | ivDerive c seq => exact legalResult_ok hs (by rw [length_ivDerive]; omega)
  | zeroize c => exact legalResult_ok (zeroized_inv hs) (Nat.zero_le _)

end

/-! ### The ends of a command, and its acceptance -/

namespace State.Inv

variable {s : State}

theorem rtpPadOut_dec (h : s.Inv) {c : Chan} (hc : c = .dec) : (s.chan c).status.rtpPadOut = false := by
  subst hc
  exact h.rtp_dec

theorem finish (h : s.Inv) (c : Chan) {out : Bytes} (hout : out.length ≤ s.maxLen + 16) : (finish c out s).Inv := by
  have hchan : (s.setChan c { s.chan c with
      outLen := BitVec.ofNat 16 out.length
      status := { (s.chan c).status with err := false, errcode := .ok, done := true }
      pending := none }).Inv := by
    refine h.setChan ⟨by simp, by simp, by simp, ?_, nofun, nofun, nofun⟩ h.rtpPadOut_dec
    exact Nat.le_trans (Nat.mod_le _ _) hout
  have hwindow : ∀ a, outBase c ≤ a → a < outBase c + out.length → inDataWindow s.maxLen a :=
    fun a ha ha' => ⟨c, .inr ⟨ha, by omega⟩⟩
  have hmem := hchan.writeBytes (base := outBase c) (l := out) (by simpa using hwindow)
  rwa [mem_setChan] at hmem

theorem raiseError (h : s.Inv) (c : Chan) {e : ErrCode} (he : e ≠ .ok) : (raiseError c e s).Inv :=
  h.setChan ⟨by simpa using he, by simp, by simp, Nat.zero_le _, nofun, nofun, nofun⟩ h.rtpPadOut_dec

theorem accept (h : s.Inv) (c : Chan) (w : Word) : (accept c w s).Inv := by
  refine h.setChan ⟨by simp, by simp, by simp, (h.chan_ok c).outLen_le, ?_, ?_, ?_⟩ h.rtpPadOut_dec
  all_goals
    intro p hp
    cases hp
  · rfl
  · rfl
  · exact length_snapshot_inp c w

theorem overrun (h : s.Inv) (c : Chan) : (overrun c s).Inv :=
  let hx := h.chan_ok c
  h.setChan ⟨hx.err_iff, hx.err_outLen, hx.busy_clear, hx.outLen_le, hx.snapshot_word, hx.snapshot_len,
    hx.snapshot_inp⟩ h.rtpPadOut_dec

theorem clearStatus (h : s.Inv) (c : Chan) (w : Word) : (clearStatus c w s).Inv := by
  have hx := h.chan_ok c
  refine h.setChan ⟨hx.err_iff, hx.err_outLen, fun hb => ?_, hx.outLen_le, hx.snapshot_word, hx.snapshot_len,
    hx.snapshot_inp⟩ h.rtpPadOut_dec
  obtain ⟨hdone, herr⟩ := hx.busy_clear hb
  exact ⟨by simp [hdone], herr⟩

/-- The registers of an idle channel may take any length and sequence value. -/
theorem setIdleChan (h : s.Inv) {c : Chan} (hidle : s.busy c = false) (len : Half) (seq : Vector Byte 6) :
    (s.setChan c { s.chan c with len := len, seq := seq }).Inv := by
  have hx := h.chan_ok c
  have hnone : (s.chan c).pending = none := by simpa [State.busy] using hidle
  exact h.setChan ⟨hx.err_iff, hx.err_outLen, hx.busy_clear, hx.outLen_le, hx.snapshot_word,
    by simp [hnone], hx.snapshot_inp⟩ h.rtpPadOut_dec

theorem setIntEn (h : s.Inv) (c : Chan) (doneEn ovrEn : Bool) :
    (s.setChan c { s.chan c with doneEn := doneEn, ovrEn := ovrEn }).Inv :=
  let hx := h.chan_ok c
  h.setChan ⟨hx.err_iff, hx.err_outLen, hx.busy_clear, hx.outLen_le, hx.snapshot_word, hx.snapshot_len,
    hx.snapshot_inp⟩ h.rtpPadOut_dec

/-! ### The events -/

theorem unlessBusy {t : State} (h : s.Inv) (c : Chan) (ht : s.busy c = false → t.Inv) : (unlessBusy c s t).Inv := by
  unfold Machine.unlessBusy
  split_ifs with hb
  · exact h.overrun c
  · exact ht (by simpa using hb)

theorem writePlace (h : s.Inv) (w : Word) (pl : Place) : (writePlace s w pl).Inv := by
  cases pl with
  | cmd c => exact h.unlessBusy c fun _ => h.accept c w
  | status c => exact h.clearStatus c w
  | intEn c => exact h.setIntEn c _ _
  | len c => exact h.unlessBusy c fun hi => h.setIdleChan hi _ _
  | seq0 c => exact h.unlessBusy c fun hi => h.setIdleChan hi _ _
  | seq1 c => exact h.unlessBusy c fun hi => h.setIdleChan hi _ _
  | keywin k => exact h.setKeywin _
  | inp c i =>
    simp only [Machine.writePlace]
    split_ifs with hi
    · refine h.unlessBusy c fun _ => h.writeBytes fun a ha ha' => ⟨c, .inl ⟨by omega, ?_⟩⟩
      have hlen := List.length_take_le (s.maxLen - i) (wordBytes w)
      omega
    · exact h
  | alg | info | ctsState | outLen | out | reserved => exact h

theorem hostAccess (h : s.Inv) (a : HostAccess) : (hostAccess a s).Inv := by
  cases a with
  | read width off =>
    simp only [Machine.hostAccess]
    split_ifs
    · exact (h.setBus _).setDraws _
    · exact (h.setBus _).setDraws _
    · exact h.setBus _
  | write width off w =>
    simp only [Machine.hostAccess]
    split_ifs
    · exact (h.writePlace w _).setBus _
    · exact h.setBus _

/-- The state after reset, for a legal `MAX_LEN`. -/
theorem resetOf (alg : Byte) {maxLen : Nat} (hge : 1040 ≤ maxLen) (hle : maxLen ≤ 8176) :
    (State.resetOf alg maxLen).Inv where
  maxLen_ge := hge
  maxLen_le := hle
  mem_wf := rfl
  mem_windows _ ha := absurd rfl ha
  codec_ok d := by cases d <;> exact Codec.Empty.ok ⟨rfl, rfl⟩
  chan_ok c := by
    cases c <;>
      exact ⟨iff_of_false Bool.false_ne_true (fun h => h rfl), fun _ => rfl, nofun, Nat.zero_le _, nofun, nofun, nofun⟩
  key_alg h := absurd h (by simp [State.resetOf])
  key_tail h := absurd h (by simp [State.resetOf])
  key_clear _ := rfl
  rtp_dec := rfl

/-- Every command keeps the invariant. -/
theorem exec (h : s.Inv) {i : Instr} {t : State} (ht : exec i s = .next t) : t.Inv := by
  obtain ⟨p, -, rfl⟩ := exec_next ht
  cases hr : ruleOf i s p with
  | error e => exact h.raiseError _ (rule_error_ne_ok hr)
  | ok r =>
    obtain ⟨hinv, hout⟩ := legalResult_ruleOf h p i r.1 r.2 hr
    exact hinv.finish _ hout

theorem complete (h : s.Inv) {c : Chan} {t : State} (ht : complete c s = .next t) : t.Inv := by
  unfold Machine.complete at ht
  split at ht
  · cases ht
    exact h
  · split at ht
    · exact h.exec ht
    · cases ht
      exact h.raiseError c (by decide)

theorem drain (h : s.Inv) {t : State} (ht : drain s = .next t) : t.Inv := by
  unfold Machine.drain at ht
  split_ifs at ht
  · exact (h.setDraws _).complete ht
  · exact h.complete ht
  · exact h.complete ht
  · cases ht
    exact h

theorem runEvent (h : s.Inv) {e : Event} {t : State} (ht : runEvent e s = .next t) : t.Inv := by
  cases e with
  | host a =>
    cases ht
    exact h.hostAccess a
  | completion c => exact h.complete ht
  | reset =>
    cases ht
    exact ((resetOf s.algId h.maxLen_ge h.maxLen_le).setDraws _).setAgenda _

end State.Inv

/-- Settles O56. -/
theorem resetMeetsInv : Obligations.ResetMeetsInv :=
  fun alg _ hge hle => State.Inv.resetOf alg hge hle

/-- Settles O57: an event of the agenda keeps the invariant, and so does the drain of an empty agenda. -/
theorem stepKeepsInv : Obligations.StepKeepsInv := by
  intro s t hs ht
  unfold step nextStep at ht
  split at ht
  · exact hs.drain ht
  · exact (hs.setAgenda _).runEvent ht

end Sys2Proof.Machine
end

section
/-!
SUPPORT. The two directions are isolated (10_state.md R36): the rule of every command but `ZEROIZE` commutes with a write to
the other direction's codec state, and so do the ends of a command.
-/

namespace Sys2Proof.Machine

/-! ### A write to one direction's codec state -/

theorem codec_setCodec_otherChan (s : State) (d : Chan) (x : Codec) : (s.setCodec (otherChan d) x).codec d = s.codec d :=
  codec_setCodec_of_ne s (otherChan d) x d (ne_otherChan d)

theorem finish_setCodec (s : State) (c d : Chan) (x : Codec) (out : Bytes) :
    finish c out (s.setCodec d x) = (finish c out s).setCodec d x := by
  cases c <;> cases d <;> rfl

theorem raiseError_setCodec (s : State) (c d : Chan) (x : Codec) (e : ErrCode) :
    raiseError c e (s.setCodec d x) = (raiseError c e s).setCodec d x := by
  cases c <;> cases d <;> rfl

/-- The same result but for the codec state of direction `d`. -/
def setResultCodec (d : Chan) (x : Codec) : CommandResult → CommandResult
  | .ok (t, out) => .ok (t.setCodec d x, out)
  | .error e => .error e

theorem setResultCodec_require (d : Chan) (x : Codec) (b : Bool) (e : ErrCode) (k : CommandResult) :
    setResultCodec d x (require b e k) = require b e (setResultCodec d x k) := by
  cases b <;> rfl

theorem conclude_setCodec (c d : Chan) (x : Codec) (s : State) (r : CommandResult) :
    conclude c (s.setCodec d x) (setResultCodec d x r) = (conclude c s r).setCodec d x := by
  cases r with
  | error e => exact raiseError_setCodec s c d x e
  | ok r => exact finish_setCodec r.1 c d x r.2

/-! ### The rules -/

section
variable (s : State) (x : Codec) (p : Snapshot)

theorem initRule_setCodec (d : Chan) (seq : Bool) (mode : CtsMode) :
    initRule d seq mode (s.setCodec (otherChan d) x) p
      = setResultCodec (otherChan d) x (initRule d seq mode s p) := by
  cases d <;> rfl

theorem updateRule_setCodec (d : Chan) :
    updateRule d (s.setCodec (otherChan d) x) p = setResultCodec (otherChan d) x (updateRule d s p) := by
  unfold updateRule lengthInRange modeSupported keyReady
  simp only [setResultCodec_require]
  cases d <;> rfl

theorem finalRule_setCodec (d : Chan) :
    finalRule d (s.setCodec (otherChan d) x) = setResultCodec (otherChan d) x (finalRule d s) := by
  unfold finalRule modeSupported keyReady
  simp only [setResultCodec_require, cipher_setCodec, algId_setCodec, keyValid_setCodec,
    codec_setCodec_otherChan]
  cases ctsFinal s.cipher d (s.codec d) with
  | error e => rfl
  | ok r => cases d <;> rfl

/-- A command that one channel alone has, on that channel or refused. -/
theorem onlyOn_setCodec {d c : Chan} {k k' : CommandResult} (h : c = d → k' = setResultCodec (otherChan d) x k) :
    onlyOn d c k' = setResultCodec (otherChan c) x (onlyOn d c k) := by
  unfold onlyOn
  by_cases hc : c = d
  · subst hc
    simpa using h
  · simp [hc, setResultCodec]

/-- The rule of a command neither reads nor writes the other direction's codec state. -/
theorem ruleOf_setCodec {i : Instr} (hz : ∀ c, i ≠ .zeroize c) :
    ruleOf i (s.setCodec (otherChan i.chan) x) p = setResultCodec (otherChan i.chan) x (ruleOf i s p) := by
  cases i with
  | nop c => rfl
  | setkey c =>
    simp only [ruleOf, Instr.chan, setResultCodec_require, algId_setCodec]
    cases c <;> rfl
  | genkey c =>
    simp only [ruleOf, Instr.chan, setResultCodec_require, algId_setCodec, draws_setCodec]
    cases c <;> rfl
  | encrypt c seq =>
    refine onlyOn_setCodec x ?_
    rintro rfl
    simp only [Instr.chan, lengthInRange, keyReady, setResultCodec_require, cipher_setCodec, algId_setCodec,
      keyValid_setCodec, maxLen_setCodec, codec_setCodec_otherChan]
    cases encryptPaths s.cipher p.data ((s.codec .enc).start (p.iv seq) .cbc) <;> rfl
  | decrypt c seq pad =>
    refine onlyOn_setCodec x ?_
    rintro rfl
    simp only [Instr.chan, lengthInRange, keyReady, setResultCodec_require, cipher_setCodec, algId_setCodec,
      keyValid_setCodec, maxLen_setCodec, codec_setCodec_otherChan]
    cases decryptPaths s.cipher pad p.data ((s.codec .dec).start (p.iv seq) .cbc) <;> rfl
  | ctsEncInit c seq mode => exact onlyOn_setCodec x (by rintro rfl; exact initRule_setCodec s x p .enc seq mode)
  | ctsDecInit c seq mode => exact onlyOn_setCodec x (by rintro rfl; exact initRule_setCodec s x p .dec seq mode)
  | ctsEncUpdate c => exact onlyOn_setCodec x (by rintro rfl; exact updateRule_setCodec s x p .enc)
  | ctsDecUpdate c => exact onlyOn_setCodec x (by rintro rfl; exact updateRule_setCodec s x p .dec)
  | ctsEncFinal c => exact onlyOn_setCodec x (by rintro rfl; exact finalRule_setCodec s x .enc)
  | ctsDecFinal c => exact onlyOn_setCodec x (by rintro rfl; exact finalRule_setCodec s x .dec)
  | ivDerive c seq => rfl
  | zeroize c => exact absurd rfl (hz c)

end

theorem conclude_ruleOf_otherCodec {i : Instr} (hz : ∀ c, i ≠ .zeroize c) (s : State) (p : Snapshot) :
    (conclude i.chan s (ruleOf i s p)).codec (otherChan i.chan) = s.codec (otherChan i.chan) := by
  cases h : ruleOf i s p with
  | error e => exact codec_raiseError s i.chan e _
  | ok r => exact (codec_finish r.1 i.chan r.2 _).trans (rule_keeps hz h).otherCodec

/-- Settles O34. -/
theorem directionsAreIsolated : Obligations.DirectionsAreIsolated := by
  intro i s t x hz ht
  obtain ⟨p, hp, rfl⟩ := exec_next ht
  have hp' : (s.setCodec (otherChan i.chan) x).Pends i.chan p := by rw [State.Pends, chan_setCodec, hp]
  refine ⟨conclude_ruleOf_otherCodec hz s p, ?_⟩
  rw [exec_of_pends hp', ruleOf_setCodec s x p hz, conclude_setCodec]

end Sys2Proof.Machine
end

section
/-!
SUPPORT. What the host writes to the registers (10_state.md R24, R38 to R42), and what its reads depend on: no field of the
key, the staging window, the codec buffers or the chaining values (R23, R24, R29, R33).
-/

namespace Sys2Proof.Machine

/-! ### Writes -/

/-- A write to a register of a channel's page. -/
theorem step_write_page {s : State} {c : Chan} {k : Nat} {w : Word} {rest : List Event}
    (h : s.agenda = writeEvent (pageBase c + k) w :: rest) (h4 : k % 4 = 0) (hk : k < 0x100) :
    step s = .next ((writePlace (s.setAgenda rest) w (placeOnPage c k)).setBus .written) := by
  have hbase : pageBase c % 4 = 0 ∧ pageBase c ≤ 0x200 := by cases c <;> decide
  rw [step_write h (by omega) (by omega), placeAt_page c k hk]

/-- What a write to `STATUS[c]` does, as the host's clearing of pending bits. -/
theorem step_write_status {s : State} {c : Chan} {w : Word} {rest : List Event}
    (h : s.agenda = writeEvent (pageBase c + 4) w :: rest) :
    step s = .next ((clearStatus c w (s.setAgenda rest)).setBus .written) := by
  rw [step_write_page h (by decide) (by decide)]
  rfl

/-- Settles O38. -/
theorem statusWriteClearsByOnes : Obligations.StatusWriteClearsByOnes := by
  intro c w s rest h
  rw [step_write_status h, clearStatus, chan_setAgenda]

theorem unlessBusy_of_idle {c : Chan} {s : State} (t : State) (h : s.busy c = false) : unlessBusy c s t = t := by
  rw [unlessBusy, if_neg (by simp [h])]

@[simp] theorem busy_setAgenda (s : State) (l : List Event) (c : Chan) : (s.setAgenda l).busy c = s.busy c := by
  simp [State.busy]

theorem getD_wordBytes (w : Word) {j : Nat} (h : j < 4) : (wordBytes w).getD j 0 = w.extractLsb' (8 * j) 8 := by
  interval_cases j <;> rfl

/-- What a write of a word into a field does, once: its four bytes from `k` on, little-endian, and the other bytes as
before (20_memory.md R53). -/
theorem getD_writeField {n : Nat} (v : Vector Byte n) {k i : Nat} (w : Word) (hk : k ≤ n) (hi : i < n) :
    (writeField v k w).toList.getD i 0
      = if k ≤ i ∧ i < k + 4 then w.extractLsb' (8 * (i - k)) 8 else v.toList.getD i 0 := by
  have htake : (v.toList.take k).length = k := by simp [hk]
  have hword : (wordBytes w).length = 4 := rfl
  rw [writeField, getD_pack _ _ hi, getD_append, getD_append, getD_take, getD_drop, List.length_append, htake, hword]
  by_cases hlow : i < k
  · rw [if_pos (by omega), if_pos hlow, if_pos hlow, if_neg (by omega)]
  · by_cases hmid : i < k + 4
    · rw [if_pos hmid, if_neg hlow, if_pos ⟨by omega, hmid⟩, getD_wordBytes w (by omega)]
    · rw [if_neg hmid, if_neg (by omega), Nat.add_sub_cancel' (by omega)]

theorem writeField_seq0 (v : Vector Byte 6) (w : Word) :
    writeField v 0 w
      = #v[w.extractLsb' 0 8, w.extractLsb' 8 8, w.extractLsb' 16 8, w.extractLsb' 24 8, v[4], v[5]] := by
  refine vector_ext_getD fun i hi => ?_
  rw [getD_writeField v w (by omega) hi]
  interval_cases i <;> simp

theorem writeField_seq1 (v : Vector Byte 6) (w : Word) :
    writeField v 4 w = #v[v[0], v[1], v[2], v[3], w.extractLsb' 0 8, w.extractLsb' 8 8] := by
  refine vector_ext_getD fun i hi => ?_
  rw [getD_writeField v w (by omega) hi]
  interval_cases i <;> simp

/-- Settles O39: each register by its place on the page, the staging window by its offset. -/
theorem registerWritesStoreTheirFields : Obligations.RegisterWritesStoreTheirFields := by
  intro c off w s rest h
  refine ⟨?intEn, ?len, ?seq0, ?seq1, ?keywin⟩
  case intEn =>
    rintro rfl
    rw [step_write_page h (by decide) (by decide)]
    simp [placeOnPage, writePlace]
  case len =>
    rintro rfl hidle
    have hlen : w.setWidth 16 = w.extractLsb' 0 16 := by ext i hi; simp
    rw [step_write_page h (by decide) (by decide)]
    simp [placeOnPage, writePlace, unlessBusy_of_idle, hidle, hlen]
  case seq0 =>
    rintro rfl hidle
    rw [step_write_page h (by decide) (by decide)]
    simp [placeOnPage, writePlace, unlessBusy_of_idle, hidle, writeField_seq0]
  case seq1 =>
    rintro rfl hidle
    rw [step_write_page h (by decide) (by decide)]
    simp [placeOnPage, writePlace, unlessBusy_of_idle, hidle, writeField_seq1]
  case keywin =>
    rintro k hk4 hk rfl
    refine ⟨writeField s.keywin k w, ?_, fun i hi => getD_writeField s.keywin w (by omega) hi⟩
    rw [step_write h (by omega) (by omega), placeAt_keywin k hk]
    rfl

/-! ### Reads -/

/-- The same state but for what the host cannot read: the key, the staging window, and the buffer, the pending-final block
and the chaining value of each codec state. -/
structure SamePublic (s u : State) : Prop where
  algId : u.algId = s.algId
  maxLen : u.maxLen = s.maxLen
  keyValid : u.keyValid = s.keyValid
  chan : ∀ c, u.chan c = s.chan c
  codecBits : ∀ d, codecBits (u.codec d) = codecBits (s.codec d)
  mem : u.mem = s.mem
  draws : u.draws = s.draws

section
variable {s u : State} (h : SamePublic s u)
include h

theorem SamePublic.busy (c : Chan) : u.busy c = s.busy c := by
  rw [State.busy, State.busy, h.chan]

/-- What stands at a place is a function of the public part of the state. -/
theorem SamePublic.readPlace (pl : Place) : readPlace u pl = readPlace s pl := by
  cases pl with
  | alg => simp only [Machine.readPlace, algWord, h.algId]
  | info => simp only [Machine.readPlace, infoWord, h.maxLen]
  | ctsState => simp only [Machine.readPlace, ctsStateWord, h.codecBits]
  | status c => simp only [Machine.readPlace, statusWord, h.busy, h.chan, h.keyValid]
  | intEn c => simp only [Machine.readPlace, intEnWord, h.chan]
  | cmd | len | outLen | seq0 | seq1 => simp only [Machine.readPlace, h.chan]
  | inp | out => simp only [Machine.readPlace, h.mem, h.maxLen]
  | keywin | reserved => rfl

theorem SamePublic.unspecifiedBits (pl : Place) : unspecifiedBits u pl = unspecifiedBits s pl := by
  cases pl with
  | ctsState | outLen => simp only [Machine.unspecifiedBits, whileBusy, h.busy]
  | out => simp only [Machine.unspecifiedBits, whileBusy, h.busy, h.maxLen]
  | _ => rfl

theorem SamePublic.readAnswer (pl : Place) : readAnswer u pl = readAnswer s pl := by
  rw [Machine.readAnswer, Machine.readAnswer, h.readPlace, h.unspecifiedBits, h.draws]

theorem SamePublic.bus_read (width : Width) (off : BitVec 16) :
    (hostAccess (.read width off) u).bus = (hostAccess (.read width off) s).bus := by
  simp only [hostAccess]
  split_ifs <;> simp [h.readAnswer]

end

/-- Settles O45: two states that differ in their secrets have the same public part. -/
theorem readsDoNotRevealSecrets : Obligations.ReadsDoNotRevealSecrets := by
  intro s u key keywin buf fin chain width off rest hs hu
  have hagenda : u.agenda = .host (.read width off) :: rest := by simp [hu, hs]
  have hsame : SamePublic (s.setAgenda rest) (u.setAgenda rest) := by
    subst hu
    refine ⟨?_, ?_, ?_, fun c => ?_, fun d => ?_, ?_, ?_⟩
    case refine_5 => cases d <;> rfl
    all_goals simp
  exact ⟨_, _, step_of_agenda hs, step_of_agenda hagenda, (hsame.bus_read width off).symm⟩

end Sys2Proof.Machine
end

section
/-!
SUPPORT. The fields of the words `STATUS` and `CTS_STATE` (10_state.md R29, R38), the interrupt line (R45), and the values
after reset (R46).
-/

namespace Sys2Proof.Machine

/-! ### `STATUS` -/

theorem statusWord_flags (s : State) (c : Chan) :
    (statusWord s c).getLsbD 0 = s.busy c ∧ (statusWord s c).getLsbD 1 = (s.chan c).status.done
      ∧ (statusWord s c).getLsbD 2 = (s.chan c).status.err ∧ (statusWord s c).getLsbD 3 = (s.chan c).status.overrun
      ∧ (statusWord s c).getLsbD 4 = (s.chan c).status.rtpPadOut ∧ (statusWord s c).getLsbD 5 = s.keyValid := by
  simp [statusWord, bitAt]

theorem statusWord_errcode (s : State) (c : Chan) :
    (statusWord s c).extractLsb' 8 4 = (s.chan c).status.errcode.toBits := by
  ext i hi
  interval_cases i <;> simp [statusWord, bitAt]

theorem statusWord_reserved (s : State) (c : Chan) :
    (statusWord s c).extractLsb' 6 2 = 0 ∧ (statusWord s c).extractLsb' 12 20 = 0 := by
  constructor
  all_goals
    ext i hi
    interval_cases i <;> simp [statusWord, bitAt]

/-- Settles O46. -/
theorem statusWordBits : Obligations.StatusWordBits := by
  intro s c
  obtain ⟨hbusy, hdone, herr, hoverrun, hpad, hkey⟩ := statusWord_flags s c
  obtain ⟨hlow, hhigh⟩ := statusWord_reserved s c
  exact ⟨hbusy, hdone, herr, hoverrun, hpad, hkey, hlow, statusWord_errcode s c, hhigh⟩

/-! ### `CTS_STATE` -/

/-- The five bits of `BLEN` hold every legal value (10_state.md R31). -/
theorem Codec.Ok.toNat_blen {x : Codec} (h : x.Ok) : (BitVec.ofNat 5 x.blen).toNat = x.blen :=
  Nat.mod_eq_of_lt (Nat.lt_of_le_of_lt h.blen_le (by decide))

theorem ctsStateWord_enc (s : State) :
    (ctsStateWord s).extractLsb' 0 5 = BitVec.ofNat 5 (s.codec .enc).blen
      ∧ (ctsStateWord s).getLsbD 5 = (s.codec .enc).fused
      ∧ (ctsStateWord s).extractLsb' 6 2 = (s.codec .enc).cmode.toBits
      ∧ (ctsStateWord s).extractLsb' 8 2 = (s.codec .enc).pmode.toBits := by
  refine ⟨?_, by simp [ctsStateWord, codecBits, bitAt], ?_, ?_⟩
  all_goals
    ext i hi
    interval_cases i <;> simp [ctsStateWord, codecBits, bitAt]

theorem ctsStateWord_dec (s : State) :
    (ctsStateWord s).extractLsb' 16 5 = BitVec.ofNat 5 (s.codec .dec).blen
      ∧ (ctsStateWord s).getLsbD 21 = (s.codec .dec).fused
      ∧ (ctsStateWord s).extractLsb' 22 2 = (s.codec .dec).cmode.toBits
      ∧ (ctsStateWord s).extractLsb' 24 2 = (s.codec .dec).pmode.toBits := by
  refine ⟨?_, by simp [ctsStateWord, codecBits, bitAt], ?_, ?_⟩
  all_goals
    ext i hi
    interval_cases i <;> simp [ctsStateWord, codecBits, bitAt]

theorem ctsStateWord_reserved (s : State) :
    (ctsStateWord s).extractLsb' 10 6 = 0 ∧ (ctsStateWord s).extractLsb' 26 6 = 0 := by
  constructor
  all_goals
    ext i hi
    interval_cases i <;> simp [ctsStateWord, codecBits, bitAt]

/-- Settles O47, direction by direction. -/
theorem ctsStateWordFields : Obligations.CtsStateWordFields := by
  intro s hok
  refine ⟨?_, ctsStateWord_reserved s⟩
  rintro d k rfl
  cases d with
  | enc =>
    obtain ⟨hblen, hfused, hmode, hpad⟩ := ctsStateWord_enc s
    exact ⟨by rw [hblen, (hok .enc).toNat_blen], hfused, hmode, hpad⟩
  | dec =>
    obtain ⟨hblen, hfused, hmode, hpad⟩ := ctsStateWord_dec s
    exact ⟨by rw [hblen, (hok .dec).toNat_blen], hfused, hmode, hpad⟩

/-! ### The interrupt line -/

theorem Channel.irq_iff (x : Channel) :
    x.irq = true ↔ (x.status.done = true ∧ x.doneEn = true) ∨ (x.status.overrun = true ∧ x.ovrEn = true) := by
  simp [Channel.irq]

theorem State.irq_iff (s : State) : s.irq = true ↔ ∃ c, (s.chan c).irq = true := by
  rw [State.irq, Bool.or_eq_true]
  constructor
  · rintro (h | h)
    · exact ⟨.enc, h⟩
    · exact ⟨.dec, h⟩
  · rintro ⟨c, h⟩
    cases c with
    | enc => exact .inl h
    | dec => exact .inr h

theorem State.irq_eq_false {s : State} (h : ∀ c, (s.chan c).irq = false) : s.irq = false := by
  rw [State.irq, h, h]
  rfl

theorem State.irq_resetOf (alg : Byte) (maxLen : Nat) : (State.resetOf alg maxLen).irq = false := rfl

/-- The host's write of ones to bits 1 and 3 of `STATUS[c]` clears the channel's interrupt (60_exceptions.md R182). -/
theorem irq_clearStatus (c : Chan) (s : State) : ((clearStatus c 0x0000000A s).chan c).irq = false := by
  simp [clearStatus, Channel.irq]

theorem chan_clearStatus_of_ne (c : Chan) (w : Word) (s : State) {e : Chan} (h : e ≠ c) :
    (clearStatus c w s).chan e = s.chan e :=
  chan_setChan_of_ne s c _ e h

theorem run_two {s t u : State} (h : step s = .next t) (h' : step t = .next u) : Host.Core.run core 2 s = .next u := by
  simp only [Host.Core.run, Host.Check.core_step, h, h']

/-- Settles O49: the two writes clear one channel each, and the second leaves the first channel alone. -/
theorem irqIsTheOrOfEnabledSources : Obligations.IrqIsTheOrOfEnabledSources := by
  intro s
  refine ⟨?_, State.irq_resetOf _ _, fun rest h => ?_⟩
  · simp only [State.irq_iff, Channel.irq_iff]
  · have hfirst := step_write_status h
    have hsecond := step_write_status (c := .dec) (w := 0x0000000A) (rest := rest)
      (s := (clearStatus .enc 0x0000000A (s.setAgenda _)).setBus .written) rfl
    refine ⟨_, run_two hfirst hsecond, State.irq_eq_false fun c => ?_⟩
    rw [chan_setBus]
    cases c with
    | enc =>
      rw [chan_clearStatus_of_ne _ _ _ (by decide), chan_setAgenda, chan_setBus]
      exact irq_clearStatus .enc _
    | dec => exact irq_clearStatus .dec _

/-! ### The values after reset -/

theorem statusWord_resetOf (alg : Byte) (maxLen : Nat) (c : Chan) : statusWord (State.resetOf alg maxLen) c = 0 := by
  have hcode : ErrCode.toBits .ok = 0 := rfl
  cases c <;> simp [statusWord, bitAt, State.busy, State.resetOf, State.chan, Channel.reset, Status.reset, hcode]

theorem intEnWord_resetOf (alg : Byte) (maxLen : Nat) (c : Chan) : intEnWord (State.resetOf alg maxLen) c = 0 := by
  cases c <;> simp [intEnWord, bitAt, State.resetOf, State.chan, Channel.reset]

theorem ctsStateWord_resetOf (alg : Byte) (maxLen : Nat) : ctsStateWord (State.resetOf alg maxLen) = 0 := by
  have hbits : ctsStateWord (State.resetOf alg maxLen) = codecBits Codec.reset ||| codecBits Codec.reset <<< 16 := rfl
  rw [hbits]
  decide

/-- Settles O54. -/
theorem resetValues : Obligations.ResetValues := by
  rintro alg maxLen s rfl
  refine ⟨rfl, rfl, rfl, rfl, rfl, fun d => ?codec, fun c => ?chan, fun _ => rfl, ctsStateWord_resetOf alg maxLen,
    State.irq_resetOf alg maxLen, Config.algIdCfg, Config.maxLenCfg, rfl⟩
  case codec => cases d <;> exact ⟨rfl, rfl, rfl, rfl, rfl, rfl, rfl⟩
  case chan =>
    have hstatus := statusWord_resetOf alg maxLen c
    have hintEn := intEnWord_resetOf alg maxLen c
    cases c <;> exact ⟨rfl, hstatus, hintEn, rfl, rfl, rfl, rfl⟩

end Sys2Proof.Machine
end

section
/-!
SUPPORT. The completions of the two channels commute (20_memory.md R62): a command that leaves the key state alone reads
the parameters, the key and its own channel's part of the block, and writes that part only, so that on all states that
agree in what it reads its completion is one and the same write.
-/

namespace Sys2Proof.Machine

/-! ### The part of the state that belongs to a channel -/

/-- The command does not write the key state (20_memory.md R62). -/
abbrev LeavesKeyState (i : Instr) : Prop :=
  ∀ c, i ≠ .setkey c ∧ i ≠ .genkey c ∧ i ≠ .zeroize c

/-- The states agree in all that a command of channel `c` reads beside its snapshot: the parameters, the key, the codec
state of its direction and the registers of its channel. -/
structure SameView (c : Chan) (s u : State) : Prop where
  algId : u.algId = s.algId
  maxLen : u.maxLen = s.maxLen
  key : u.key = s.key
  keyValid : u.keyValid = s.keyValid
  codec : u.codec c = s.codec c
  chan : u.chan c = s.chan c

theorem SameView.refl (c : Chan) (s : State) : SameView c s s := ⟨rfl, rfl, rfl, rfl, rfl, rfl⟩

theorem SameView.cipher {c : Chan} {s u : State} (h : SameView c s u) : u.cipher = s.cipher := by
  rw [cipher_eq_underActiveKey, cipher_eq_underActiveKey, State.underActiveKey, State.underActiveKey, h.key, h.algId]

/-- The state `u` with the codec state and the registers of channel `c` as `t` has them. -/
def State.takeOwn (u : State) (c : Chan) (t : State) : State :=
  (u.setCodec c (t.codec c)).setChan c (t.chan c)

/-- The state `u` after a completion on channel `c` that ended in `t` and emitted `out`: the channel's own part of the
state as in `t`, and the bytes in `OUT[c]`. -/
def State.takeCompletion (u : State) (c : Chan) (t : State) (out : Bytes) : State :=
  (u.takeOwn c t).setMem (u.mem.writeBytes (outBase c) out)

theorem State.setChan_chan (u : State) (c : Chan) : u.setChan c (u.chan c) = u := by
  cases c <;> rfl

theorem State.setCodec_codec (u : State) (c : Chan) : u.setCodec c (u.codec c) = u := by
  cases c <;> rfl

section
variable {c : Chan} {s u : State} (h : SameView c s u)
include h

theorem SameView.takeOwn_self : u.takeOwn c s = u := by
  rw [State.takeOwn, ← h.codec, ← h.chan, State.setCodec_codec, State.setChan_chan]

theorem SameView.takeOwn_setCodec (x : Codec) : u.takeOwn c (s.setCodec c x) = u.setCodec c x := by
  rw [State.takeOwn, codec_setCodec, chan_setCodec, ← h.chan, ← chan_setCodec u c x c, State.setChan_chan]

end

theorem SameView.takeOwn_setRtpPadOut {s u : State} (h : SameView .enc s u) (x : Codec) (b : Bool) :
    u.takeOwn .enc ((s.setCodec .enc x).setRtpPadOut b) = (u.setCodec .enc x).setRtpPadOut b := by
  rw [State.takeOwn, codec_setRtpPadOut, codec_setCodec, chan_enc_setRtpPadOut, chan_setCodec, ← h.chan]
  rfl

/-- A completion on one channel changes nothing that a command of the other reads. -/
theorem sameView_takeCompletion (s : State) (c : Chan) (t : State) (out : Bytes) :
    SameView (otherChan c) s (s.takeCompletion c t out) := by
  cases c <;> exact ⟨rfl, rfl, rfl, rfl, rfl, rfl⟩

/-! ### The rules -/

/-- The bytes a command emits: none, if it raises an error. -/
def emitted : CommandResult → Bytes
  | .ok (_, out) => out
  | .error _ => []

/-- The result of a command of channel `c` carried over to the state `u`. -/
def takeResult (u : State) (c : Chan) : CommandResult → CommandResult
  | .ok (t, out) => .ok (u.takeOwn c t, out)
  | .error e => .error e

@[simp] theorem takeResult_ok (u : State) (c : Chan) (t : State) (out : Bytes) :
    takeResult u c (.ok (t, out)) = .ok (u.takeOwn c t, out) := rfl
@[simp] theorem takeResult_error (u : State) (c : Chan) (e : ErrCode) : takeResult u c (.error e) = .error e := rfl

theorem takeResult_require (u : State) (c : Chan) (b : Bool) (e : ErrCode) (k : CommandResult) :
    takeResult u c (require b e k) = require b e (takeResult u c k) := by
  cases b <;> rfl

section
variable {d : Chan} {s u : State} (h : SameView d s u)
include h

theorem SameView.lengthInRange (p : Snapshot) (k : CommandResult) :
    takeResult u d (lengthInRange s p k) = lengthInRange u p (takeResult u d k) := by
  rw [Machine.lengthInRange, takeResult_require, Machine.lengthInRange, h.maxLen]

theorem SameView.keyReady (k : CommandResult) :
    takeResult u d (keyReady s k) = keyReady u (takeResult u d k) := by
  rw [Machine.keyReady, takeResult_require, takeResult_require, Machine.keyReady, h.algId, h.keyValid]

theorem SameView.initRule (seq : Bool) (mode : CtsMode) (p : Snapshot) :
    initRule d seq mode u p = takeResult u d (initRule d seq mode s p) := by
  simp only [Machine.initRule, takeResult_ok, h.takeOwn_setCodec, h.codec]

theorem SameView.updateRule (p : Snapshot) : updateRule d u p = takeResult u d (updateRule d s p) := by
  simp only [Machine.updateRule, modeSupported, h.lengthInRange, h.keyReady, takeResult_require, takeResult_ok,
    h.takeOwn_setCodec, h.codec, h.cipher]

theorem SameView.finalRule : finalRule d u = takeResult u d (finalRule d s) := by
  simp only [Machine.finalRule, modeSupported, h.keyReady, takeResult_require, h.codec, h.cipher]
  cases ctsFinal s.cipher d (s.codec d) with
  | error e => rfl
  | ok r => simp only [takeResult_ok, h.takeOwn_setCodec]

end

/-- A command that one channel alone has, on that channel or refused. -/
theorem onlyOn_takeResult {d c : Chan} {u : State} {k k' : CommandResult} (h : c = d → k' = takeResult u d k) :
    onlyOn d c k' = takeResult u c (onlyOn d c k) := by
  rw [onlyOn, onlyOn, takeResult_require]
  by_cases hc : c = d
  · subst hc
    rw [h rfl]
  · rw [require_of_not _ _ (by simpa using hc), require_of_not _ _ (by simpa using hc)]

/-- The rule of a command that leaves the key state alone depends on its channel's view, and writes its channel's
part. -/
theorem ruleOf_takeResult {i : Instr} {s u : State} (hk : LeavesKeyState i) (h : SameView i.chan s u) (p : Snapshot) :
    ruleOf i u p = takeResult u i.chan (ruleOf i s p) := by
  cases i with
  | nop c => simp only [ruleOf, takeResult_ok, h.takeOwn_self]
  | ivDerive c seq => simp only [ruleOf, takeResult_ok, h.takeOwn_self]
  | setkey c => exact absurd rfl (hk c).1
  | genkey c => exact absurd rfl (hk c).2.1
  | zeroize c => exact absurd rfl (hk c).2.2
  | encrypt c seq =>
    refine onlyOn_takeResult ?_
    rintro rfl
    replace h : SameView .enc s u := h
    simp only [h.lengthInRange, h.keyReady, h.cipher, h.codec]
    cases encryptPaths s.cipher p.data ((s.codec .enc).start (p.iv seq) .cbc) with
    | error e => rfl
    | ok r => simp only [takeResult_ok, h.takeOwn_setRtpPadOut]
  | decrypt c seq pad =>
    refine onlyOn_takeResult ?_
    rintro rfl
    replace h : SameView .dec s u := h
    simp only [h.lengthInRange, h.keyReady, h.cipher, h.codec]
    cases decryptPaths s.cipher pad p.data ((s.codec .dec).start (p.iv seq) .cbc) with
    | error e => rfl
    | ok r => simp only [takeResult_ok, h.takeOwn_setCodec]
  | ctsEncInit c seq mode => exact onlyOn_takeResult (by rintro rfl; exact h.initRule seq mode p)
  | ctsDecInit c seq mode => exact onlyOn_takeResult (by rintro rfl; exact h.initRule seq mode p)
  | ctsEncUpdate c => exact onlyOn_takeResult (by rintro rfl; exact h.updateRule p)
  | ctsDecUpdate c => exact onlyOn_takeResult (by rintro rfl; exact h.updateRule p)
  | ctsEncFinal c => exact onlyOn_takeResult (by rintro rfl; exact h.finalRule)
  | ctsDecFinal c => exact onlyOn_takeResult (by rintro rfl; exact h.finalRule)

/-! ### The completions -/

theorem conclude_takeResult {c : Chan} {s u : State} (h : SameView c s u) (r : CommandResult) :
    conclude c u (takeResult u c r) = u.takeCompletion c (conclude c s r) (emitted r) := by
  cases r with
  | error e =>
    have hcodec : (raiseError c e s).codec c = u.codec c := by rw [codec_raiseError, h.codec]
    simp only [conclude_error, State.takeCompletion, State.takeOwn, hcodec, State.setCodec_codec,
      chan_raiseError, ← h.chan]
    cases c <;> rfl
  | ok r => cases c <;> rfl

theorem length_emitted_le {i : Instr} {s : State} (hs : s.Inv) (hz : ∀ c, i ≠ .zeroize c) (p : Snapshot) :
    (emitted (ruleOf i s p)).length ≤ s.maxLen + 16 := by
  cases hr : ruleOf i s p with
  | error e => exact Nat.zero_le _
  | ok r =>
    obtain ⟨-, hout⟩ := legalResult_ruleOf hs p i r.1 r.2 hr
    exact hout.trans_eq (by rw [(rule_keeps hz hr).maxLen])

/-- A completion of a command that leaves the key state alone, on any state of the same view, is one and the same write
of its channel's part. -/
theorem exec_of_sameView {i : Instr} {s si : State} (hs : s.Inv) (hk : LeavesKeyState i) (hi : exec i s = .next si) :
    ∃ out, out.length ≤ s.maxLen + 16
      ∧ ∀ u, SameView i.chan s u → exec i u = .next (u.takeCompletion i.chan si out) := by
  obtain ⟨p, hp, rfl⟩ := exec_next hi
  refine ⟨emitted (ruleOf i s p), length_emitted_le hs (fun c => (hk c).2.2) p, fun u hu => ?_⟩
  have hpu : u.Pends i.chan p := by rw [State.Pends, hu.chan, hp]
  rw [exec_of_pends hpu, ruleOf_takeResult hk hu, conclude_takeResult hu]

theorem Memory.writeBytes_comm {m : Memory} {a b : Nat} {l r : Bytes} (hm : m.wf = true)
    (h : a + l.length ≤ b ∨ b + r.length ≤ a) :
    (m.writeBytes a l).writeBytes b r = (m.writeBytes b r).writeBytes a l := by
  have hl := Memory.wf_writeBytes a l hm
  have hr := Memory.wf_writeBytes b r hm
  refine Memory.eq_of_read_eq (Memory.wf_writeBytes b r hl) (Memory.wf_writeBytes a l hr) fun x => ?_
  simp only [Memory.read_writeBytes _ _ _ hl, Memory.read_writeBytes _ _ _ hr, Memory.read_writeBytes _ _ _ hm]
  split_ifs with h1 h2
  · omega
  all_goals rfl

/-- Completions of the two channels write disjoint parts of the state. -/
theorem takeCompletion_comm {s t v : State} {out out' : Bytes} (hm : s.mem.wf = true) (hout : out.length ≤ 0x2000) :
    (s.takeCompletion .enc t out).takeCompletion .dec v out'
      = (s.takeCompletion .dec v out').takeCompletion .enc t out := by
  have hmem := Memory.writeBytes_comm (a := outBase .enc) (b := outBase .dec) (l := out) (r := out') hm
    (.inl (by simp only [outBase]; omega))
  exact congrArg (((s.takeOwn .enc t).takeOwn .dec v).setMem ·) hmem

/-- Settles O35: either order of the two completions is the two channels' writes, which commute. -/
theorem commandsOfTheTwoChannelsCommute : Obligations.CommandsOfTheTwoChannelsCommute := by
  intro i j s si sj hs hi hj hik hjk hsi hsj
  obtain ⟨out, hout, hexec⟩ := exec_of_sameView hs hik hsi
  obtain ⟨out', -, hexec'⟩ := exec_of_sameView hs hjk hsj
  rw [hi] at hexec
  rw [hj] at hexec'
  have hmax := hs.maxLen_le
  have hsi' : si = s.takeCompletion .enc si out := Host.Outcome.next.inj (hsi.symm.trans (hexec s (.refl .enc s)))
  have hsj' : sj = s.takeCompletion .dec sj out' := Host.Outcome.next.inj (hsj.symm.trans (hexec' s (.refl .dec s)))
  have hi_sj : exec i sj = .next (sj.takeCompletion .enc si out) :=
    hexec sj (by rw [hsj']; exact sameView_takeCompletion s .dec _ _)
  have hj_si : exec j si = .next (si.takeCompletion .dec sj out') :=
    hexec' si (by rw [hsi']; exact sameView_takeCompletion s .enc _ _)
  refine ⟨_, hj_si, ?_⟩
  rw [hi_sj]
  have hcomm := takeCompletion_comm (t := si) (v := sj) (out' := out') hs.mem_wf (show out.length ≤ 0x2000 by omega)
  rw [← hsi', ← hsj'] at hcomm
  rw [hcomm]

end Sys2Proof.Machine
end

section
/-!
SUPPORT. The host port (20_memory.md R51 to R58): which accesses are performed, what a read may change, what a write to
the input window stores, where nothing stands, and the answer of each place, lane by lane.
-/

namespace Sys2Proof.Machine

/-! ### Which accesses are performed -/

theorem accessPerformed_eq_false {width : Width} {off : BitVec 16} (h : width ≠ .w32 ∨ off.toNat % 4 ≠ 0) :
    accessPerformed width off = false := by
  rw [accessPerformed, Bool.and_eq_false_iff, decide_eq_false_iff_not, decide_eq_false_iff_not]
  exact h

/-- Settles O44. -/
theorem misalignedOrNarrowAccessIsABusError : Obligations.MisalignedOrNarrowAccessIsABusError := by
  intro width off w s rest a ha hs hbad
  have hnot := accessPerformed_eq_false hbad
  rw [step_of_agenda hs, runEvent]
  rcases ha with rfl | rfl
  all_goals rw [hostAccess, if_neg (by simp [hnot])]

/-- Settles O43: a read that is performed answers its word and may draw once; another gets the bus error. -/
theorem readsHaveNoSideEffects : Obligations.ReadsHaveNoSideEffects := by
  intro width off s rest hs
  rw [step_of_agenda hs, runEvent, hostAccess]
  by_cases hp : accessPerformed width off = true
  · rw [if_pos hp]
    refine ⟨_, _, rfl, ?_⟩
    split_ifs <;> simp
  · rw [if_neg hp]
    exact ⟨.accessFault, s.draws, rfl, le_rfl, by omega⟩

/-! ### Writes to the input window -/

theorem inBase_aligned_le (c : Chan) : inBase c % 4 = 0 ∧ inBase c + 0x2000 ≤ 0x10000 := by cases c <;> decide

theorem outBase_aligned_le (c : Chan) : outBase c % 4 = 0 ∧ outBase c + 0x2000 ≤ 0x10000 := by cases c <;> decide

/-- A write to a word of an idle channel's input window that begins below the capacity. -/
theorem step_write_inp {s : State} {c : Chan} {i : Nat} {w : Word} {rest : List Event}
    (h : s.agenda = writeEvent (inBase c + i) w :: rest) (hidle : s.busy c = false) (hmax : s.maxLen ≤ 8176)
    (h4 : i % 4 = 0) (hi : i < s.maxLen) :
    step s = .next (((s.setAgenda rest).setMem
      (s.mem.writeBytes (inBase c + i) ((wordBytes w).take (s.maxLen - i)))).setBus .written) := by
  obtain ⟨hbase4, hbase⟩ := inBase_aligned_le c
  rw [step_write h (by omega) (by omega), placeAt_inp c i (by omega), writePlace, maxLen_setAgenda, if_pos hi,
    unlessBusy_of_idle _ (by rw [busy_setAgenda, hidle]), mem_setAgenda]

/-- Settles O40: the bytes stored are those of the word below the capacity, from the word's offset on. -/
theorem inputWindowWritesStoreTheirBytes : Obligations.InputWindowWritesStoreTheirBytes := by
  intro c i w s rest h hidle hmax hwf h4 hi
  have hlen : ((wordBytes w).take (s.maxLen - i)).length = min (s.maxLen - i) 4 := List.length_take
  refine ⟨_, step_write_inp h hidle hmax h4 hi, fun j hj hij => ?_, fun a ha => ?_, fun e => by simp, ⟨rfl, rfl⟩,
    fun d => by simp, rfl, rfl, rfl, rfl, rfl, rfl⟩
  · rw [mem_setBus, mem_setMem, Memory.read_writeBytes _ _ _ hwf, hlen, if_pos (by omega), Nat.add_sub_cancel_left,
      getD_take, if_pos (by omega), getD_wordBytes w hj]
  · rw [mem_setBus, mem_setMem, Memory.read_writeBytes _ _ _ hwf, hlen, if_neg (by omega)]

/-! ### Reads, over the state before the read -/

theorem samePublic_setAgenda (s : State) (l : List Event) : SamePublic s (s.setAgenda l) where
  algId := rfl
  maxLen := rfl
  keyValid := rfl
  chan c := chan_setAgenda s l c
  codecBits d := by rw [codec_setAgenda]
  mem := rfl
  draws := rfl

section
variable {s : State} {rest : List Event}

/-- A performed read answers `readAnswer`, and draws a value if the place has unspecified bits. -/
theorem step_readAnswer {off : Nat} (h : s.agenda = readEvent off :: rest) (h4 : off % 4 = 0) (h16 : off < 0x10000) :
    step s = .next (((s.setAgenda rest).setBus (.data (readAnswer s (placeAt off)))).setDraws
      (if unspecifiedBits s (placeAt off) = 0 then s.draws else s.draws + 1)) := by
  have hsame := samePublic_setAgenda s rest
  rw [step_read h h4 h16, hsame.readAnswer, hsame.unspecifiedBits]

theorem step_readPlace {off : Nat} (h : s.agenda = readEvent off :: rest) (h4 : off % 4 = 0) (h16 : off < 0x10000)
    (hu : unspecifiedBits s (placeAt off) = 0) :
    step s = .next ((s.setAgenda rest).setBus (.data (readPlace s (placeAt off)))) := by
  have hsame := samePublic_setAgenda s rest
  rw [step_read_specified h h4 h16 (by rw [hsame.unspecifiedBits, hu]), hsame.readPlace]

/-- A read of a register of a channel's page with no unspecified bit. -/
theorem step_read_page {c : Chan} {k : Nat} (h : s.agenda = readEvent (pageBase c + k) :: rest) (h4 : k % 4 = 0)
    (hk : k < 0x100) (hu : unspecifiedBits s (placeOnPage c k) = 0) :
    step s = .next ((s.setAgenda rest).setBus (.data (readPlace s (placeOnPage c k)))) := by
  have hbase : pageBase c % 4 = 0 ∧ pageBase c ≤ 0x200 := by cases c <;> decide
  rw [← placeAt_page c k hk] at hu ⊢
  exact step_readPlace h (by omega) (by omega) hu

end

/-! ### Lanes and fields of the words the host reads -/

/-- Byte `j` of a word stands in bits `8j+7 : 8j` (20_memory.md R53). -/
theorem lane_wordOfBytes (f : Nat → Byte) {j : Nat} (hj : j < 4) :
    (wordOfBytes (f 0) (f 1) (f 2) (f 3)).extractLsb' (8 * j) 8 = f j := by
  unfold wordOfBytes
  have hskip {v w n : Nat} (hi : BitVec v) (lo : BitVec w) : (hi ++ lo).extractLsb' (w + n) 8 = hi.extractLsb' n 8 := by
    rw [BitVec.extractLsb'_append_eq_of_le (by omega), Nat.add_sub_cancel_left]
  interval_cases j
  · exact BitVec.extractLsb'_append_eq_right
  · exact (hskip _ (f 0)).trans BitVec.extractLsb'_append_eq_right
  · exact (hskip _ (f 0)).trans ((hskip _ (f 1)).trans BitVec.extractLsb'_append_eq_right)
  · exact (hskip _ (f 0)).trans ((hskip _ (f 1)).trans BitVec.extractLsb'_append_eq_left)

theorem lane_windowWord (m : Memory) (base cap i : Nat) {j : Nat} (hj : j < 4) :
    (windowWord m base cap i).extractLsb' (8 * j) 8 = windowByte m base cap (i + j) :=
  lane_wordOfBytes (fun k => windowByte m base cap (i + k)) hj

theorem lane_windowMask (cap i : Nat) {j : Nat} (hj : j < 4) :
    (windowMask cap i).extractLsb' (8 * j) 8 = if i + j < cap then 0xFF else 0 :=
  lane_wordOfBytes (fun k => if i + k < cap then 0xFF else 0) hj

theorem windowByte_of_lt {m : Memory} {base cap i : Nat} (h : i < cap) : windowByte m base cap i = m.read (base + i) :=
  if_pos h

theorem windowByte_of_le {m : Memory} {base cap i : Nat} (h : cap ≤ i) : windowByte m base cap i = 0 :=
  if_neg (by omega)

theorem windowWord_of_le (m : Memory) {base cap i : Nat} (h : cap ≤ i) : windowWord m base cap i = 0 := by
  simp (disch := omega) only [windowWord, windowByte_of_le]
  rfl

theorem windowMask_of_le {cap i : Nat} (h : cap ≤ i) : windowMask cap i = 0 := by
  simp (disch := omega) only [windowMask, if_neg]
  rfl

theorem whileBusy_of_idle {s : State} {c : Chan} (m : Word) (h : s.busy c = false) : whileBusy s c m = 0 :=
  if_neg (by simp [h])

@[simp] theorem whileBusy_zero (s : State) (c : Chan) : whileBusy s c 0 = 0 := ite_self 0

/-- Where no bit is unspecified, the answer's bits are those of the place. -/
theorem extractLsb'_readAnswer {s : State} {pl : Place} {lo n : Nat}
    (h : (unspecifiedBits s pl).extractLsb' lo n = 0) :
    (readAnswer s pl).extractLsb' lo n = (readPlace s pl).extractLsb' lo n := by
  unfold readAnswer
  split_ifs
  · rfl
  · ext k hk
    have hbit : (unspecifiedBits s pl).getLsbD (lo + k) = false := by
      simpa [hk] using congrArg (·.getLsbD k) h
    simpa [hbit] using BitVec.lt_of_getLsbD

theorem intEnWord_fields (s : State) (c : Chan) :
    (intEnWord s c).getLsbD 0 = (s.chan c).doneEn ∧ (intEnWord s c).getLsbD 1 = (s.chan c).ovrEn
      ∧ (intEnWord s c).extractLsb' 2 30 = 0 := by
  have hword : ∀ a b : Bool, (bitAt 0 a ||| bitAt 1 b).getLsbD 0 = a ∧ (bitAt 0 a ||| bitAt 1 b).getLsbD 1 = b
      ∧ (bitAt 0 a ||| bitAt 1 b).extractLsb' 2 30 = 0 := by decide
  exact hword _ _

/-- The unspecified bits of `CTS_STATE` are the fields of the busy directions (20_memory.md R58). -/
theorem unspecifiedBits_ctsState (s : State) :
    (s.busy .enc = false → (unspecifiedBits s .ctsState).extractLsb' 0 10 = 0)
      ∧ (s.busy .dec = false → (unspecifiedBits s .ctsState).extractLsb' 16 10 = 0)
      ∧ (unspecifiedBits s .ctsState).extractLsb' 10 6 = 0 ∧ (unspecifiedBits s .ctsState).extractLsb' 26 6 = 0 := by
  simp only [unspecifiedBits, whileBusy]
  generalize s.busy .enc = a
  generalize s.busy .dec = b
  revert a b
  decide

/-! ### Places where nothing stands -/

/-- The place is reserved, or a word of a window from its capacity on (20_memory.md R54). -/
def Vacant (maxLen : Nat) : Place → Prop
  | .reserved => True
  | .inp _ i => maxLen ≤ i
  | .out _ i => maxLen + 16 ≤ i
  | _ => False

theorem placeOnPage_of_le (c : Chan) {k : Nat} (h : 0x1C ≤ k) : placeOnPage c k = .reserved := by
  simp (disch := omega) only [placeOnPage, if_neg]

/-- The reserved ranges of the map outside the channels' pages and the windows. -/
theorem placeAt_gap {off : Nat} (h : (0x0C ≤ off ∧ off < 0x40) ∨ (0x60 ≤ off ∧ off < 0x100)
    ∨ (0x300 ≤ off ∧ off < 0x2000) ∨ 0xA000 ≤ off) : placeAt off = .reserved := by
  simp (disch := omega) only [placeAt, if_neg]

/-- Nothing stands at a reserved offset. -/
theorem vacant_placeAt {maxLen off : Nat} (hmax : maxLen ≤ 8176) (h : reservedOffset maxLen off) :
    Vacant maxLen (placeAt off) := by
  have hpage : ∀ c, pageBase c + 0x1C ≤ off → off < pageBase c + 0x100 → Vacant maxLen (placeAt off) := by
    intro c hlo hhi
    obtain ⟨k, rfl⟩ := Nat.exists_eq_add_of_le (show pageBase c ≤ off by omega)
    rw [placeAt_page c k (by omega), placeOnPage_of_le c (by omega)]
    trivial
  have hinp : ∀ c, inBase c + maxLen ≤ off → off < inBase c + 0x2000 → Vacant maxLen (placeAt off) := by
    intro c hlo hhi
    obtain ⟨i, rfl⟩ := Nat.exists_eq_add_of_le (show inBase c ≤ off by omega)
    rw [placeAt_inp c i (by omega)]
    exact Nat.le_of_add_le_add_left hlo
  have hout : ∀ c, outBase c + (maxLen + 16) ≤ off → off < outBase c + 0x2000 → Vacant maxLen (placeAt off) := by
    intro c hlo hhi
    obtain ⟨i, rfl⟩ := Nat.exists_eq_add_of_le (show outBase c ≤ off by omega)
    rw [placeAt_out c i (by omega)]
    exact Nat.le_of_add_le_add_left hlo
  have hgap : placeAt off = .reserved → Vacant maxLen (placeAt off) := fun hp => hp ▸ trivial
  rcases h with h | h | h | h | h | h | h | h | h
  · exact hgap (placeAt_gap (by omega))
  · exact hgap (placeAt_gap (by omega))
  · exact hpage .enc h.1 h.2
  · by_cases hlow : off < 0x300
    · exact hpage .dec h.1 hlow
    · exact hgap (placeAt_gap (by omega))
  · exact hinp .enc h.1 h.2
  · exact hout .enc h.1 h.2
  · exact hinp .dec h.1 h.2
  · exact hout .dec h.1 h.2
  · exact hgap (placeAt_gap (by omega))

section
variable {s : State} {pl : Place} (h : Vacant s.maxLen pl)
include h

theorem writePlace_of_vacant (w : Word) : writePlace s w pl = s := by
  cases pl with
  | reserved | out => rfl
  | inp c i => exact if_neg (Nat.not_lt.mpr h)
  | _ => exact h.elim

theorem readPlace_of_vacant : readPlace s pl = 0 := by
  cases pl with
  | reserved => rfl
  | inp c i => exact windowWord_of_le s.mem h
  | out c i => exact windowWord_of_le s.mem h
  | _ => exact h.elim

theorem unspecifiedBits_of_vacant : unspecifiedBits s pl = 0 := by
  cases pl with
  | reserved | inp => rfl
  | out c i => rw [unspecifiedBits, windowMask_of_le h, whileBusy_zero]
  | _ => exact h.elim

end

/-- Settles O41: the vacant places by their offsets, and the read-only and write-only places by name. -/
theorem reservedPlacesReadZeroAndIgnoreWrites : Obligations.ReservedPlacesReadZeroAndIgnoreWrites := by
  intro off w s rest h4 hmax
  constructor
  · intro h hoff
    have hignored : off < 0x10000 ∧ writePlace (s.setAgenda rest) w (placeAt off) = s.setAgenda rest := by
      rcases hoff with hres | rfl | rfl | rfl | ⟨c, rfl⟩ | ⟨c, hlo, hhi⟩
      · refine ⟨?_, writePlace_of_vacant (s := s.setAgenda rest) (vacant_placeAt hmax hres) w⟩
        unfold reservedOffset at hres
        omega
      · exact ⟨by decide, rfl⟩
      · exact ⟨by decide, rfl⟩
      · exact ⟨by decide, rfl⟩
      · exact ⟨by cases c <;> decide, by rw [placeAt_page c 0x10 (by decide)]; rfl⟩
      · obtain ⟨i, rfl⟩ := Nat.exists_eq_add_of_le hlo
        obtain ⟨-, hbase⟩ := outBase_aligned_le c
        exact ⟨by omega, by rw [placeAt_out c i (by omega)]; rfl⟩
    obtain ⟨h16, hkeep⟩ := hignored
    rw [step_write h h4 h16, hkeep]
  · rintro h (hres | ⟨hlo, hhi⟩)
    · have hvac := vacant_placeAt hmax hres
      have h16 : off < 0x10000 := by
        unfold reservedOffset at hres
        omega
      rw [step_readPlace h h4 h16 (unspecifiedBits_of_vacant hvac), readPlace_of_vacant hvac]
    · obtain ⟨k, rfl⟩ := Nat.exists_eq_add_of_le hlo
      have hplace := placeAt_keywin k (by omega)
      rw [step_readPlace h h4 (by omega) (by rw [hplace]; rfl), hplace]
      rfl

/-! ### The answer of each place -/

/-- Settles O42, place by place. -/
theorem readsAnswerTheMap : Obligations.ReadsAnswerTheMap := by
  intro c off s rest h hmax
  refine ⟨?alg, ?info, ?ctsState, ?cmd, ?status, ?intEn, ?len, ?outLen, ?seq0, ?seq1, ?inp, ?out⟩
  case alg =>
    rintro rfl
    exact step_readPlace h (by decide) (by decide) rfl
  case info =>
    rintro rfl
    exact step_readPlace h (by decide) (by decide) rfl
  case ctsState =>
    rintro rfl
    obtain ⟨henc, hdec, hlow, hhigh⟩ := unspecifiedBits_ctsState s
    obtain ⟨hlow', hhigh'⟩ := ctsStateWord_reserved s
    refine ⟨_, _, step_readAnswer h (by decide) (by decide), fun hbe hbd => if_pos ?_,
      fun hb => extractLsb'_readAnswer (henc hb), fun hb => extractLsb'_readAnswer (hdec hb),
      (extractLsb'_readAnswer hlow).trans hlow', (extractLsb'_readAnswer hhigh).trans hhigh'⟩
    show whileBusy s .enc _ ||| whileBusy s .dec _ = 0
    rw [whileBusy_of_idle _ hbe, whileBusy_of_idle _ hbd]
    rfl
  case cmd =>
    rintro rfl
    exact step_read_page (k := 0) h (by decide) (by decide) rfl
  case status =>
    rintro rfl
    exact step_read_page h (by decide) (by decide) rfl
  case intEn =>
    rintro rfl
    exact ⟨_, step_read_page h (by decide) (by decide) rfl, intEnWord_fields s c⟩
  case len =>
    rintro rfl
    exact step_read_page h (by decide) (by decide) rfl
  case outLen =>
    rintro rfl hidle
    exact step_read_page h (by decide) (by decide) (whileBusy_of_idle _ hidle)
  case seq0 =>
    rintro rfl
    exact step_read_page h (by decide) (by decide) rfl
  case seq1 =>
    rintro rfl
    rw [step_read_page h (by decide) (by decide) rfl]
    rfl
  case inp =>
    rintro i h4 hi rfl
    obtain ⟨hbase4, hbase⟩ := inBase_aligned_le c
    have hplace := placeAt_inp c i hi
    refine ⟨_, step_readPlace h (by omega) (by omega) (by rw [hplace]; rfl), fun j hj => ?_⟩
    rw [hplace, readPlace, lane_windowWord _ _ _ _ hj, windowByte, Nat.add_assoc]
  case out =>
    rintro i h4 hi rfl
    obtain ⟨hbase4, hbase⟩ := outBase_aligned_le c
    have hstep := step_readAnswer h (by omega) (by omega)
    rw [placeAt_out c i hi] at hstep
    refine ⟨_, _, hstep, fun hidle => if_pos (whileBusy_of_idle _ hidle), fun j hj hidle hij => ?_, fun j hj hij => ?_⟩
    · have hnone : unspecifiedBits s (.out c i) = 0 := whileBusy_of_idle _ hidle
      rw [readAnswer, if_pos hnone, readPlace, lane_windowWord _ _ _ _ hj, windowByte_of_lt hij, Nat.add_assoc]
    · have hlane : (unspecifiedBits s (.out c i)).extractLsb' (8 * j) 8 = 0 := by
        rw [unspecifiedBits, whileBusy]
        split_ifs
        · rw [lane_windowMask _ _ hj, if_neg (by omega)]
        · exact BitVec.extractLsb'_zero ..
      rw [extractLsb'_readAnswer hlane, readPlace, lane_windowWord _ _ _ _ hj, windowByte_of_le hij]

end Sys2Proof.Machine
end

section
/-!
SUPPORT. The command word (30_encoding.md R70 to R82): the fields each command reads, what decoding answers in terms of
them, and, field by field, when a word agrees with a command's encoding on the bits the command reads.
-/

namespace Sys2Proof

/-! ### The fields a command reads -/

/-- `SEQ_PRESENT` of a command that reads it (30_encoding.md R76 "fields read"). -/
def Instr.seqField : Instr → Option Bool
  | .encrypt _ seq | .decrypt _ seq _ | .ctsEncInit _ seq _ | .ctsDecInit _ seq _ | .ivDerive _ seq => some seq
  | _ => none

/-- `RTP_PAD_IN` of a command that reads it (30_encoding.md R76 "fields read"). -/
def Instr.padField : Instr → Option Bool
  | .decrypt _ _ pad => some pad
  | _ => none

/-- `CTS_MODE` of a command that reads it (30_encoding.md R76 "fields read"). -/
def Instr.modeField : Instr → Option CtsMode
  | .ctsEncInit _ _ mode | .ctsDecInit _ _ mode => some mode
  | _ => none

/-- The word holds the command: no reserved bit is set, the opcode is the command's, and so is each field it reads. -/
structure Instr.StandsIn (i : Instr) (w : Word) : Prop where
  reserved : reservedBitSet w = false
  opcode : opcodeOf w = i.opcode.toNat
  seq : ∀ b ∈ i.seqField, seqPresentOf w = b
  pad : ∀ b ∈ i.padField, rtpPadInOf w = b
  mode : ∀ m ∈ i.modeField, ctsModeOf w = m

/-! ### Decoding -/

/-- What a word decodes to stands in it, on a channel its row allows. -/
theorem decode_sound {c : Chan} {w : Word} {i : Instr} (h : decode c w = .ok i) :
    i.wellFormed = true ∧ i.chan = c ∧ i.StandsIn w := by
  unfold decode at h
  split at h
  · cases h
  · rename_i hres
    have hres : reservedBitSet w = false := by simpa using hres
    split at h <;> rename_i hop <;> cases c <;> cases h
    all_goals
      exact ⟨rfl, rfl, hres, hop, by simp [Instr.seqField], by simp [Instr.padField], by simp [Instr.modeField]⟩

/-- A word decodes to the well-formed command that stands in it. -/
theorem decode_of_standsIn {i : Instr} {w : Word} (hwf : i.wellFormed = true) (h : i.StandsIn w) :
    decode i.chan w = .ok i := by
  obtain ⟨hres, hop, hseq, hpad, hmode⟩ := h
  unfold decode
  rw [hres, hop]
  cases i with
  | nop | setkey | genkey | zeroize => rfl
  | ivDerive c seq =>
    rw [hseq seq rfl]
    rfl
  | encrypt c seq =>
    obtain rfl : c = .enc := of_decide_eq_true hwf
    rw [hseq seq rfl]
    rfl
  | decrypt c seq pad =>
    obtain rfl : c = .dec := of_decide_eq_true hwf
    rw [hseq seq rfl, hpad pad rfl]
    rfl
  | ctsEncInit c seq mode =>
    obtain rfl : c = .enc := of_decide_eq_true hwf
    rw [hseq seq rfl, hmode mode rfl]
    rfl
  | ctsDecInit c seq mode =>
    obtain rfl : c = .dec := of_decide_eq_true hwf
    rw [hseq seq rfl, hmode mode rfl]
    rfl
  | ctsEncUpdate c | ctsEncFinal c =>
    obtain rfl : c = .enc := of_decide_eq_true hwf
    rfl
  | ctsDecUpdate c | ctsDecFinal c =>
    obtain rfl : c = .dec := of_decide_eq_true hwf
    rfl

theorem decode_eq_ok_iff {c : Chan} {w : Word} {i : Instr} :
    decode c w = .ok i ↔ i.wellFormed = true ∧ i.chan = c ∧ i.StandsIn w := by
  constructor
  · exact decode_sound
  · rintro ⟨hwf, rfl, h⟩
    exact decode_of_standsIn hwf h

/-! ### Encoding -/

@[simp] theorem commandWord_zero (o : Word) : commandWord o false false .cbc = o := by
  simp [commandWord, CtsMode.toBits]

/-- The encoding has 0 in the fields a command ignores (30_encoding.md R82). -/
theorem encode_eq_commandWord (i : Instr) :
    encode i = commandWord i.opcode (i.seqField.getD false) (i.padField.getD false) (i.modeField.getD .cbc) := by
  cases i with
  | encrypt | decrypt | ctsEncInit | ctsDecInit | ivDerive => rfl
  | _ => exact (commandWord_zero _).symm

/-- The bits read are those of the opcode, the reserved bits, and all those of each field the command reads. -/
theorem readMask_eq_commandWord (i : Instr) : i.readMask =
    commandWord 0xFFFFF0FF i.seqField.isSome i.padField.isSome (if i.modeField.isSome then .mode3 else .cbc) := by
  cases i <;> simp [Instr.readMask, Instr.seqField, Instr.padField, Instr.modeField, commandWord, CtsMode.toBits]

/-- An opcode has only its five bits. -/
theorem Instr.opcode_fields (i : Instr) : i.opcode.extractLsb' 5 3 = 0 ∧ i.opcode[8] = false
    ∧ i.opcode[9] = false ∧ i.opcode.extractLsb' 10 2 = 0#2 ∧ i.opcode.extractLsb' 12 20 = 0
    ∧ (i.opcode.extractLsb' 0 5).toNat = i.opcode.toNat := by
  cases i <;> simp [opcode]

/-- Two words are equal when their fields are (30_encoding.md R70). -/
theorem word_eq_iff {v w : Word} : v = w ↔
    v.extractLsb' 0 5 = w.extractLsb' 0 5 ∧ v.extractLsb' 5 3 = w.extractLsb' 5 3 ∧ v[8] = w[8]
      ∧ v[9] = w[9] ∧ v.extractLsb' 10 2 = w.extractLsb' 10 2
      ∧ v.extractLsb' 12 20 = w.extractLsb' 12 20 := by
  constructor
  · rintro rfl
    simp
  · rintro ⟨h0, h5, h8, h9, h10, h12⟩
    have field {start len : Nat} (h : v.extractLsb' start len = w.extractLsb' start len) (k : Nat) (hk : k < len) :
        v.getLsbD (start + k) = w.getLsbD (start + k) := by
      simpa [hk] using congrArg (·.getLsbD k) h
    refine BitVec.eq_of_getLsbD_eq fun k hk => ?_
    by_cases k < 5
    · simpa using field h0 k (by omega)
    by_cases k < 8
    · simpa [show 5 + (k - 5) = k by omega] using field h5 (k - 5) (by omega)
    by_cases k = 8
    · simp [*]
    by_cases k = 9
    · simp [*]
    by_cases k < 12
    · simpa [show 10 + (k - 10) = k by omega] using field h10 (k - 10) (by omega)
    · simpa [show 12 + (k - 12) = k by omega] using field h12 (k - 12) (by omega)

section
variable (o : Word) (seq pad : Bool) (mode : CtsMode)

@[simp] theorem commandWord_opcode : (commandWord o seq pad mode).extractLsb' 0 5 = o.extractLsb' 0 5 := by
  ext k hk
  interval_cases k <;> simp [commandWord]

@[simp] theorem commandWord_low : (commandWord o seq pad mode).extractLsb' 5 3 = o.extractLsb' 5 3 := by
  ext k hk
  interval_cases k <;> simp [commandWord]

@[simp] theorem commandWord_seq : (commandWord o seq pad mode)[8] = (o[8] || seq) := by
  simp [commandWord]

@[simp] theorem commandWord_pad : (commandWord o seq pad mode)[9] = (o[9] || pad) := by
  simp [commandWord]

@[simp] theorem commandWord_mode :
    (commandWord o seq pad mode).extractLsb' 10 2 = o.extractLsb' 10 2 ||| mode.toBits := by
  ext k hk
  interval_cases k <;> simp [commandWord]

@[simp] theorem commandWord_high : (commandWord o seq pad mode).extractLsb' 12 20 = o.extractLsb' 12 20 := by
  ext k hk
  interval_cases k <;> simp [commandWord]

end

theorem CtsMode.ofBits_eq_iff (b : BitVec 2) (m : CtsMode) : ofBits b = m ↔ b = m.toBits := by
  cases m <;> revert b <;> decide

theorem reservedBitSet_eq_false_iff {w : Word} :
    reservedBitSet w = false ↔ w.extractLsb' 5 3 = 0 ∧ w.extractLsb' 12 20 = 0 := by
  simp [reservedBitSet]

/-- A flag masked by whether it is read agrees with its value, or 0, exactly when it has the value that is read. -/
theorem masked_flag_iff (b : Bool) (f : Option Bool) : (b && f.isSome) = f.getD false ↔ ∀ x ∈ f, b = x := by
  cases f <;> simp

/-- The like for the mode, whose mask is the code of `mode3`. -/
theorem masked_mode_iff (b : BitVec 2) (f : Option CtsMode) :
    b &&& (if f.isSome then CtsMode.mode3 else .cbc).toBits = (f.getD .cbc).toBits ↔ ∀ m ∈ f, CtsMode.ofBits b = m := by
  cases f with
  | none => simp [CtsMode.toBits]
  | some m =>
    have h3 : b &&& CtsMode.mode3.toBits = b := BitVec.and_allOnes
    simp [CtsMode.ofBits_eq_iff, h3]

/-- The mask of the bits every command reads covers the opcode and the reserved bits, and no other field. -/
theorem commonMask_fields : (0xFFFFF0FF : Word).extractLsb' 0 5 = BitVec.allOnes 5
    ∧ (0xFFFFF0FF : Word).extractLsb' 5 3 = BitVec.allOnes 3 ∧ (0xFFFFF0FF : Word)[8] = false
    ∧ (0xFFFFF0FF : Word)[9] = false ∧ (0xFFFFF0FF : Word).extractLsb' 10 2 = 0#2
    ∧ (0xFFFFF0FF : Word).extractLsb' 12 20 = BitVec.allOnes 20 := by
  decide

theorem standsIn_iff {w : Word} {i : Instr} : i.StandsIn w ↔
    w.extractLsb' 0 5 = i.opcode.extractLsb' 0 5 ∧ w.extractLsb' 5 3 = 0 ∧ (∀ b ∈ i.seqField, w[8] = b)
      ∧ (∀ b ∈ i.padField, w[9] = b) ∧ (∀ m ∈ i.modeField, CtsMode.ofBits (w.extractLsb' 10 2) = m)
      ∧ w.extractLsb' 12 20 = 0 := by
  obtain ⟨-, -, -, -, -, hopcode⟩ := i.opcode_fields
  rw [← BitVec.toNat_inj, hopcode]
  constructor
  · rintro ⟨hres, hop, hseq, hpad, hmode⟩
    obtain ⟨hlow, hhigh⟩ := reservedBitSet_eq_false_iff.1 hres
    exact ⟨hop, hlow, hseq, hpad, hmode, hhigh⟩
  · rintro ⟨hop, hlow, hseq, hpad, hmode, hhigh⟩
    exact ⟨reservedBitSet_eq_false_iff.2 ⟨hlow, hhigh⟩, hop, hseq, hpad, hmode⟩

/-! ### Decode and encode agree -/

/-- A command stands in a word exactly when the word agrees with its encoding on the bits it reads. -/
theorem and_readMask_eq_encode_iff {w : Word} {i : Instr} : w &&& i.readMask = encode i ↔ i.StandsIn w := by
  obtain ⟨h5, h8, h9, h10, h12, -⟩ := i.opcode_fields
  obtain ⟨m0, m5, m8, m9, m10, m12⟩ := commonMask_fields
  rw [encode_eq_commandWord, readMask_eq_commandWord, word_eq_iff, standsIn_iff]
  simp only [BitVec.extractLsb'_and, BitVec.getElem_and, commandWord_opcode, commandWord_low, commandWord_seq,
    commandWord_pad, commandWord_mode, commandWord_high, h5, h8, h9, h10, h12, m0, m5, m8, m9, m10, m12,
    BitVec.and_allOnes, BitVec.zero_or, Bool.false_or, masked_flag_iff, masked_mode_iff]

/-- Settles O50: both sides say that the command is well formed on the channel and stands in the word. -/
theorem decodeMatchesEncodeOnReadBits : Obligations.DecodeMatchesEncodeOnReadBits := by
  intro c w i
  rw [decode_eq_ok_iff, and_readMask_eq_encode_iff]

/-! ### The illegal words -/

/-- A word is refused for a reserved bit, for an opcode beyond the table, or for its channel, where the table gives the
opcode to the other channel alone (30_encoding.md R75, R76, R78). -/
theorem decode_eq_error_iff {c : Chan} {w : Word} : (∃ e, decode c w = .error e) ↔
    reservedBitSet w = true ∨ 10 ≤ opcodeOf w ∨ (opcodeOf w = 3 ∧ c = .dec) ∨ (opcodeOf w = 4 ∧ c = .enc) := by
  unfold decode
  split
  · rename_i hres
    simp [hres]
  · rename_i hres
    split
    case h_11 =>
      have hop : 10 ≤ opcodeOf w := by
        simp only [imp_false] at *
        omega
      simp [hop]
    all_goals
      rename_i hop
      cases c <;> simp [hres, hop]

/-- Settles O51: the same set, with the reserved bits and the opcode written out. -/
theorem illegalWordsAreExactlyThese : Obligations.IllegalWordsAreExactlyThese := by
  intro c w
  rw [decode_eq_error_iff, ← Bool.not_eq_false, reservedBitSet_eq_false_iff, not_and_or, or_assoc]
  rfl

/-- Settles O52, by evaluating the decoder on the ten words. -/
theorem wordsOfTheSpecDecode : Obligations.WordsOfTheSpecDecode := by
  unfold Obligations.WordsOfTheSpecDecode
  decide

end Sys2Proof
end

section
/-!
SUPPORT. The commands on a channel their row of the opcode table forbids (30_encoding.md R78, log 19).
-/

namespace Sys2Proof.Machine

theorem onlyOn_of_ne {d c : Chan} (h : c ≠ d) (k : CommandResult) : onlyOn d c k = .error .illegalCommand := by
  rw [onlyOn, decide_eq_false h, require_false]

/-- The channel check comes first, so an ill-formed command raises nothing else. -/
theorem ruleOf_of_not_wellFormed {i : Instr} (h : i.wellFormed = false) (s : State) (p : Snapshot) :
    ruleOf i s p = .error .illegalCommand := by
  cases i with
  | nop | setkey | genkey | ivDerive | zeroize => cases h
  | _ => exact onlyOn_of_ne (of_decide_eq_false h) _

/-- Settles O32: an ill-formed command's rule is the error alone, and `raise` leaves the rest as it was. -/
theorem wrongChannelIsIllegalCommand : Obligations.WrongChannelIsIllegalCommand := by
  intro i s p hwf hp
  refine ⟨raiseError i.chan .illegalCommand s, ?_, failed_raiseError i.chan .illegalCommand⟩
  rw [exec_of_pends hp, ruleOf_of_not_wellFormed hwf, conclude_error]

end Sys2Proof.Machine
end

section
/-!
SUPPORT. The bytes of the derived IV (41_iv_deriver.md R90, R91) and the command that emits it (R93).
-/

namespace Sys2Proof.Machine

/-! ### The derivation -/

/-- Byte `i` of the copies lies in copy `i / len(s)`, at position `i mod len(s)` (41_iv_deriver.md R91). -/
theorem getD_repeatBytes (s : Bytes) {n i : Nat} (h : i < n * s.length) :
    (repeatBytes n s).getD i 0 = s.getD (i % s.length) 0 := by
  induction n generalizing i with
  | zero => omega
  | succ n ih =>
    rw [Nat.succ_mul] at h
    rw [repeatBytes, getD_append]
    split_ifs with hi
    · rw [Nat.mod_eq_of_lt hi]
    · rw [ih (by omega), ← Nat.mod_eq_sub_mod (Nat.le_of_not_lt hi)]

/-- The remainder bytes continue the tiling: they are the beginning of one more copy. -/
theorem getD_ivDerive (q : Vector Byte 6) {l i : Nat} (h : i < l) :
    (ivDerive l (some q)).getD i 0 = q.toList.getD (i % 6) 0 := by
  rw [ivDerive, getD_append, length_repeatBytes, Vector.length_toList]
  split_ifs with hi
  · rw [getD_repeatBytes _ (by simpa using hi), Vector.length_toList]
  · have hpos : i - l / 6 * 6 = i % 6 ∧ i % 6 < l % 6 := by omega
    rw [getD_take, hpos.1, if_pos hpos.2]

/-- Settles O3: the length, each byte, and the zero IV, which is `zeros` by definition. -/
theorem ivDeriveTilesTheSequence : Obligations.IvDeriveTilesTheSequence :=
  fun l q => ⟨length_ivDerive l (some q), fun _ => getD_ivDerive q, rfl⟩

/-! ### The command -/

/-- The IV of a command, by its `SEQ_PRESENT` (30_encoding.md R72, 41_iv_deriver.md R92). -/
theorem getD_ivDerive_seed (p : Snapshot) (present : Bool) {l i : Nat} (h : i < l) :
    (ivDerive l (p.seed present)).getD i 0 = if present = true then p.seq.toList.getD (i % 6) 0 else 0 := by
  cases present with
  | false => exact getD_zeros l i
  | true => exact getD_ivDerive p.seq h

/-- A command whose rule leaves the state as it was completes with its output (44_control.md R163). -/
theorem completed_finish_self {s : State} (c : Chan) {out : Bytes} (hmem : s.mem.wf = true)
    (hlen : out.length < 2 ^ 16) : Completed c out s (finish c out s) :=
  completed_finish hmem hlen rfl rfl rfl rfl rfl rfl rfl rfl rfl rfl rfl rfl

/-- Settles O4: the command's rule cannot fail and writes nothing of its own, so the step is `finish` alone. -/
theorem ivDeriveCommandEmitsTheIv : Obligations.IvDeriveCommandEmitsTheIv := by
  intro c seq s p hp hmem
  have hlen : (ivDerive 16 (p.seed seq)).length = 16 := length_ivDerive 16 _
  exact ⟨ivDerive 16 (p.seed seq), finish c (ivDerive 16 (p.seed seq)) s, exec_of_pends hp, hlen,
    fun _ => getD_ivDerive_seed p seq, completed_finish_self c hmem (by rw [hlen]; decide),
    chan_finish_of_ne s c _ _ (otherChan_ne c), ⟨key_finish s c _, keyValid_finish s c _⟩, codec_finish s c _,
    rtpPadOut_finish c _ s, draws_finish s c _⟩

end Sys2Proof.Machine
end

section
/-!
SUPPORT. What a codec state holds back of a stream (42_cts_codec.md R102, R103): the stream is what was transformed,
then the pending-final block, then the buffered bytes; every update keeps this, and so does every chunking of a stream.
-/

namespace Sys2Proof.Machine

/-! ### The bytes held back -/

/-- The buffered bytes `BUF[0..BLEN)` (10_state.md R31). -/
def Codec.piece (x : Codec) : Bytes :=
  x.buf.toList.take x.blen

/-- The bytes of the pending-final block, if there is one (10_state.md R32). -/
def Codec.pending (x : Codec) : Bytes :=
  if x.fused = true then x.fin.toList else []

theorem Codec.length_piece {x : Codec} (h : x.blen ≤ 16) : x.piece.length = x.blen := by
  simpa [Codec.piece] using h

theorem Codec.pending_of_fused {x : Codec} (h : x.fused = true) : x.pending = x.fin.toList := if_pos h

theorem Codec.pending_of_not_fused {x : Codec} (h : x.fused = false) : x.pending = [] := if_neg (by simp [h])

theorem emittedBy_eq_pending (s : Codec) (y : Bytes) :
    emittedBy s y = s.pending ++ y.take (y.length - tailLength y.length - 16) := rfl

section
variable (K : KeyedCipher) (d : Chan)

@[simp] theorem cmode_xs (bytes : Bytes) (s : Codec) : (xs K d bytes s).2.cmode = s.cmode := by rw [xs_codec]

/-- The codec state `s` has transformed the leading blocks `pre` of the stream `x`, starting from `s0`, has emitted
`out`, and holds the rest of `x` back. -/
structure Codec.Split (s0 : Codec) (x out : Bytes) (s : Codec) (pre : Bytes) : Prop where
  cmode : s.cmode = s0.cmode
  pmode : s.pmode = s0.pmode
  ok : s.Ok
  aligned : pre.length % 16 = 0
  nothing_before : s.fused = false → pre = []
  stream : x = pre ++ (s.pending ++ s.piece)
  emitted : out = (xs K d pre s0).1
  chain : s.chain = (xs K d pre s0).2.chain

end

/-! ### The lengths of the parts -/

/-- The block before the held piece is a whole block. -/
theorem toList_pack_before_tail {y : Bytes} (h : 16 < y.length) :
    (pack 16 ((y.drop (y.length - tailLength y.length - 16)).take 16)).toList
      = (y.drop (y.length - tailLength y.length - 16)).take 16 := by
  have hspec := (tailLength_spec h).1
  exact pack_toList_of_length (by simp; omega)

/-- A string of more than 16 bytes is what stands before the last whole block, that block, and the held piece. -/
theorem eq_append_at_tail {y : Bytes} (h : 16 < y.length) :
    y = y.take (y.length - tailLength y.length - 16)
      ++ ((y.drop (y.length - tailLength y.length - 16)).take 16 ++ y.drop (y.length - tailLength y.length)) := by
  have hspec := (tailLength_spec h).1
  rw [show y.length - tailLength y.length = y.length - tailLength y.length - 16 + 16 by omega, Nat.add_sub_cancel,
    ← List.drop_drop, List.take_append_drop, List.take_append_drop]

/-- A string of more than 16 bytes is whole blocks, one more block, and a piece of 1 to 16 bytes. -/
theorem exists_parts {x : Bytes} (h : 16 < x.length) :
    ∃ (pre : Bytes) (fin : Block) (piece : Bytes), x = pre ++ (fin.toList ++ piece) ∧ pre.length % 16 = 0
      ∧ 1 ≤ piece.length ∧ piece.length ≤ 16 := by
  obtain ⟨hle, hmod⟩ := tailLength_spec h
  have hpos := tailLength_pos x.length
  have h16 := tailLength_le x.length
  refine ⟨x.take (x.length - tailLength x.length - 16),
    pack 16 ((x.drop (x.length - tailLength x.length - 16)).take 16), x.drop (x.length - tailLength x.length),
    ?_, ?_, ?_, ?_⟩
  · rw [toList_pack_before_tail h]
    exact eq_append_at_tail h
  · rw [List.length_take]
    omega
  · rw [List.length_drop]
    omega
  · rw [List.length_drop]
    omega

section
variable {pre piece : Bytes} {fin : Block} (hpre : pre.length % 16 = 0) (h1 : 1 ≤ piece.length)
  (h16 : piece.length ≤ 16)
include hpre h1 h16

theorem tailLength_parts : tailLength (pre ++ (fin.toList ++ piece)).length = piece.length := by
  simp only [List.length_append, Vector.length_toList, tailLength]
  omega

/-- The parts of a string are determined by the string. -/
theorem parts_unique {pre' piece' : Bytes} {fin' : Block} (hpre' : pre'.length % 16 = 0) (h1' : 1 ≤ piece'.length)
    (h16' : piece'.length ≤ 16) (h : pre ++ (fin.toList ++ piece) = pre' ++ (fin'.toList ++ piece')) :
    pre = pre' ∧ fin = fin' ∧ piece = piece' := by
  have hlen := congrArg List.length h
  simp only [List.length_append, Vector.length_toList] at hlen
  obtain ⟨rfl, hrest⟩ := List.append_inj h (by omega)
  obtain ⟨hfin, rfl⟩ := List.append_inj hrest (by simp)
  exact ⟨rfl, Vector.toList_inj.mp hfin, rfl⟩

/-- The parts of a string, by the positions at which 42_cts_codec.md R103 cuts it. -/
theorem cut_parts {x : Bytes} (hx : x = pre ++ (fin.toList ++ piece)) :
    x.drop (x.length - tailLength x.length) = piece
      ∧ (x.drop (x.length - tailLength x.length - 16)).take 16 = fin.toList
      ∧ x.take (x.length - tailLength x.length - 16) = pre := by
  subst hx
  have hfin : (pre ++ fin.toList).length = pre.length + 16 := by simp
  rw [tailLength_parts hpre h1 h16,
    show (pre ++ (fin.toList ++ piece)).length - piece.length = pre.length + 16 by simp; omega, Nat.add_sub_cancel]
  refine ⟨?_, ?_, List.take_left' rfl⟩
  · rw [← List.append_assoc, List.drop_left' hfin]
  · rw [List.drop_left' rfl, List.take_left' (by simp)]

end

/-! ### The relation of R103, by the parts of the stream -/

section
variable {K : KeyedCipher} {d : Chan} {s0 s : Codec} {x out pre : Bytes}

/-- A codec state of the relation of R103 splits the stream it has taken. -/
theorem Codec.HasTaken.exists_split (h : Codec.HasTaken K d s0 x out s) : ∃ pre, Codec.Split K d s0 x out s pre := by
  rcases Nat.lt_or_ge 16 x.length with hx | hx
  · obtain ⟨hfused, hblen, hbuf, hfin, hout, hchain⟩ := h.beyond hx
    obtain ⟨pre, fin, piece, hparts, hpre, h1, h16⟩ := exists_parts hx
    obtain ⟨hdrop, hblock, htake⟩ := cut_parts hpre h1 h16 hparts
    have hpiece : s.piece = piece := by rw [Codec.piece, hblen, hbuf, hdrop]
    refine ⟨pre, h.cmode, h.pmode, ⟨?_, fun _ => ?_⟩, hpre, fun hf => ?_, ?_, ?_, ?_⟩
    · exact hblen ▸ tailLength_le _
    · exact hblen ▸ tailLength_pos _
    · rw [hfused] at hf
      cases hf
    · rw [Codec.pending_of_fused hfused, hfin, hblock, hpiece, hparts]
    · rw [hout, htake]
    · rw [hchain, htake]
  · obtain ⟨hout, hfused, hblen, hbuf, hchain⟩ := h.within hx
    refine ⟨[], h.cmode, h.pmode, ⟨by omega, fun hf => ?_⟩, rfl, fun _ => rfl, ?_, by simp [hout], by simp [hchain]⟩
    · rw [hfused] at hf
      cases hf
    · rw [Codec.pending_of_not_fused hfused, Codec.piece, hblen, hbuf]
      rfl

theorem Codec.Split.length_piece (h : Codec.Split K d s0 x out s pre) : s.piece.length = s.blen :=
  Codec.length_piece h.ok.blen_le

/-- A codec state that splits the stream it has taken is in the relation of R103. -/
theorem Codec.Split.hasTaken (h : Codec.Split K d s0 x out s pre) : Codec.HasTaken K d s0 x out s := by
  have hlen := h.length_piece
  have hle := h.ok.blen_le
  cases hf : s.fused with
  | false =>
    have hpre := h.nothing_before hf
    have hx : x = s.piece := by rw [h.stream, hpre, Codec.pending_of_not_fused hf]; rfl
    have hxl : x.length = s.blen := by rw [hx, hlen]
    refine ⟨h.cmode, h.pmode, fun _ => ?_, fun hgt => by omega⟩
    refine ⟨by rw [h.emitted, hpre, xs_nil], hf, hxl.symm, ?_, by rw [h.chain, hpre, xs_nil]⟩
    rw [hxl]
    exact hx.symm
  | true =>
    have hx : x = pre ++ (s.fin.toList ++ s.piece) := by rw [h.stream, Codec.pending_of_fused hf]
    have h1 : 1 ≤ s.piece.length := hlen ▸ h.ok.fused_pos hf
    obtain ⟨hdrop, hblock, htake⟩ := cut_parts h.aligned h1 (hlen ▸ hle) hx
    have htail : tailLength x.length = s.blen := by rw [hx, tailLength_parts h.aligned h1 (hlen ▸ hle), hlen]
    refine ⟨h.cmode, h.pmode, fun hshort => ?_, fun _ => ?_⟩
    · rw [hx] at hshort
      simp at hshort
      omega
    · refine ⟨hf, htail.symm, ?_, hblock.symm, by rw [htake, h.emitted], by rw [htake, h.chain]⟩
      rw [hdrop, htail]
      rfl

/-! ### An update, and a stream in chunks -/

/-- An update that stays within the buffer appends to the held piece alone (42_cts_codec.md R102). -/
theorem Codec.Split.update_within (h : Codec.Split K d s0 x out s pre) {inp : Bytes}
    (hw : s.blen + inp.length ≤ 16) :
    Codec.Split K d s0 (x ++ inp) (out ++ (ctsUpdate K d inp s).1) (ctsUpdate K d inp s).2 pre := by
  have hok := ctsUpdate_ok K d inp h.ok
  rw [ctsUpdate_within K d hw] at hok ⊢
  refine ⟨h.cmode, h.pmode, hok, h.aligned, h.nothing_before, ?_, by simpa using h.emitted, h.chain⟩
  have hpiece : (splice s.buf s.blen inp).toList.take (s.blen + inp.length) = s.piece ++ inp := take_splice _ _ _ hw
  rw [h.stream, List.append_assoc, List.append_assoc, ← hpiece]
  rfl

/-- An update that overflows the buffer transforms, after the blocks before, what it no longer holds back
(42_cts_codec.md R102). -/
theorem Codec.Split.update_beyond (h : Codec.Split K d s0 x out s pre) {inp : Bytes}
    (hgt : 16 < s.blen + inp.length) :
    Codec.Split K d s0 (x ++ inp) (out ++ (ctsUpdate K d inp s).1) (ctsUpdate K d inp s).2
      (pre ++ emittedBy s (s.piece ++ inp)) := by
  have hok := ctsUpdate_ok K d inp h.ok
  obtain ⟨y, hy⟩ : ∃ y, y = s.piece ++ inp := ⟨_, rfl⟩
  have hylen : 16 < y.length := by rwa [hy, List.length_append, h.length_piece]
  obtain ⟨buf, hbuf, hu⟩ := ctsUpdate_beyond K d h.ok.blen_le hgt hy
  have hcongr := xs_congr K d (emittedBy s y) (s := (xs K d pre s0).2) (u := s) (by simp [h.cmode]) h.chain
  have hxs := xs_append K d (emittedBy s y) s0 h.aligned
  rw [hu] at hok ⊢
  rw [← hy]
  refine ⟨h.cmode, h.pmode, hok, ?_, nofun, ?_, ?_, ?_⟩
  · have hmod := length_emittedBy_mod s hylen
    have hpre := h.aligned
    rw [List.length_append]
    omega
  · have hcut := eq_append_at_tail hylen
    rw [Codec.pending_of_fused rfl, Codec.piece, emittedBy_eq_pending, hbuf, toList_pack_before_tail hylen,
      List.append_assoc, List.append_assoc, ← hcut, hy, h.stream, List.append_assoc, List.append_assoc]
  · rw [hxs, h.emitted, hcongr.1]
  · rw [hxs]
    exact hcongr.2

/-- An update appends its input to the stream, whatever it overflows. -/
theorem Codec.Split.update (h : Codec.Split K d s0 x out s pre) (inp : Bytes) :
    ∃ pre', Codec.Split K d s0 (x ++ inp) (out ++ (ctsUpdate K d inp s).1) (ctsUpdate K d inp s).2 pre' := by
  rcases Nat.lt_or_ge 16 (s.blen + inp.length) with hgt | hw
  · exact ⟨_, h.update_beyond hgt⟩
  · exact ⟨_, h.update_within hw⟩

end

/-- Settles O60: an update appends to the parts of the stream, and the relation is the one of the parts. -/
theorem updateKeepsTheBufferRelation : Obligations.UpdateKeepsTheBufferRelation := by
  intro K d s0 s x out inp h
  obtain ⟨pre, hsplit⟩ := h.exists_split
  obtain ⟨pre', hsplit'⟩ := hsplit.update inp
  exact hsplit'.hasTaken

section
variable {K : KeyedCipher} {d : Chan} {s0 s : Codec} {x out : Bytes}

/-- An empty direction has taken nothing. -/
theorem Codec.Empty.hasTaken (h : s.Empty) : Codec.HasTaken K d s [] [] s :=
  ⟨rfl, rfl, fun _ => ⟨rfl, h.2, h.1, rfl, rfl⟩, nofun⟩

/-- Feeding chunks appends them all to the stream. -/
theorem Codec.HasTaken.feed_append (chunks : List Bytes) (h : Codec.HasTaken K d s0 x out s) :
    Codec.HasTaken K d s0 (x ++ chunks.flatten) (out ++ (feed K d chunks s).1) (feed K d chunks s).2 := by
  induction chunks generalizing x out s with
  | nil => simpa [feed] using h
  | cons inp rest ih => simpa [feed] using ih (updateKeepsTheBufferRelation K d s0 s x out inp h)

theorem hasTaken_feed (chunks : List Bytes) (h : s.Empty) :
    Codec.HasTaken K d s chunks.flatten (feed K d chunks s).1 (feed K d chunks s).2 := by
  simpa using h.hasTaken.feed_append chunks

end

/-- Settles O24: the chunks are fed one update each, and each update keeps the relation of R103. -/
theorem bufferInvariantForEveryChunking : Obligations.BufferInvariantForEveryChunking := by
  intro K d chunks s hs
  have h : Codec.HasTaken K d s chunks.flatten _ _ := hasTaken_feed chunks hs
  refine ⟨fun hle => ?_, h.beyond⟩
  obtain ⟨hout, hfused, hblen, hbuf, -⟩ := h.within hle
  exact ⟨hout, hfused, hblen, hbuf⟩

end Sys2Proof.Machine
end

section
/-!
SUPPORT. What the final of a stream emits (42_cts_codec.md R105 to R108), by the held bytes alone, and so what a whole
stream emits (R117, R118): a function of its bytes, the mode and the chaining value.
-/

namespace Sys2Proof.Machine

/-! ### The net values of the final -/

/-- The short piece completed by the tail of a block: `BUF[0..t) ++ Y[t..16)` (42_cts_codec.md R105, R107, R108). -/
def completedBy (piece : Bytes) (y : Block) : Block :=
  pack 16 (piece ++ y.toList.drop piece.length)

/-- The short piece padded with zeros (42_cts_codec.md R106, R108). -/
def zeroPadded (piece : Bytes) : Block :=
  pack 16 (piece ++ zeros (16 - piece.length))

/-- What the final emits for the pending-final block and the short piece, and the chaining value it leaves: the net
values of 42_cts_codec.md R105 to R108. -/
def finalNet (K : KeyedCipher) (d : Chan) (mode : CtsMode) (chain fin : Block) (piece : Bytes) : Bytes × Block :=
  if mode = .ecb then
    let f := match d with
      | .enc => K.e
      | .dec => K.d
    ((f (completedBy piece (f fin))).toList ++ (f fin).toList.take piece.length, chain)
  else
    match d with
    | .enc =>
      let y := K.e (xorBlock fin chain)
      let z := K.e (xorBlock (zeroPadded piece) y)
      (z.toList ++ y.toList.take piece.length, z)
    | .dec =>
      let v := xorBlock (K.d fin) (zeroPadded piece)
      let y := completedBy piece v
      ((xorBlock (K.d y) chain).toList ++ v.toList.take piece.length, y)

theorem splice_drop_eq_completedBy (v y : Block) {t : Nat} (h : t ≤ 16) :
    splice v t (y.toList.drop t) = completedBy (v.toList.take t) y := by
  rw [splice_full _ _ _ (by simp; omega), completedBy]
  simp [h]

theorem splice_zeros_eq_zeroPadded (v : Block) {t : Nat} (h : t ≤ 16) :
    splice v t (zeros (16 - t)) = zeroPadded (v.toList.take t) := by
  rw [splice_full _ _ _ (by simp; omega), zeroPadded]
  simp [h]

section
variable (K : KeyedCipher) (d : Chan)

/-- The final step emits the net values; of the buffer it reads the short piece alone. -/
theorem finalStep_eq_finalNet {s : Codec} (h : s.blen ≤ 16) :
    (finalStep K d s).1 = (finalNet K d s.cmode s.chain s.fin s.piece).1
      ∧ (finalStep K d s).2.chain = (finalNet K d s.cmode s.chain s.fin s.piece).2 := by
  unfold finalStep finalNet
  by_cases hm : s.cmode = .ecb
  · cases d with
    | enc => simp [hm, finalEncEcb, splice_drop_eq_completedBy _ _ h, Codec.piece, h]
    | dec => simp [hm, finalDecEcb, splice_drop_eq_completedBy _ _ h, Codec.piece, h]
  · cases d with
    | enc => simp [hm, finalEncCbc, splice_zeros_eq_zeroPadded _ h, Codec.piece, h]
    | dec => simp [hm, finalDecCbc, completedBy, zeroPadded, Codec.piece, h]

/-- The final of a codec state that holds a block and a piece (42_cts_codec.md R104, R109). -/
theorem ctsFinal_eq_finalNet {s : Codec} (hok : s.Ok) (hf : s.fused = true) :
    ∃ buf, ctsFinal K d s = .ok ((finalNet K d s.cmode s.chain s.fin s.piece).1,
      { s with
        buf := buf, blen := 0, fused := false
        chain := (finalNet K d s.cmode s.chain s.fin s.piece).2 }) := by
  obtain ⟨hout, hchain⟩ := finalStep_eq_finalNet K d hok.blen_le
  have hpos := hok.fused_pos hf
  refine ⟨(finalStep K d s).2.buf, ?_⟩
  rw [ctsFinal_of_held K d hf (by omega), ← hout, ← hchain, finalStep_codec]

theorem length_finalNet (mode : CtsMode) (chain fin : Block) {piece : Bytes} (h : piece.length ≤ 16) :
    (finalNet K d mode chain fin piece).1.length = 16 + piece.length := by
  unfold finalNet
  split_ifs <;> cases d <;> simp [h]

/-! ### A whole stream -/

variable {chunks : List Bytes} {s : Codec}

/-- A stream that never overflows the buffer has no final (42_cts_codec.md R104). -/
theorem streamOut_of_le (hs : s.Empty) (h : chunks.flatten.length ≤ 16) :
    streamOut K d chunks s = .error .missingState := by
  obtain ⟨-, hfused, -⟩ := (hasTaken_feed (K := K) (d := d) chunks hs).within h
  rw [streamOut, ctsFinal_of_not_held K d (.inl hfused)]

/-- A longer stream gives the transformation of its leading blocks and the net values of the final on the rest. -/
theorem streamOut_of_parts {pre piece : Bytes} {fin : Block} (hs : s.Empty)
    (hx : chunks.flatten = pre ++ (fin.toList ++ piece)) (hpre : pre.length % 16 = 0) (h1 : 1 ≤ piece.length)
    (h16 : piece.length ≤ 16) :
    streamOut K d chunks s
      = .ok ((xs K d pre s).1 ++ (finalNet K d s.cmode (xs K d pre s).2.chain fin piece).1) := by
  have htaken := hasTaken_feed (K := K) (d := d) chunks hs
  obtain ⟨pre', hsplit⟩ := htaken.exists_split
  have hlong : 16 < chunks.flatten.length := by
    rw [hx]
    simp
    omega
  obtain ⟨hfused, -⟩ := htaken.beyond hlong
  have hlen := hsplit.length_piece
  obtain ⟨rfl, rfl, rfl⟩ := parts_unique hpre h1 h16 hsplit.aligned (hlen ▸ hsplit.ok.fused_pos hfused)
    (hlen ▸ hsplit.ok.blen_le) (by rw [← hx, ← Codec.pending_of_fused hfused, ← hsplit.stream])
  obtain ⟨buf, hfinal⟩ := ctsFinal_eq_finalNet K d hsplit.ok hfused
  rw [streamOut, hfinal, ← hsplit.cmode, ← hsplit.chain, ← hsplit.emitted]

end

/-- Settles O25: the leading blocks give as many bytes as they have, and the final a block and the short piece. -/
theorem streamLengthIsPreserved : Obligations.StreamLengthIsPreserved := by
  intro K d chunks s hs
  refine ⟨streamOut_of_le K d hs, fun hlong => ?_⟩
  obtain ⟨pre, fin, piece, hx, hpre, h1, h16⟩ := exists_parts hlong
  refine ⟨_, streamOut_of_parts K d hs hx hpre h1 h16, ?_⟩
  rw [List.length_append, length_xs_of_aligned K d s hpre, length_finalNet K d _ _ _ h16, hx]
  simp

/-- Settles O26: neither case of a stream's output mentions the chunks. -/
theorem streamOutputIgnoresTheChunking : Obligations.StreamOutputIgnoresTheChunking := by
  intro K d chunks chunks' s s' hs hs' hmode hchain hx
  rcases Nat.lt_or_ge 16 chunks.flatten.length with hlong | hshort
  · obtain ⟨pre, fin, piece, hparts, hpre, h1, h16⟩ := exists_parts hlong
    obtain ⟨hout, hlast⟩ := xs_congr K d pre hmode hchain
    rw [streamOut_of_parts K d hs hparts hpre h1 h16, streamOut_of_parts K d hs' (hx ▸ hparts) hpre h1 h16,
      hmode, hout, hlast]
  · rw [streamOut_of_le K d hs hshort, streamOut_of_le K d hs' (hx ▸ hshort)]

end Sys2Proof.Machine
end

section
/-!
SUPPORT. The transformation of a string of blocks in each mode (42_cts_codec.md R100, R101), and that decoding undoes
encoding (R119): block by block, then for the final, whose net values in direction DEC undo those in direction ENC.
-/

namespace Sys2Proof.Machine

/-! ### Strings of whole blocks -/

/-- A string of whole blocks is empty, or a block and a string of whole blocks. -/
theorem aligned_induction {motive : (s : Bytes) → s.length % 16 = 0 → Prop} (nil : motive [] rfl)
    (cons : ∀ (b : Block) (s : Bytes) (h : s.length % 16 = 0), motive s h → motive (b.toList ++ s) (by simp [h]))
    (s : Bytes) (h : s.length % 16 = 0) : motive s h := by
  obtain ⟨l, rfl⟩ : ∃ l : List Block, s = l.flatMap Vector.toList := ⟨blocks s, (flatMap_blocks s h).symm⟩
  induction l with
  | nil => exact nil
  | cons b l ih =>
    have hl : (l.flatMap Vector.toList).length % 16 = 0 := by simp
    exact cons b _ hl (ih hl)

theorem blockAt_take (s : Bytes) {i n : Nat} (hi : 16 * (i + 1) ≤ n) (hn : n ≤ s.length) :
    blockAt (s.take n) i = blockAt s i := by
  have h := blockAt_append_left (s.take n) (s.drop n) i (by simp; omega)
  rwa [List.take_append_drop, eq_comm] at h

theorem blockAt_append_toList_append {a : Bytes} (b : Block) (c : Bytes) {i : Nat} (h : a.length = 16 * i) :
    blockAt (a ++ (b.toList ++ c)) i = b := by
  have hright := blockAt_append_right a (b.toList ++ c) 0 i h
  rwa [Nat.add_zero, blockAt_toList_append_zero] at hright

theorem lastBlock_take (iv : Block) {s : Bytes} {i : Nat} (h : 16 * i ≤ s.length) :
    lastBlock iv (s.take (16 * i)) = if i = 0 then iv else blockAt s (i - 1) := by
  split_ifs with hi
  · simp [hi]
  · have hlen : (s.take (16 * i)).length = 16 * i := by simpa using h
    rw [lastBlock, if_neg (by omega), hlen, show 16 * i / 16 - 1 = i - 1 by omega, blockAt_take s (by omega) h]

/-! ### `xs` by its leading block, and by each of its blocks -/

section
variable (K : KeyedCipher) (d : Chan)

@[simp] theorem cmode_xf (x : Block) (s : Codec) : (xf K d x s).2.cmode = s.cmode := by rw [xf_codec]

theorem xs_toList_append (b : Block) (bytes : Bytes) (s : Codec) :
    xs K d (b.toList ++ bytes) s
      = ((xf K d b s).1.toList ++ (xs K d bytes (xf K d b s).2).1, (xs K d bytes (xf K d b s).2).2) := by
  rw [xs_append K d bytes s (by simp), xs_toList]

variable {inp : Bytes} (s : Codec)

/-- The output of the leading blocks is the leading part of the output. -/
theorem xs_take {i : Nat} (hi : 16 * i ≤ inp.length) :
    (xs K d (inp.take (16 * i)) s).1 = (xs K d inp s).1.take (16 * i) := by
  have hlen : (inp.take (16 * i)).length = 16 * i := by simpa using hi
  have h := xs_append K d (inp.drop (16 * i)) s (a := inp.take (16 * i)) (by omega)
  rw [List.take_append_drop] at h
  rw [h, List.take_left']
  rw [length_xs]
  omega

/-- Each output block is the transformation of its input block, in the codec state that the blocks before it left. -/
theorem blockAt_xs {i : Nat} (hi : 16 * (i + 1) ≤ inp.length) :
    blockAt (xs K d inp s).1 i = (xf K d (blockAt inp i) (xs K d (inp.take (16 * i)) s).2).1 := by
  have hlen : (inp.take (16 * i)).length = 16 * i := by simp; omega
  have hblock : (blockAt inp i).toList = (inp.drop (16 * i)).take 16 := pack_toList_of_length (by simp; omega)
  have hcut : inp = inp.take (16 * i) ++ ((blockAt inp i).toList ++ (inp.drop (16 * i)).drop 16) := by
    rw [hblock, List.take_append_drop, List.take_append_drop]
  have hxs := xs_append K d ((blockAt inp i).toList ++ (inp.drop (16 * i)).drop 16) s (a := inp.take (16 * i))
    (by omega)
  rw [← hcut, xs_toList_append] at hxs
  rw [hxs]
  exact blockAt_append_toList_append _ _ (by rw [length_xs, hlen]; omega)

end

/-! ### The modes -/

section
variable (K : KeyedCipher) {s : Codec} {inp : Bytes}

/-- ECB encryption and decryption leave the codec state as it was. -/
theorem xs_ecb (d : Chan) (hm : s.cmode = .ecb) (h : inp.length % 16 = 0) : (xs K d inp s).2 = s := by
  induction inp, h using aligned_induction with
  | nil => rfl
  | cons b inp _ ih =>
    have hxf : (xf K d b s).2 = s := by
      cases d with
      | enc => rw [xf_enc_ecb K b s hm]
      | dec => rw [xf_dec_ecb K b s hm]
    rw [xs_toList_append, hxf, ih]

/-- CBC encryption leaves the last block it gave as the chaining value. -/
theorem chain_xs_enc_cbc (hm : s.cmode = .cbc) (h : inp.length % 16 = 0) :
    (xs K .enc inp s).2.chain = lastBlock s.chain (xs K .enc inp s).1 := by
  induction inp, h using aligned_induction generalizing s with
  | nil => rfl
  | cons b inp _ ih =>
    rw [xs_toList_append, lastBlock_toList_append, ih ((cmode_xf K .enc b s).trans hm), xf_enc_cbc K b s hm]

/-- CBC decryption leaves the last block it took as the chaining value. -/
theorem chain_xs_dec_cbc (hm : s.cmode = .cbc) (h : inp.length % 16 = 0) :
    (xs K .dec inp s).2.chain = lastBlock s.chain inp := by
  induction inp, h using aligned_induction generalizing s with
  | nil => rfl
  | cons b inp _ ih =>
    rw [xs_toList_append, lastBlock_toList_append, ih ((cmode_xf K .dec b s).trans hm), xf_dec_cbc K b s hm]

/-- The chaining value with which block `i` is encrypted. -/
theorem chain_xs_take_enc_cbc (hm : s.cmode = .cbc) {i : Nat} (hi : 16 * i ≤ inp.length) :
    (xs K .enc (inp.take (16 * i)) s).2.chain = if i = 0 then s.chain else blockAt (xs K .enc inp s).1 (i - 1) := by
  rw [chain_xs_enc_cbc K hm (by simp; omega), xs_take K .enc s hi, lastBlock_take s.chain (by rw [length_xs]; omega)]

/-- The chaining value with which block `i` is decrypted. -/
theorem chain_xs_take_dec_cbc (hm : s.cmode = .cbc) {i : Nat} (hi : 16 * i ≤ inp.length) :
    (xs K .dec (inp.take (16 * i)) s).2.chain = if i = 0 then s.chain else blockAt inp (i - 1) := by
  rw [chain_xs_dec_cbc K hm (by simp; omega), lastBlock_take s.chain hi]

theorem cbcEncrypts_xs (hm : s.cmode = .cbc) (h : inp.length % 16 = 0) :
    CbcEncrypts K s.chain inp (xs K .enc inp s).1 := by
  refine ⟨length_xs_of_aligned K .enc s h, fun i hi => ?_⟩
  rw [blockAt_xs K .enc s hi, xf_enc_cbc _ _ _ (by simpa using hm), chain_xs_take_enc_cbc K hm (by omega)]

theorem cbcDecrypts_xs (hm : s.cmode = .cbc) (h : inp.length % 16 = 0) :
    CbcDecrypts K s.chain inp (xs K .dec inp s).1 := by
  refine ⟨length_xs_of_aligned K .dec s h, fun i hi => ?_⟩
  rw [blockAt_xs K .dec s hi, xf_dec_cbc _ _ _ (by simpa using hm), chain_xs_take_dec_cbc K hm (by omega)]

theorem ecbMaps_xs_enc (hm : s.cmode = .ecb) (h : inp.length % 16 = 0) : EcbMaps K.e inp (xs K .enc inp s).1 := by
  refine ⟨length_xs_of_aligned K .enc s h, fun i hi => ?_⟩
  rw [blockAt_xs K .enc s hi, xf_enc_ecb _ _ _ (by simpa using hm)]

theorem ecbMaps_xs_dec (hm : s.cmode = .ecb) (h : inp.length % 16 = 0) : EcbMaps K.d inp (xs K .dec inp s).1 := by
  refine ⟨length_xs_of_aligned K .dec s h, fun i hi => ?_⟩
  rw [blockAt_xs K .dec s hi, xf_dec_ecb _ _ _ (by simpa using hm)]

end

/-- Settles O23: each block in the codec state the blocks before it left, which is the chaining value of its mode. -/
theorem xsIsChainedOrPlainTransformation : Obligations.XsIsChainedOrPlainTransformation := by
  intro K s inp h
  refine ⟨fun hm => ⟨cbcEncrypts_xs K hm h, ?_, cbcDecrypts_xs K hm h, ?_⟩,
    fun hm => ⟨ecbMaps_xs_enc K hm h, xs_ecb K .enc hm h, ecbMaps_xs_dec K hm h, xs_ecb K .dec hm h⟩⟩
  · rw [← chain_xs_enc_cbc K hm h, ← xs_codec]
  · rw [← chain_xs_dec_cbc K hm h, ← xs_codec]

/-! ### Decoding undoes encoding -/

section
variable {K : KeyedCipher} (hK : K.Inverse)
include hK

theorem xf_dec_xf_enc (x : Block) {s u : Codec} (hm : u.cmode = s.cmode) (hc : u.chain = s.chain) :
    (xf K .dec (xf K .enc x s).1 u).1 = x
      ∧ (xf K .dec (xf K .enc x s).1 u).2.chain = (xf K .enc x s).2.chain := by
  unfold xf
  rw [hm]
  split_ifs
  · exact ⟨hK.1 x, hc⟩
  · refine ⟨?_, rfl⟩
    simp only [hK.1, hc, xorBlock_cancel]

/-- Decoding the encoded blocks returns them, and leaves the chaining value that encoding left. -/
theorem xs_dec_xs_enc {bytes : Bytes} {s u : Codec} (hm : u.cmode = s.cmode) (hc : u.chain = s.chain)
    (h : bytes.length % 16 = 0) :
    (xs K .dec (xs K .enc bytes s).1 u).1 = bytes
      ∧ (xs K .dec (xs K .enc bytes s).1 u).2.chain = (xs K .enc bytes s).2.chain := by
  induction bytes, h using aligned_induction generalizing s u with
  | nil =>
    rw [xs_nil, xs_nil]
    exact ⟨rfl, hc⟩
  | cons b bytes _ ih =>
    obtain ⟨hblock, hchain⟩ := xf_dec_xf_enc hK b hm hc
    obtain ⟨hrest, hlast⟩ := ih (s := (xf K .enc b s).2) (u := (xf K .dec (xf K .enc b s).1 u).2) (by simp [hm]) hchain
    rw [xs_toList_append, xs_toList_append, hblock, hrest]
    exact ⟨rfl, hlast⟩

end

/-! ### The bytes of the short piece and of what completes it -/

theorem getD_completedBy {piece : Bytes} (y : Block) {i : Nat} (hi : i < 16) :
    (completedBy piece y).toList.getD i 0 = if i < piece.length then piece.getD i 0 else y.toList.getD i 0 := by
  rw [completedBy, getD_pack _ _ hi, getD_append, getD_drop]
  split_ifs
  · rfl
  · congr 1
    omega

theorem getD_zeroPadded {piece : Bytes} {i : Nat} (hi : i < 16) :
    (zeroPadded piece).toList.getD i 0 = piece.getD i 0 := by
  rw [zeroPadded, pack_append_zeros, getD_pack _ _ hi]

theorem take_completedBy {piece : Bytes} (y : Block) (h : piece.length ≤ 16) :
    (completedBy piece y).toList.take piece.length = piece := by
  rw [completedBy, pack_toList_of_length (by simp; omega), List.take_left' rfl]

/-- A block's leading bytes, completed by a block that agrees with it from there on, are the block. -/
theorem completedBy_take (y v : Block) {t : Nat} (ht : t ≤ 16)
    (h : ∀ i, t ≤ i → i < 16 → v.toList.getD i 0 = y.toList.getD i 0) : completedBy (y.toList.take t) v = y := by
  have hlen : (y.toList.take t).length = t := by simpa using ht
  refine vector_ext_getD fun i hi => ?_
  rw [getD_completedBy v hi, hlen, getD_take]
  split_ifs with hlt
  · rfl
  · exact h i (Nat.le_of_not_lt hlt) hi

/-- What DEC recovers in CBC mode from `Z` and the kept bytes of `Y` is the short piece completed by `Y`
(42_cts_codec.md R106, R108). -/
theorem xorBlock_zeroPadded_take (piece : Bytes) (y : Block) :
    xorBlock (xorBlock (zeroPadded piece) y) (zeroPadded (y.toList.take piece.length)) = completedBy piece y := by
  refine vector_ext_getD fun i hi => ?_
  rw [getD_xorBlock, getD_xorBlock, getD_zeroPadded hi, getD_zeroPadded hi, getD_take, getD_completedBy y hi]
  split_ifs with hlt
  · rw [BitVec.xor_assoc, BitVec.xor_self, BitVec.xor_zero]
  · rw [getD_of_length_le piece i (Nat.le_of_not_lt hlt)]
    simp

theorem completedBy_take_completedBy {piece : Bytes} (y : Block) (h : piece.length ≤ 16) :
    completedBy (y.toList.take piece.length) (completedBy piece y) = y := by
  refine completedBy_take y _ h fun i hle hi => ?_
  rw [getD_completedBy y hi, if_neg (Nat.not_lt.mpr hle)]

/-- The final of DEC takes the two ending pieces that the final of ENC gives, and returns the block and the piece. -/
theorem finalNet_dec_enc {K : KeyedCipher} (hK : K.Inverse) (mode : CtsMode) (chain fin : Block) {piece : Bytes}
    (h : piece.length ≤ 16) :
    ∃ (z : Block) (kept : Bytes), kept.length = piece.length
      ∧ (finalNet K .enc mode chain fin piece).1 = z.toList ++ kept
      ∧ (finalNet K .dec mode chain z kept).1 = fin.toList ++ piece := by
  have hkept : ∀ y : Block, (y.toList.take piece.length).length = piece.length := fun y => by simpa using h
  by_cases hm : mode = .ecb
  · refine ⟨K.e (completedBy piece (K.e fin)), (K.e fin).toList.take piece.length, hkept _, ?_, ?_⟩
    · rw [finalNet, if_pos hm]
    · rw [finalNet, if_pos hm]
      simp only [hK.1, hkept, completedBy_take_completedBy _ h, take_completedBy _ h]
  · obtain ⟨y, hy⟩ : ∃ y, y = K.e (xorBlock fin chain) := ⟨_, rfl⟩
    refine ⟨K.e (xorBlock (zeroPadded piece) y), y.toList.take piece.length, hkept _, ?_, ?_⟩
    · rw [finalNet, if_neg hm, hy]
    · rw [finalNet, if_neg hm]
      simp only [hK.1, hkept, xorBlock_zeroPadded_take, completedBy_take_completedBy y h, take_completedBy y h]
      rw [hy, hK.1, xorBlock_cancel]

/-- Settles O27: the encoded stream splits into the encoded blocks, `Z` and the kept bytes of `Y`, and each part is
decoded to the part it came from. -/
theorem streamDecodeInvertsEncode : Obligations.StreamDecodeInvertsEncode := by
  intro K chunks chunks' s s' out hK hs hs' _ hm hc hlong hout hchunks'
  obtain ⟨pre, fin, piece, hx, hpre, h1, h16⟩ := exists_parts hlong
  obtain ⟨z, kept, hkept, henc, hdec⟩ := finalNet_dec_enc hK s.cmode (xs K .enc pre s).2.chain fin h16
  obtain ⟨hblocks, hchain⟩ := xs_dec_xs_enc hK hm hc hpre
  rw [streamOut_of_parts K .enc hs hx hpre h1 h16, henc] at hout
  injection hout with hout
  rw [streamOut_of_parts K .dec hs' (hchunks'.trans hout.symm) (by rw [length_xs_of_aligned K .enc s hpre, hpre])
    (hkept ▸ h1) (hkept ▸ h16), hblocks, hchain, hm, hdec, hx]

end Sys2Proof.Machine
end

section
/-!
SUPPORT. The six commands of the CTS codec (42_cts_codec.md R110 to R116): each writes the codec state of its direction
and nothing else of its own, or fails with its first failing check.
-/

namespace Sys2Proof.Machine

/-! ### A command that writes one codec state -/

/-- A command of channel `d` completed with output `out`, and of what a command may write beside it wrote the codec
state of its direction alone, to `x`. -/
structure WritesCodec (d : Chan) (x : Codec) (out : Bytes) (s t : State) : Prop where
  completed : Completed d out s t
  other : KeepsOther d s t
  key : KeepsKey s t
  padFlags : KeepsPadFlags s t
  codec : t.codec d = x
  otherCodec : t.codec (otherChan d) = s.codec (otherChan d)
  draws : t.draws = s.draws

section
variable {s : State} {p : Snapshot} {d : Chan}

/-- The end of a command whose rule wrote a codec state; without output the memory's form does not matter. -/
theorem writesCodec_finish (x : Codec) {out : Bytes} (hout : out = [] ∨ s.mem.wf = true ∧ out.length < 2 ^ 16) :
    WritesCodec d x out s (finish d out (s.setCodec d x)) where
  completed := by
    rcases hout with rfl | ⟨hmem, hlen⟩
    · apply completed_finish_nil <;> simp
    · apply completed_finish hmem hlen <;> simp
  other := by simp [KeepsOther]
  key := by simp [KeepsKey]
  padFlags c := by simp
  codec := by simp
  otherCodec := by simp
  draws := by simp

theorem exec_writesCodec {i : Instr} {x : Codec} {out : Bytes} (hi : i.chan = d) (hp : s.Pends d p)
    (hrule : ruleOf i s p = .ok (s.setCodec d x, out)) (hout : out = [] ∨ s.mem.wf = true ∧ out.length < 2 ^ 16) :
    ∃ t, exec i s = .next t ∧ WritesCodec d x out s t := by
  subst hi
  exact ⟨_, by rw [exec_of_pends hp, hrule, conclude_ok], writesCodec_finish x hout⟩

/-- A command whose rule is an error fails with it. -/
theorem exec_fails {i : Instr} {e : ErrCode} (hi : i.chan = d) (hp : s.Pends d p) (hrule : ruleOf i s p = .error e) :
    ∃ t, exec i s = .next t ∧ Failed d e s t := by
  subst hi
  exact ⟨_, by rw [exec_of_pends hp, hrule, conclude_error], failed_raiseError _ e⟩

/-! ### The rules of a direction's commands -/

@[simp] theorem chan_ctsInitOf (seq : Bool) (mode : CtsMode) : (ctsInitOf d seq mode).chan = d := by cases d <;> rfl
@[simp] theorem chan_ctsUpdateOf : (ctsUpdateOf d).chan = d := by cases d <;> rfl
@[simp] theorem chan_ctsFinalOf : (ctsFinalOf d).chan = d := by cases d <;> rfl

theorem ruleOf_ctsInitOf (seq : Bool) (mode : CtsMode) :
    ruleOf (ctsInitOf d seq mode) s p = initRule d seq mode s p := by
  cases d <;> rfl

theorem ruleOf_ctsUpdateOf : ruleOf (ctsUpdateOf d) s p = updateRule d s p := by cases d <;> rfl

theorem ruleOf_ctsFinalOf : ruleOf (ctsFinalOf d) s p = finalRule d s := by cases d <;> rfl

/-! ### The checks they share -/

section
variable (k : CommandResult)

theorem lengthInRange_of_le (h : p.n ≤ s.maxLen) : lengthInRange s p k = k :=
  require_of _ _ (decide_eq_true h)

theorem lengthInRange_of_gt (h : s.maxLen < p.n) : lengthInRange s p k = .error .badLength :=
  require_of_not _ _ (decide_eq_false (Nat.not_le.mpr h))

theorem modeSupported_of_supported {x : Codec} (h : x.Supported) : modeSupported x k = k :=
  require_of _ _ (by simpa using h)

theorem modeSupported_of_not_supported {x : Codec} (h : ¬x.Supported) : modeSupported x k = .error .unsupportedMode :=
  require_of_not _ _ (by simpa using h)

theorem keyReady_of_keyed (h : s.Keyed) : keyReady s k = k := by
  rw [keyReady, require_of _ _ h.1, require_of _ _ h.2]

theorem keyReady_of_not_recognised (h : algRecognised s.algId = false) : keyReady s k = .error .unsupportedAlgorithm :=
  require_of_not _ _ h

theorem keyReady_of_not_valid (ha : algRecognised s.algId = true) (hv : s.keyValid = false) :
    keyReady s k = .error .noKey := by
  rw [keyReady, require_of _ _ ha, require_of_not _ _ hv]

end

/-! ### Updates and finals whose checks pass -/

/-- An update whose checks pass is the update of the codec function (42_cts_codec.md R113, R114). -/
theorem exec_ctsUpdateOf (hp : s.Pends d p) (hwhole : p.Whole) (hn : p.n ≤ s.maxLen) (hsup : (s.codec d).Supported)
    (hkey : s.Keyed) {out : Bytes} {x : Codec} (hupdate : ctsUpdate s.underActiveKey d p.inp (s.codec d) = (out, x))
    (hout : out = [] ∨ s.mem.wf = true ∧ out.length < 2 ^ 16) :
    ∃ t, exec (ctsUpdateOf d) s = .next t ∧ WritesCodec d x out s t := by
  refine exec_writesCodec chan_ctsUpdateOf hp ?_ hout
  rw [ruleOf_ctsUpdateOf, updateRule, lengthInRange_of_le _ hn, modeSupported_of_supported _ hsup,
    keyReady_of_keyed _ hkey, Snapshot.data_of_whole hwhole, cipher_eq_underActiveKey, hupdate]

/-- An update that overflows the buffer emits fewer than 16 bytes more than it takes (20_memory.md R55). -/
theorem length_emittedBy_le {x : Codec} {inp : Bytes} (hok : x.Ok) (h : 16 < (x.piece ++ inp).length) :
    (emittedBy x (x.piece ++ inp)).length ≤ inp.length + 15 := by
  have hle := hok.blen_le
  have hpos := tailLength_pos (x.piece ++ inp).length
  have hspec := (tailLength_spec h).1
  rw [length_emittedBy]
  rw [List.length_append, Codec.length_piece hle] at hpos hspec ⊢
  split_ifs <;> omega

/-- A final whose checks pass emits the net values, and empties the codec state (42_cts_codec.md R109, R115, R116). -/
theorem exec_ctsFinalOf (hp : s.Pends d p) (hmem : s.mem.wf = true) (hok : (s.codec d).Ok)
    (hsup : (s.codec d).Supported) (hkey : s.Keyed) (hf : (s.codec d).fused = true) {out : Bytes} {chain : Block}
    (hnet : finalNet s.underActiveKey d (s.codec d).cmode (s.codec d).chain (s.codec d).fin (s.codec d).piece
      = (out, chain)) :
    ∃ t buf, exec (ctsFinalOf d) s = .next t
      ∧ WritesCodec d { s.codec d with buf := buf, blen := 0, fused := false, chain := chain } out s t := by
  obtain ⟨buf, hfinal⟩ := ctsFinal_eq_finalNet s.underActiveKey d hok hf
  rw [hnet] at hfinal
  have hle := hok.blen_le
  have hpiece := Codec.length_piece hle
  have hlen : out.length = 16 + (s.codec d).piece.length :=
    (congrArg (fun r => r.1.length) hnet).symm.trans (length_finalNet _ _ _ _ _ (hpiece ▸ hle))
  obtain ⟨t, ht, h⟩ := exec_writesCodec (chan_ctsFinalOf (d := d)) hp
    (x := { s.codec d with buf := buf, blen := 0, fused := false, chain := chain }) (out := out)
    (by rw [ruleOf_ctsFinalOf, finalRule, modeSupported_of_supported _ hsup, keyReady_of_keyed _ hkey,
      cipher_eq_underActiveKey, hfinal])
    (.inr ⟨hmem, by omega⟩)
  exact ⟨t, buf, ht, h⟩

end

/-! ### INIT -/

/-- Settles O16: the rule of INIT has no check and starts the stream by definition. -/
theorem ctsInitStartsAStream : Obligations.CtsInitStartsAStream := by
  intro d seq mode s p hp
  obtain ⟨t, ht, h⟩ := exec_writesCodec (chan_ctsInitOf seq mode) hp (ruleOf_ctsInitOf seq mode) (.inl rfl)
  refine ⟨t, ht, h.completed, h.other, h.key, h.padFlags, ?_⟩
  rw [h.codec]
  exact ⟨rfl, rfl, rfl, rfl, rfl, h.otherCodec, h.draws⟩

/-! ### UPDATE -/

/-- Settles O17: the codec's update stays within the buffer. -/
theorem ctsUpdateAccumulatesWithinABlock : Obligations.CtsUpdateAccumulatesWithinABlock := by
  intro d s p hp hwhole hn hsup hkey hle
  rw [← show p.inp.length = p.n from hwhole] at hle ⊢
  obtain ⟨t, ht, h⟩ := exec_ctsUpdateOf hp hwhole hn hsup hkey (ctsUpdate_within _ d hle) (.inl rfl)
  refine ⟨t, ht, h.completed, h.other, h.key, h.padFlags, ?_⟩
  rw [h.codec]
  exact ⟨rfl, take_splice _ _ _ hle, rfl, rfl, rfl, rfl, rfl, h.otherCodec, h.draws⟩

/-- Settles O18: the codec's update overflows the buffer. -/
theorem ctsUpdateEmitsAllButTheHeldBytes : Obligations.CtsUpdateEmitsAllButTheHeldBytes := by
  intro d s p hp hmem hwhole hn hmax hok hsup hkey hgt
  rw [← show p.inp.length = p.n from hwhole] at hgt hn ⊢
  obtain ⟨buf, hbuf, hupdate⟩ := ctsUpdate_beyond s.underActiveKey d hok.blen_le hgt rfl
  have hy : 16 < ((s.codec d).piece ++ p.inp).length := by
    rw [List.length_append, Codec.length_piece hok.blen_le]
    exact hgt
  have hmod := length_emittedBy_mod (s.codec d) hy
  have hlen := length_xs_of_aligned s.underActiveKey d (s.codec d) hmod
  have hbound := length_emittedBy_le hok hy
  obtain ⟨t, ht, h⟩ := exec_ctsUpdateOf hp hwhole (hwhole ▸ hn) hsup hkey hupdate
    (.inr ⟨hmem, by rw [← Codec.piece, hlen]; omega⟩)
  refine ⟨t, _, _, _, ht, rfl, rfl, rfl, h.completed, h.other, h.key, h.padFlags, hlen, ?_, ?_, ?_⟩
  · exact (congrArg (· % 16) hlen).trans hmod
  · exact hlen.trans_le hbound
  · rw [h.codec]
    exact ⟨rfl, hbuf, rfl, toList_pack_before_tail hy, rfl, rfl, rfl, h.otherCodec, h.draws⟩

/-! ### FINAL -/

/-- Settles O20: the net values in ECB mode, the same in both directions but for the block function. -/
theorem ctsFinalInEcbModeSteals : Obligations.CtsFinalInEcbModeSteals := by
  rintro d s p f hp hmem hok hm hkey hf rfl
  have hpiece := Codec.length_piece hok.blen_le
  obtain ⟨t, buf, ht, h⟩ := exec_ctsFinalOf hp hmem hok (.inr hm) hkey hf (if_pos hm)
  rw [completedBy, hpiece] at h
  refine ⟨t, _, _, ht, rfl, rfl, ?_, h.other, h.key, h.padFlags, ?_⟩
  · cases d with
    | enc => exact h.completed
    | dec => exact h.completed
  · rw [h.codec]
    exact ⟨rfl, rfl, rfl, hm, rfl, h.otherCodec, h.draws⟩

/-- Settles O21: the net values of ENC in CBC mode. -/
theorem ctsEncFinalCbcSteals : Obligations.CtsEncFinalCbcSteals := by
  intro s p hp hmem hok hm hkey hf
  have hpiece := Codec.length_piece hok.blen_le
  obtain ⟨t, buf, ht, h⟩ := exec_ctsFinalOf (d := .enc) hp hmem hok (.inl hm) hkey hf (if_neg (by simp [hm]))
  rw [zeroPadded, hpiece] at h
  refine ⟨t, _, _, ht, rfl, rfl, h.completed, h.other, h.key, h.padFlags, ?_⟩
  rw [h.codec]
  exact ⟨rfl, rfl, rfl, hm, rfl, h.otherCodec, h.draws⟩

/-- Settles O22: the net values of DEC in CBC mode. -/
theorem ctsDecFinalCbcRecovers : Obligations.CtsDecFinalCbcRecovers := by
  intro s p hp hmem hok hm hkey hf
  have hpiece := Codec.length_piece hok.blen_le
  obtain ⟨t, buf, ht, h⟩ := exec_ctsFinalOf (d := .dec) hp hmem hok (.inl hm) hkey hf (if_neg (by simp [hm]))
  rw [zeroPadded, completedBy, hpiece] at h
  refine ⟨t, _, _, _, ht, rfl, rfl, rfl, h.completed, h.other, h.key, h.padFlags, ?_⟩
  rw [h.codec]
  exact ⟨rfl, rfl, rfl, hm, rfl, h.otherCodec, h.draws⟩

/-! ### Refusals -/

/-- Settles O19: each check is reached when those before it pass. -/
theorem ctsCommandsRefuseInOrder : Obligations.CtsCommandsRefuseInOrder := by
  intro d s p hp
  have hupdate : ∀ {e}, updateRule d s p = .error e → ∃ t, exec (ctsUpdateOf d) s = .next t ∧ Failed d e s t :=
    fun h => exec_fails chan_ctsUpdateOf hp (ruleOf_ctsUpdateOf.trans h)
  have hfinal : ∀ {e}, finalRule d s = .error e → ∃ t, exec (ctsFinalOf d) s = .next t ∧ Failed d e s t :=
    fun h => exec_fails chan_ctsFinalOf hp (ruleOf_ctsFinalOf.trans h)
  refine ⟨fun hn => hupdate ?_, fun hn hsup => hupdate ?_, fun hn hsup ha => hupdate ?_,
    fun hn hsup ha hv => hupdate ?_, fun hsup => hfinal ?_, fun hsup ha => hfinal ?_, fun hsup ha hv => hfinal ?_,
    fun hsup hkey hheld => hfinal ?_⟩
  · exact lengthInRange_of_gt _ hn
  · rw [updateRule, lengthInRange_of_le _ hn, modeSupported_of_not_supported _ hsup]
  · rw [updateRule, lengthInRange_of_le _ hn, modeSupported_of_supported _ hsup, keyReady_of_not_recognised _ ha]
  · rw [updateRule, lengthInRange_of_le _ hn, modeSupported_of_supported _ hsup, keyReady_of_not_valid _ ha hv]
  · exact modeSupported_of_not_supported _ hsup
  · rw [finalRule, modeSupported_of_supported _ hsup, keyReady_of_not_recognised _ ha]
  · rw [finalRule, modeSupported_of_supported _ hsup, keyReady_of_not_valid _ ha hv]
  · rw [finalRule, modeSupported_of_supported _ hsup, keyReady_of_keyed _ hkey, ctsFinal_of_not_held _ _ hheld]

end Sys2Proof.Machine
end

section
/-!
SUPPORT. The commands that install a key (43_cipher_engine.md R131, R132, R134).
-/

namespace Sys2Proof.Machine

/-- A command of channel `c` completed with output `out`, and of what a command may write beside it wrote the key, to
`k` with zeros after it, and the count of draws. -/
structure InstallsKey (c : Chan) (k out : Bytes) (s t : State) : Prop where
  completed : Completed c out s t
  other : KeepsOther c s t
  keyValid : t.keyValid = true
  key : t.key.toList = k ++ zeros (32 - k.length)
  codecs : KeepsCodecs s t
  padFlags : KeepsPadFlags s t

section
variable {s : State} {p : Snapshot} {c : Chan}

/-- The end of a command whose rule installed a key; without output the memory's form does not matter. -/
theorem installsKey_finish {k out : Bytes} (draws : Nat) (hk : k.length ≤ 32)
    (hout : out = [] ∨ s.mem.wf = true ∧ out.length < 2 ^ 16) :
    InstallsKey c k out s (finish c out ((s.installKey k).setDraws draws)) where
  completed := by
    rcases hout with rfl | ⟨hmem, hlen⟩
    · apply completed_finish_nil <;> simp
    · apply completed_finish hmem hlen <;> simp
  other := by simp [KeepsOther]
  keyValid := by simp
  key := by simp [pack_toList_of_length_le hk]
  codecs d := by simp
  padFlags e := by simp

/-- The key operand of a recognised algorithm's key length has that length (30_encoding.md R80). -/
theorem Snapshot.length_keyBytes (h : p.n ≤ 32) : p.keyBytes.length = p.n := by
  simpa [Snapshot.keyBytes] using h

end

/-- Settles O5: both checks pass, and the rule installs the staged bytes. -/
theorem setkeyInstallsTheKey : Obligations.SetkeyInstallsTheKey := by
  intro c s p hp ha hn
  have hlen : p.keyBytes.length = p.n := Snapshot.length_keyBytes (hn ▸ keyLength_le s.algId)
  have h : InstallsKey c p.keyBytes [] s (finish c [] (s.installKey p.keyBytes)) :=
    installsKey_finish s.draws (hlen ▸ hn ▸ keyLength_le s.algId) (.inl rfl)
  refine ⟨_, ?_, h.completed, h.other, h.keyValid, ?_, h.codecs, h.padFlags, by simp⟩
  · rw [exec_of_pends hp, ruleOf, require_of _ _ ha, require_of _ _ (decide_eq_true hn), conclude_ok]
    rfl
  · rw [h.key, hlen]
    rfl

/-- Settles O6: the algorithm is checked first, then the length of SETKEY's operand. -/
theorem keyCommandsRefuseInOrder : Obligations.KeyCommandsRefuseInOrder := by
  intro c s p hp
  refine ⟨fun ha => exec_fails rfl hp ?_, fun ha hn => exec_fails rfl hp ?_, fun ha => exec_fails rfl hp ?_⟩
  · rw [ruleOf, require_of_not _ _ ha]
  · rw [ruleOf, require_of _ _ ha, require_of_not _ _ (decide_eq_false hn)]
  · rw [ruleOf, require_of_not _ _ ha]

theorem getD_entropyDraw (k : Nat) {n i : Nat} (h : i < n) : (entropyDraw k n).getD i 0 = Config.entropyByte k i := by
  simp [entropyDraw, h]

/-- Settles O7: the one check passes, and the rule installs and emits the draw. -/
theorem genkeyInstallsAndEmitsTheDraw : Obligations.GenkeyInstallsAndEmitsTheDraw := by
  intro c s p hp hmem ha
  have hlen : (entropyDraw s.draws (keyLength s.algId)).length = keyLength s.algId := length_entropyDraw _ _
  have hle := keyLength_le s.algId
  have h := installsKey_finish (c := c) (s.draws + 1) (hlen.trans_le hle) (.inr ⟨hmem, by rw [hlen]; omega⟩)
  refine ⟨_, _, ?_, hlen, fun _ => getD_entropyDraw s.draws, h.completed, h.other, h.keyValid, h.key, h.codecs,
    h.padFlags, by simp⟩
  rw [exec_of_pends hp, ruleOf, require_of _ _ ha, conclude_ok]
  rfl

end Sys2Proof.Machine
end

section
/-!
SUPPORT. The paths of `ENCRYPT` and `DECRYPT` as functions of the message (43_cipher_engine.md R137 to R147): what each
emits and the codec state it leaves; and that `DECRYPT` undoes `ENCRYPT` (R149).
-/

namespace Sys2Proof.Machine

/-! ### Padding -/

theorem length_padMessage {msg : Bytes} (h : msg.length < 16) : (padMessage msg).length = 16 := by
  simp [padMessage]
  omega

/-- The message that a padded string holds, when its last byte counts 1 to 16 bytes of padding. -/
theorem depadMessage_of_count {pp : Bytes} {p : Nat} (hp : (pp.getD (pp.length - 1) 0).toNat = p)
    (h : 1 ≤ p ∧ p ≤ 16) : depadMessage pp = .ok (pp.take (pp.length - p)) := by
  subst hp
  exact if_pos h

theorem depadMessage_of_not_count {pp : Bytes}
    (h : ¬(1 ≤ (pp.getD (pp.length - 1) 0).toNat ∧ (pp.getD (pp.length - 1) 0).toNat ≤ 16)) :
    depadMessage pp = .error .badPadding :=
  if_neg h

/-- The last byte of a padded message counts the padding, which is 1 to 16 bytes (43_cipher_engine.md R137). -/
theorem depadMessage_padMessage {msg : Bytes} (h : msg.length < 16) : depadMessage (padMessage msg) = .ok msg := by
  have hlen := length_padMessage h
  have hlast : ((padMessage msg).getD ((padMessage msg).length - 1) 0).toNat = 16 - msg.length := by
    rw [hlen, padMessage, getD_append, if_neg (by omega), List.getD_eq_getElem _ _ (by simp; omega),
      List.getElem_replicate, BitVec.toNat_ofNat]
    omega
  rw [depadMessage_of_count hlast (by omega), hlen, show 16 - (16 - msg.length) = msg.length by omega, padMessage,
    List.take_left' rfl]

/-! ### Where a message is cut -/

/-- A message of more than 16 bytes that are no multiple of 16 is leading blocks, one more block, and its last
`n mod 16` bytes. -/
theorem eq_append_at_mod {msg : Bytes} (h : 16 < msg.length) (hmod : msg.length % 16 ≠ 0) :
    msg = msg.take (msg.length - msg.length % 16 - 16)
      ++ ((blockAt msg (msg.length / 16 - 1)).toList ++ msg.drop (msg.length - msg.length % 16)) := by
  have htail : tailLength msg.length = msg.length % 16 := by unfold tailLength; omega
  have hcut := eq_append_at_tail h
  rwa [← toList_pack_before_tail h, htail,
    show msg.length - msg.length % 16 - 16 = 16 * (msg.length / 16 - 1) by omega, ← blockAt,
    show 16 * (msg.length / 16 - 1) = msg.length - msg.length % 16 - 16 by omega] at hcut

/-- The leading blocks of that cut are whole blocks, and the last piece has `n mod 16` bytes. -/
theorem length_cut_at_mod (msg : Bytes) :
    (msg.take (msg.length - msg.length % 16 - 16)).length % 16 = 0
      ∧ (msg.drop (msg.length - msg.length % 16)).length = msg.length % 16 := by
  rw [List.length_take, List.length_drop]
  omega

/-! ### A message in one update and a final -/

section
variable (K : KeyedCipher) {chain fin : Block} {piece : Bytes}

/-- The net values of the final of ENC in CBC mode (42_cts_codec.md R106). -/
theorem finalNet_enc_cbc {y z : Block} (hy : y = K.e (xorBlock fin chain))
    (hz : z = K.e (xorBlock (zeroPadded piece) y)) :
    finalNet K .enc .cbc chain fin piece = (z.toList ++ y.toList.take piece.length, z) := by
  subst hz hy
  rfl

/-- The net values of the final of DEC in CBC mode (42_cts_codec.md R108). -/
theorem finalNet_dec_cbc {v y u : Block} (hv : v = xorBlock (K.d fin) (zeroPadded piece)) (hy : y = completedBy piece v)
    (hu : u = xorBlock (K.d y) chain) :
    finalNet K .dec .cbc chain fin piece = (u.toList ++ v.toList.take piece.length, y) := by
  subst hu hy hv
  rfl

end

section
variable (K : KeyedCipher) (d : Chan) {msg : Bytes} {x : Codec}

/-- The bytes of the update and the final are those of the stream of one chunk. -/
theorem streamOut_singleton {last : Bytes} {y : Codec} (h : ctsFinal K d (ctsUpdate K d msg x).2 = .ok (last, y)) :
    streamOut K d [msg] x = .ok ((ctsUpdate K d msg x).1 ++ last) := by
  simp [streamOut, feed, h]

variable (hx : x.Empty)
include hx

/-- One update and a final transform the leading blocks, and give the net values of the final on the rest. -/
theorem ctsFinal_ctsUpdate_of_parts {pre piece : Bytes} {fin : Block} (hparts : msg = pre ++ (fin.toList ++ piece))
    (hpre : pre.length % 16 = 0) (h1 : 1 ≤ piece.length) (h16 : piece.length ≤ 16) {last : Bytes} {chain : Block}
    (hnet : finalNet K d x.cmode (xs K d pre x).2.chain fin piece = (last, chain)) :
    (ctsUpdate K d msg x).1 = (xs K d pre x).1
      ∧ ∃ buf fin', ctsFinal K d (ctsUpdate K d msg x).2
        = .ok (last, { x with buf := buf, blen := 0, fin := fin', fused := false, chain := chain }) := by
  obtain ⟨hblen, hfused⟩ := hx
  have hlong : 16 < msg.length := by
    rw [hparts]
    simp
    omega
  obtain ⟨hdrop, hblock, htake⟩ := cut_parts hpre h1 h16 hparts
  have hemitted : emittedBy x msg = pre := by simp [emittedBy, hfused, htake]
  have htail : tailLength msg.length = piece.length := by rw [hparts, tailLength_parts hpre h1 h16]
  obtain ⟨buf, hbuf, hupdate⟩ := ctsUpdate_beyond K d (inp := msg) (y := msg) (s := x) (by omega) (by omega)
    (by simp [hblen])
  have hok := ctsUpdate_ok K d msg (Codec.Empty.ok ⟨hblen, hfused⟩)
  rw [hdrop] at hbuf
  rw [hemitted, hblock, pack_toList_self] at hupdate
  rw [hupdate] at hok ⊢
  obtain ⟨buf', hfinal⟩ := ctsFinal_eq_finalNet K d hok rfl
  simp only [Codec.piece, hbuf, hnet] at hfinal
  exact ⟨rfl, buf', fin, hfinal⟩

/-- One update and a final of a message of more than 16 bytes succeed. -/
theorem exists_ctsFinal_ctsUpdate (h : 16 < msg.length) :
    ∃ last y, ctsFinal K d (ctsUpdate K d msg x).2 = .ok (last, y) := by
  obtain ⟨pre, fin, piece, hparts, hpre, h1, h16⟩ := exists_parts h
  obtain ⟨-, buf, fin', hfinal⟩ := ctsFinal_ctsUpdate_of_parts K d hx hparts hpre h1 h16 rfl
  exact ⟨_, _, hfinal⟩

end

/-! ### The paths of ENCRYPT -/

section
variable (K : KeyedCipher) {msg : Bytes} {x : Codec}

/-- The padded path (43_cipher_engine.md R137). -/
theorem encryptPaths_padded (h : msg.length < 16) :
    encryptPaths K msg x
      = .ok ((xs K .enc (padMessage msg) x).1, { (xs K .enc (padMessage msg) x).2 with pmode := .rtp }) :=
  if_pos h

/-- A padded message is one block, and so is its encryption. -/
theorem encryptPaths_short (hm : x.cmode = .cbc) (h : msg.length < 16) {y : Block}
    (hy : y = K.e (xorBlock (pack 16 (padMessage msg)) x.chain)) :
    encryptPaths K msg x = .ok (y.toList, { x with chain := y, pmode := .rtp }) := by
  have hxs := xs_toList K .enc (pack 16 (padMessage msg)) x
  rw [pack_toList_of_length (length_padMessage h), xf_enc_cbc K _ x hm, ← hy] at hxs
  rw [encryptPaths_padded K h, hxs]

/-- The standard path (43_cipher_engine.md R138). -/
theorem encryptPaths_aligned (hm : x.cmode = .cbc) (h16 : 16 ≤ msg.length) (h : msg.length % 16 = 0) :
    encryptPaths K msg x = .ok ((xs K .enc msg x).1,
      { x with chain := lastBlock x.chain (xs K .enc msg x).1, pmode := .standard }) := by
  obtain ⟨-, hcodec, -⟩ := (xsIsChainedOrPlainTransformation K x msg h).1 hm
  rw [encryptPaths, if_neg (Nat.not_lt.mpr h16), if_pos h, hcodec]

/-- The path of ciphertext stealing (43_cipher_engine.md R139). -/
theorem encryptPaths_unaligned (h16 : 16 ≤ msg.length) (h : msg.length % 16 ≠ 0) {last : Bytes} {y : Codec}
    (hfinal : ctsFinal K .enc (ctsUpdate K .enc msg x).2 = .ok (last, y)) :
    encryptPaths K msg x = .ok ((ctsUpdate K .enc msg x).1 ++ last, { y with pmode := .none }) := by
  rw [encryptPaths, if_neg (Nat.not_lt.mpr h16), if_neg h, hfinal]

/-- The path of ciphertext stealing, by the net values of the final (42_cts_codec.md R102, R106). -/
theorem encryptPaths_steals (hx : x.Empty) (hm : x.cmode = .cbc) (h16 : 16 < msg.length) (hmod : msg.length % 16 ≠ 0)
    {head : Bytes} {y z : Block} (hhead : head = (xs K .enc (msg.take (msg.length - msg.length % 16 - 16)) x).1)
    (hy : y = K.e (xorBlock (blockAt msg (msg.length / 16 - 1)) (lastBlock x.chain head)))
    (hz : z = K.e (xorBlock (pack 16 (msg.drop (msg.length - msg.length % 16) ++ zeros (16 - msg.length % 16))) y)) :
    ∃ buf fin, encryptPaths K msg x = .ok (head ++ z.toList ++ y.toList.take (msg.length % 16),
      { x with buf := buf, blen := 0, fin := fin, fused := false, chain := z, pmode := .none }) := by
  obtain ⟨hpre, hpiece⟩ := length_cut_at_mod msg
  have hz' : z = K.e (xorBlock (zeroPadded (msg.drop (msg.length - msg.length % 16))) y) := by
    rwa [zeroPadded, hpiece]
  have hnet : finalNet K .enc x.cmode (xs K .enc (msg.take (msg.length - msg.length % 16 - 16)) x).2.chain
      (blockAt msg (msg.length / 16 - 1)) (msg.drop (msg.length - msg.length % 16))
        = (z.toList ++ y.toList.take (msg.length % 16), z) := by
    rw [hm, chain_xs_enc_cbc K hm hpre, ← hhead, finalNet_enc_cbc K hy hz', hpiece]
  obtain ⟨hupdate, buf, fin, hfinal⟩ := ctsFinal_ctsUpdate_of_parts K .enc hx (eq_append_at_mod h16 hmod) hpre
    (by omega) (by omega) hnet
  refine ⟨buf, fin, ?_⟩
  rw [encryptPaths_unaligned K (by omega) hmod hfinal, hupdate, ← hhead, List.append_assoc]

/-- ENCRYPT's paths always succeed: with one block for a short message, else with as many bytes as it took. -/
theorem exists_encryptPaths (hx : x.Empty) (hm : x.cmode = .cbc) :
    ∃ out y, encryptPaths K msg x = .ok (out, y) ∧ out.length = max 16 msg.length := by
  rcases Nat.lt_or_ge msg.length 16 with hshort | h16
  · exact ⟨_, _, encryptPaths_short K hm hshort rfl, by simp; omega⟩
  · by_cases hmod : msg.length % 16 = 0
    · exact ⟨_, _, encryptPaths_aligned K hm h16 hmod, by rw [length_xs_of_aligned K .enc x hmod]; omega⟩
    · obtain ⟨last, y, hfinal⟩ := exists_ctsFinal_ctsUpdate K .enc hx (msg := msg) (by omega)
      obtain ⟨-, hlen⟩ := length_update_final K .enc hx hfinal
      exact ⟨_, _, encryptPaths_unaligned K h16 hmod hfinal, by rw [hlen]; omega⟩

theorem length_of_encryptPaths (hx : x.Empty) (hm : x.cmode = .cbc) {out : Bytes} {y : Codec}
    (h : encryptPaths K msg x = .ok (out, y)) : out.length = max 16 msg.length := by
  obtain ⟨out', y', h', hlen⟩ := exists_encryptPaths K (msg := msg) hx hm
  rw [h] at h'
  cases h'
  exact hlen

end

/-! ### The paths of DECRYPT -/

section
variable (K : KeyedCipher) {msg : Bytes} {x : Codec}

/-- The standard path (43_cipher_engine.md R142, R147). -/
theorem decryptPaths_aligned (hm : x.cmode = .cbc) (h : msg.length % 16 = 0) :
    decryptPaths K false msg x
      = .ok ((xs K .dec msg x).1, { x with chain := lastBlock x.chain msg, pmode := .standard }) := by
  obtain ⟨-, -, -, hcodec⟩ := (xsIsChainedOrPlainTransformation K x msg h).1 hm
  rw [decryptPaths, if_neg (by decide), if_pos h, hcodec]

/-- The path of ciphertext stealing (43_cipher_engine.md R142). -/
theorem decryptPaths_unaligned (h : msg.length % 16 ≠ 0) {last : Bytes} {y : Codec}
    (hfinal : ctsFinal K .dec (ctsUpdate K .dec msg x).2 = .ok (last, y)) :
    decryptPaths K false msg x = .ok ((ctsUpdate K .dec msg x).1 ++ last, { y with pmode := .none }) := by
  rw [decryptPaths, if_neg (by decide), if_neg h, hfinal]

/-- The path of ciphertext stealing, by the net values of the final (42_cts_codec.md R102, R108). -/
theorem decryptPaths_steals (hx : x.Empty) (hm : x.cmode = .cbc) (h16 : 16 < msg.length) (hmod : msg.length % 16 ≠ 0)
    {v y u : Block}
    (hv : v = xorBlock (K.d (blockAt msg (msg.length / 16 - 1)))
      (pack 16 (msg.drop (msg.length - msg.length % 16) ++ zeros (16 - msg.length % 16))))
    (hy : y = pack 16 (msg.drop (msg.length - msg.length % 16) ++ v.toList.drop (msg.length % 16)))
    (hu : u = xorBlock (K.d y) (lastBlock x.chain (msg.take (msg.length - msg.length % 16 - 16)))) :
    ∃ buf fin, decryptPaths K false msg x
      = .ok ((xs K .dec (msg.take (msg.length - msg.length % 16 - 16)) x).1 ++ u.toList
          ++ v.toList.take (msg.length % 16),
        { x with buf := buf, blen := 0, fin := fin, fused := false, chain := y, pmode := .none }) := by
  obtain ⟨hpre, hpiece⟩ := length_cut_at_mod msg
  have hv' : v = xorBlock (K.d (blockAt msg (msg.length / 16 - 1)))
      (zeroPadded (msg.drop (msg.length - msg.length % 16))) := by rwa [zeroPadded, hpiece]
  have hy' : y = completedBy (msg.drop (msg.length - msg.length % 16)) v := by rwa [completedBy, hpiece]
  have hnet : finalNet K .dec x.cmode (xs K .dec (msg.take (msg.length - msg.length % 16 - 16)) x).2.chain
      (blockAt msg (msg.length / 16 - 1)) (msg.drop (msg.length - msg.length % 16))
        = (u.toList ++ v.toList.take (msg.length % 16), y) := by
    rw [hm, chain_xs_dec_cbc K hm hpre, finalNet_dec_cbc K hv' hy' hu, hpiece]
  obtain ⟨hupdate, buf, fin, hfinal⟩ := ctsFinal_ctsUpdate_of_parts K .dec hx (eq_append_at_mod h16 hmod) hpre
    (by omega) (by omega) hnet
  refine ⟨buf, fin, ?_⟩
  rw [decryptPaths_unaligned K hmod hfinal, hupdate, List.append_assoc]

/-- A message of fewer bytes than a block never overflows the buffer, and has no final (43_cipher_engine.md R145). -/
theorem decryptPaths_short (hx : x.Empty) (hpos : 0 < msg.length) (h : msg.length < 16) :
    decryptPaths K false msg x = .error .missingState := by
  have hfinal : ctsFinal K .dec (ctsUpdate K .dec msg x).2 = .error .missingState := by
    rw [ctsUpdate_within K .dec (by rw [hx.1]; omega)]
    exact ctsFinal_of_not_held K .dec (.inl hx.2)
  rw [decryptPaths, if_neg (by decide), if_neg (by omega), hfinal]

/-- The padded path, when the decrypted message can be depadded (43_cipher_engine.md R142, R143). -/
theorem decryptPaths_padded (hm : x.cmode = .cbc) (hpos : 0 < msg.length) (h : msg.length % 16 = 0) {out : Bytes}
    (hdepad : depadMessage (xs K .dec msg x).1 = .ok out) :
    decryptPaths K true msg x = .ok (out, { x with chain := lastBlock x.chain msg, pmode := .rtp }) := by
  obtain ⟨-, -, -, hcodec⟩ := (xsIsChainedOrPlainTransformation K x msg h).1 hm
  rw [decryptPaths, if_pos rfl, if_neg (by omega), if_neg (not_not.mpr h), hdepad, hcodec]

theorem decryptPaths_padded_error (hpos : 0 < msg.length) (h : msg.length % 16 = 0) {e : ErrCode}
    (hdepad : depadMessage (xs K .dec msg x).1 = .error e) : decryptPaths K true msg x = .error e := by
  rw [decryptPaths, if_pos rfl, if_neg (by omega), if_neg (not_not.mpr h), hdepad]

theorem decryptPaths_padded_empty (h : msg.length = 0) : decryptPaths K true msg x = .error .badPadding := by
  rw [decryptPaths, if_pos rfl, if_pos h]

theorem decryptPaths_padded_unaligned (h : msg.length % 16 ≠ 0) : decryptPaths K true msg x = .error .badLength := by
  rw [decryptPaths, if_pos rfl, if_neg (by omega), if_pos h]

end

/-! ### DECRYPT undoes ENCRYPT -/

/-- Each path of ENCRYPT is undone by the path of DECRYPT that the padding flag and the length of its output select. -/
theorem decryptPaths_of_encryptPaths {K : KeyedCipher} (hK : K.Inverse) {msg out : Bytes} {x x' y : Codec}
    (hx : x.Empty) (hm : x.cmode = .cbc) (hx' : x'.Empty) (hm' : x'.cmode = .cbc) (hc : x'.chain = x.chain)
    (h : encryptPaths K msg x = .ok (out, y)) :
    ∃ y', decryptPaths K (decide (msg.length < 16)) out x' = .ok (msg, y') := by
  have hmm : x'.cmode = x.cmode := hm'.trans hm.symm
  have hlen := length_of_encryptPaths K hx hm h
  rcases Nat.lt_or_ge msg.length 16 with hshort | h16
  · rw [encryptPaths_padded K hshort] at h
    cases h
    obtain ⟨hdec, -⟩ := xs_dec_xs_enc hK hmm hc (bytes := padMessage msg) (by rw [length_padMessage hshort])
    rw [decide_eq_true hshort]
    exact ⟨_, decryptPaths_padded K hm' (by omega) (by omega) (by rw [hdec, depadMessage_padMessage hshort])⟩
  · rw [decide_eq_false (Nat.not_lt.mpr h16)]
    by_cases hmod : msg.length % 16 = 0
    · rw [encryptPaths_aligned K hm h16 hmod] at h
      cases h
      obtain ⟨hdec, -⟩ := xs_dec_xs_enc hK hmm hc hmod
      exact ⟨_, by rw [decryptPaths_aligned K hm' (by omega), hdec]⟩
    · obtain ⟨last, z, hfinal⟩ := exists_ctsFinal_ctsUpdate K .enc hx (msg := msg) (by omega)
      rw [encryptPaths_unaligned K h16 hmod hfinal] at h
      cases h
      obtain ⟨last', z', hfinal'⟩ := exists_ctsFinal_ctsUpdate K .dec hx'
        (msg := (ctsUpdate K .enc msg x).1 ++ last) (by omega)
      have hstream := streamDecodeInvertsEncode K [msg] [(ctsUpdate K .enc msg x).1 ++ last] x x' _ hK hx hx'
        (.inl hm) hmm hc (by simp; omega) (streamOut_singleton K .enc hfinal) (by simp)
      rw [streamOut_singleton K .dec hfinal'] at hstream
      injection hstream with hstream
      exact ⟨_, by rw [decryptPaths_unaligned K (by omega) hfinal', hstream, List.flatten_singleton]⟩

end Sys2Proof.Machine
end

section
/-!
SUPPORT. The commands `ENCRYPT` and `DECRYPT` (43_cipher_engine.md R136, R142): their checks, and their completion on
the path that the message selects.
-/

namespace Sys2Proof.Machine

section
variable {s : State} {p : Snapshot} {seq : Bool}

/-! ### The checks they share -/

theorem onlyOn_self (d : Chan) (k : CommandResult) : onlyOn d d k = k := require_of _ _ (decide_eq_true rfl)

/-- A command that checks the length and then the key reports the first check that fails (60_exceptions.md R173). -/
theorem exec_refuses {i : Instr} {d : Chan} {k : CommandResult} (hi : i.chan = d) (hp : s.Pends d p)
    (hrule : ruleOf i s p = lengthInRange s p (keyReady s k)) :
    (s.maxLen < p.n → ∃ t, exec i s = .next t ∧ Failed d .badLength s t)
      ∧ (p.n ≤ s.maxLen → algRecognised s.algId = false →
          ∃ t, exec i s = .next t ∧ Failed d .unsupportedAlgorithm s t)
      ∧ (p.n ≤ s.maxLen → algRecognised s.algId = true → s.keyValid = false →
          ∃ t, exec i s = .next t ∧ Failed d .noKey s t) := by
  refine ⟨fun hn => exec_fails hi hp ?_, fun hn ha => exec_fails hi hp ?_, fun hn ha hv => exec_fails hi hp ?_⟩
  · rw [hrule, lengthInRange_of_gt _ hn]
  · rw [hrule, lengthInRange_of_le _ hn, keyReady_of_not_recognised _ ha]
  · rw [hrule, lengthInRange_of_le _ hn, keyReady_of_not_valid _ ha hv]

theorem exists_ruleOf_encrypt (seq : Bool) (s : State) (p : Snapshot) :
    ∃ k, ruleOf (.encrypt .enc seq) s p = lengthInRange s p (keyReady s k) :=
  ⟨_, onlyOn_self .enc _⟩

theorem exists_ruleOf_decrypt (seq pad : Bool) (s : State) (p : Snapshot) :
    ∃ k, ruleOf (.decrypt .dec seq pad) s p = lengthInRange s p (keyReady s k) :=
  ⟨_, onlyOn_self .dec _⟩

/-- The length operand has 16 bits (10_state.md R40). -/
theorem Snapshot.n_lt (p : Snapshot) : p.n < 2 ^ 16 := p.len.isLt

/-! ### ENCRYPT -/

/-- `ENCRYPT` completed with output `out` and reported `pad` as its padding flag; of what a command may write beside it
wrote the codec state of direction ENC alone, to `x`. -/
structure Encrypted (x : Codec) (pad : Bool) (out : Bytes) (s t : State) : Prop where
  completed : Completed .enc out s t
  other : KeepsOther .enc s t
  key : KeepsKey s t
  codec : t.codec .enc = x
  otherCodec : t.codec .dec = s.codec .dec
  padOut : (t.chan .enc).status.rtpPadOut = pad
  draws : t.draws = s.draws

theorem encrypted_finish (x : Codec) (pad : Bool) {out : Bytes} (hmem : s.mem.wf = true) (hlen : out.length < 2 ^ 16) :
    Encrypted x pad out s (finish .enc out ((s.setCodec .enc x).setRtpPadOut pad)) where
  completed := by apply completed_finish hmem hlen <;> simp
  other := by simp [KeepsOther]
  key := by simp [KeepsKey]
  codec := by simp
  otherCodec := by simp
  padOut := by simp
  draws := by simp

/-- `ENCRYPT` whose checks pass takes the paths on the started codec state (43_cipher_engine.md R136). -/
theorem exec_encrypt (hp : s.Pends .enc p) (hmem : s.mem.wf = true) (hwhole : p.Whole) (hn : p.n ≤ s.maxLen)
    (hkey : s.Keyed) {out : Bytes} {x : Codec}
    (hpaths : encryptPaths s.underActiveKey p.inp ((s.codec .enc).start (p.iv seq) .cbc) = .ok (out, x)) :
    ∃ t, exec (.encrypt .enc seq) s = .next t ∧ Encrypted x (decide (p.n < 16)) out s t := by
  have hlen := length_of_encryptPaths _ (Codec.empty_start _ _ _) rfl hpaths
  have hmsg : p.inp.length = p.n := hwhole
  have hlt := p.n_lt
  have hrule : ruleOf (.encrypt .enc seq) s p
      = .ok ((s.setCodec .enc x).setRtpPadOut (decide (p.n < 16)), out) := by
    rw [ruleOf, onlyOn_self, lengthInRange_of_le _ hn, keyReady_of_keyed _ hkey, Snapshot.data_of_whole hwhole,
      cipher_eq_underActiveKey, hpaths]
  exact ⟨_, by rw [exec_of_pends hp, hrule, conclude_ok]; rfl, encrypted_finish x _ hmem (by omega)⟩

/-! ### DECRYPT -/

/-- `DECRYPT` whose checks pass takes the paths on the started codec state (43_cipher_engine.md R142). -/
theorem exec_decrypt {pad : Bool} (hp : s.Pends .dec p) (hmem : s.mem.wf = true) (hwhole : p.Whole)
    (hn : p.n ≤ s.maxLen) (hkey : s.Keyed) {out : Bytes} {x : Codec}
    (hpaths : decryptPaths s.underActiveKey pad p.inp ((s.codec .dec).start (p.iv seq) .cbc) = .ok (out, x)) :
    ∃ t, exec (.decrypt .dec seq pad) s = .next t ∧ WritesCodec .dec x out s t := by
  obtain ⟨-, hlen⟩ := decryptPaths_eq_ok (Codec.empty_start _ _ _) hpaths
  have hmsg : p.inp.length = p.n := hwhole
  have hlt := p.n_lt
  refine exec_writesCodec rfl hp ?_ (.inr ⟨hmem, by omega⟩)
  rw [ruleOf, onlyOn_self, lengthInRange_of_le _ hn, keyReady_of_keyed _ hkey, Snapshot.data_of_whole hwhole,
    cipher_eq_underActiveKey, hpaths]

theorem exec_decrypt_error {pad : Bool} (hp : s.Pends .dec p) (hwhole : p.Whole) (hn : p.n ≤ s.maxLen) (hkey : s.Keyed)
    {e : ErrCode}
    (hpaths : decryptPaths s.underActiveKey pad p.inp ((s.codec .dec).start (p.iv seq) .cbc) = .error e) :
    ∃ t, exec (.decrypt .dec seq pad) s = .next t ∧ Failed .dec e s t := by
  refine exec_fails rfl hp ?_
  rw [ruleOf, onlyOn_self, lengthInRange_of_le _ hn, keyReady_of_keyed _ hkey, Snapshot.data_of_whole hwhole,
    cipher_eq_underActiveKey, hpaths]

/-! ### The messages in CBC mode -/

variable (K : KeyedCipher) (x : Codec) (iv : Block) {msg : Bytes}

theorem cbcEncrypts_xs_start (h : msg.length % 16 = 0) :
    CbcEncrypts K iv msg (xs K .enc msg (x.start iv .cbc)).1 :=
  cbcEncrypts_xs K (s := x.start iv .cbc) rfl h

theorem cbcDecrypts_xs_start (h : msg.length % 16 = 0) :
    CbcDecrypts K iv msg (xs K .dec msg (x.start iv .cbc)).1 :=
  cbcDecrypts_xs K (s := x.start iv .cbc) rfl h

end

/-! ### ENCRYPT, path by path -/

/-- Settles O8: the padded path. -/
theorem encryptShortMessagePads : Obligations.EncryptShortMessagePads := by
  intro seq s p hp hmem hwhole hn hkey hshort
  have hmsg : p.inp.length = p.n := hwhole
  obtain ⟨t, ht, h⟩ := exec_encrypt hp hmem hwhole hn hkey
    (encryptPaths_short _ (x := (s.codec .enc).start (p.iv seq) .cbc) rfl (hmsg ▸ hshort) rfl)
  refine ⟨t, _, ht, by rw [padMessage, hmsg]; rfl, h.completed, h.other, h.key, ?_⟩
  rw [h.codec, h.padOut, decide_eq_true hshort]
  exact ⟨rfl, rfl, rfl, rfl, rfl, h.otherCodec, rfl, h.draws⟩

/-- Settles O9: the standard path. -/
theorem encryptAlignedMessageIsCbc : Obligations.EncryptAlignedMessageIsCbc := by
  intro seq s p hp hmem hwhole hn hkey h16 hmod
  have hmsg : p.inp.length = p.n := hwhole
  rw [← hmsg] at hmod
  obtain ⟨t, ht, h⟩ := exec_encrypt hp hmem hwhole hn hkey
    (encryptPaths_aligned _ (x := (s.codec .enc).start (p.iv seq) .cbc) rfl (hmsg ▸ h16) hmod)
  refine ⟨t, _, ht, cbcEncrypts_xs_start _ _ _ hmod, h.completed, h.other, h.key, ?_⟩
  rw [h.codec, h.padOut, decide_eq_false (Nat.not_lt.mpr h16)]
  exact ⟨rfl, rfl, rfl, rfl, rfl, h.otherCodec, rfl, h.draws⟩

/-- Settles O10: the path of ciphertext stealing. -/
theorem encryptUnalignedMessageSteals : Obligations.EncryptUnalignedMessageSteals := by
  intro seq s p hp hmem hwhole hn hkey h16 hmod
  have hmsg : p.inp.length = p.n := hwhole
  rw [← hmsg] at h16 hmod ⊢
  obtain ⟨buf, fin, hpaths⟩ := encryptPaths_steals s.underActiveKey (Codec.empty_start (s.codec .enc) (p.iv seq) .cbc)
    rfl h16 hmod rfl rfl rfl
  obtain ⟨t, ht, h⟩ := exec_encrypt hp hmem hwhole hn hkey hpaths
  have hlen := length_of_encryptPaths _ (Codec.empty_start _ _ _) rfl hpaths
  have hcbc := cbcEncrypts_xs_start s.underActiveKey (s.codec .enc) (p.iv seq) (length_cut_at_mod p.inp).1
  refine ⟨t, _, _, _, ht, hcbc, rfl, rfl, h.completed, hlen.trans (by omega), h.other, h.key, ?_⟩
  rw [h.codec, h.padOut, decide_eq_false (by omega)]
  exact ⟨rfl, rfl, rfl, rfl, rfl, h.otherCodec, rfl, h.draws⟩

/-- Settles O11: the two checks of the key follow the one of the length. -/
theorem encryptRefusesInOrder : Obligations.EncryptRefusesInOrder := by
  intro seq s p hp
  obtain ⟨k, hrule⟩ := exists_ruleOf_encrypt seq s p
  exact exec_refuses rfl hp hrule

/-! ### DECRYPT, path by path -/

/-- Settles O12: the standard path. -/
theorem decryptAlignedMessageIsCbc : Obligations.DecryptAlignedMessageIsCbc := by
  intro seq s p hp hmem hwhole hn hkey hmod
  rw [← show p.inp.length = p.n from hwhole] at hmod
  obtain ⟨t, ht, h⟩ := exec_decrypt hp hmem hwhole hn hkey
    (decryptPaths_aligned _ (x := (s.codec .dec).start (p.iv seq) .cbc) rfl hmod)
  refine ⟨t, _, ht, cbcDecrypts_xs_start _ _ _ hmod, h.completed, h.other, h.key, h.padFlags, ?_⟩
  rw [h.codec]
  exact ⟨rfl, rfl, rfl, rfl, rfl, h.otherCodec, h.draws⟩

/-- Settles O13: the padded path, by what the last byte of the decrypted message counts. -/
theorem decryptPaddedMessageTrustsTheLastByte : Obligations.DecryptPaddedMessageTrustsTheLastByte := by
  intro seq s p hp hmem hwhole hn hkey hpos hmod
  have hmsg : p.inp.length = p.n := hwhole
  obtain ⟨msg, hxs⟩ : ∃ msg, (xs s.underActiveKey .dec p.inp ((s.codec .dec).start (p.iv seq) .cbc)).1 = msg := ⟨_, rfl⟩
  have hcbc : CbcDecrypts s.underActiveKey (p.iv seq) p.inp msg :=
    hxs ▸ cbcDecrypts_xs_start _ _ _ (hmsg ▸ hmod)
  have hlen : msg.length = p.n := hcbc.1.trans hmsg
  by_cases hcount : 1 ≤ (msg.getD (p.n - 1) 0).toNat ∧ (msg.getD (p.n - 1) 0).toNat ≤ 16
  · have hdepad : depadMessage msg = .ok (msg.take (p.n - (msg.getD (p.n - 1) 0).toNat)) := by
      rw [depadMessage_of_count (by rw [hlen]) hcount, hlen]
    obtain ⟨t, ht, h⟩ := exec_decrypt hp hmem hwhole hn hkey
      (decryptPaths_padded _ rfl (hmsg ▸ hpos) (hmsg ▸ hmod) (by rw [hxs, hdepad]))
    refine ⟨t, msg, ht, hcbc, ?_⟩
    rw [if_pos hcount, h.codec]
    exact ⟨h.completed, h.other, h.key, h.padFlags, rfl, rfl, rfl, rfl, rfl, h.otherCodec, h.draws⟩
  · have hdepad : depadMessage msg = .error .badPadding := depadMessage_of_not_count (by rwa [hlen])
    obtain ⟨t, ht, h⟩ := exec_decrypt_error hp hwhole hn hkey
      (decryptPaths_padded_error _ (hmsg ▸ hpos) (hmsg ▸ hmod) (by rw [hxs, hdepad]))
    refine ⟨t, msg, ht, hcbc, ?_⟩
    rwa [if_neg hcount]

/-- Settles O14: the path of ciphertext stealing. -/
theorem decryptUnalignedMessageUndoesStealing : Obligations.DecryptUnalignedMessageUndoesStealing := by
  intro seq s p hp hmem hwhole hn hkey h16 hmod
  have hmsg : p.inp.length = p.n := hwhole
  rw [← hmsg] at h16 hmod ⊢
  obtain ⟨buf, fin, hpaths⟩ := decryptPaths_steals s.underActiveKey (Codec.empty_start (s.codec .dec) (p.iv seq) .cbc)
    rfl h16 hmod rfl rfl rfl
  obtain ⟨t, ht, h⟩ := exec_decrypt hp hmem hwhole hn hkey hpaths
  have hcbc := cbcDecrypts_xs_start s.underActiveKey (s.codec .dec) (p.iv seq) (length_cut_at_mod p.inp).1
  refine ⟨t, _, _, _, _, ht, hcbc, rfl, rfl, rfl, h.completed, ?_, h.other, h.key, h.padFlags, ?_⟩
  · rw [List.length_append, List.length_append, hcbc.1]
    simp
    omega
  · rw [h.codec]
    exact ⟨rfl, rfl, rfl, rfl, rfl, h.otherCodec, h.draws⟩

/-- Settles O15: the checks ENCRYPT has too, then those of the path. -/
theorem decryptRefusesInOrder : Obligations.DecryptRefusesInOrder := by
  intro seq pad s p hp
  obtain ⟨k, hrule⟩ := exists_ruleOf_decrypt seq pad s p
  obtain ⟨hlength, halg, hnokey⟩ := exec_refuses rfl hp hrule
  refine ⟨hlength, halg, hnokey, fun hn hkey hwhole hpad hzero => ?_, fun hn hkey hwhole hpad hmod => ?_,
    fun hn hkey hwhole hpad hpos hshort => ?_⟩
  all_goals
    subst hpad
    refine exec_decrypt_error hp hwhole hn hkey ?_
    have hmsg : p.inp.length = p.n := hwhole
  · exact decryptPaths_padded_empty _ (hmsg ▸ hzero)
  · exact decryptPaths_padded_unaligned _ (hmsg ▸ hmod)
  · exact decryptPaths_short _ (Codec.empty_start _ _ _) (hmsg ▸ hpos) (hmsg ▸ hshort)

/-! ### The round trip -/

/-- What the host reads of the output window after a completion is the output (44_control.md R164). -/
theorem Completed.readBytes_eq {c : Chan} {out : Bytes} {s t : State} (h : Completed c out s t) :
    t.mem.readBytes (outBase c) out.length = out := by
  refine bytes_ext_getD (by simp) fun i hi => ?_
  rw [Memory.length_readBytes] at hi
  rw [Memory.getD_readBytes _ _ _ _ hi, h.stored _ (by omega) (by omega), Nat.add_sub_cancel_left]

/-- Settles O29: with ENCRYPT's output, key, IV and padding flag, DECRYPT takes the path that undoes ENCRYPT's. -/
theorem decryptReturnsWhatEncryptTook : Obligations.DecryptReturnsWhatEncryptTook := by
  intro seq s t u p q hp hmem hwhole hn hkey ht hq humem halg hukey hvalid hseq hlenq hinp hqn
  obtain ⟨out, x, hpaths, -⟩ := exists_encryptPaths s.underActiveKey (msg := p.inp)
    (Codec.empty_start (s.codec .enc) (p.iv seq) .cbc) rfl
  obtain ⟨t', ht', h⟩ := exec_encrypt hp hmem hwhole hn hkey hpaths
  obtain rfl : t = t' := by
    rw [ht] at ht'
    injection ht'
  have hqlen : q.n = out.length := by rw [Snapshot.n, hlenq, h.completed.outLen]
  have hqinp : q.inp = out := by rw [hinp, hqlen, h.completed.readBytes_eq]
  have hK : u.underActiveKey = s.underActiveKey := by
    rw [State.underActiveKey, State.underActiveKey, hukey, halg, h.key.1, h.completed.algId]
  have hiv : q.iv seq = p.iv seq := by rw [Snapshot.iv, Snapshot.iv, Snapshot.seed, Snapshot.seed, hseq]
  have hukeyed : u.Keyed := by
    rw [State.Keyed, halg, hvalid, h.completed.algId, h.key.2]
    exact hkey
  obtain ⟨y, hdec⟩ := decryptPaths_of_encryptPaths (aesUnder_inverse _) (Codec.empty_start _ _ _) rfl
    (Codec.empty_start (u.codec .dec) (q.iv seq) .cbc) rfl hiv hpaths
  rw [show p.inp.length = p.n from hwhole, ← h.padOut] at hdec
  obtain ⟨v, hv, hwrites⟩ := exec_decrypt hq humem (by rw [Snapshot.Whole, hqinp, hqlen]) hqn hukeyed
    (by rw [hqinp, hK]; exact hdec)
  exact ⟨v, hv, hwrites.completed⟩

end Sys2Proof.Machine
end

section
/-!
SUPPORT. What a command may write (44_control.md R161, R167): of the channels' registers its rule writes at most
`OUT_LEN`, `SEQ` and the padding flag, its end those of its own channel that report the outcome, and of the memory a
command that is no `ZEROIZE` writes its own output window alone. The two control commands (R160, R161) follow.
-/

namespace Sys2Proof.Machine

/-! ### What a rule writes of the channels -/

/-- The registers `y` of a channel are `x` but for `OUT_LEN`, `SEQ` and the padding flag: all that the rule of a command
writes of either channel (44_control.md R161, 43_cipher_engine.md R140). -/
def Channel.SameButData (x y : Channel) : Prop :=
  ∃ outLen seq pad, y = { x with outLen := outLen, seq := seq, status := { x.status with rtpPadOut := pad } }

theorem Channel.SameButData.refl (x : Channel) : x.SameButData x := ⟨_, _, _, rfl⟩

theorem sameButData_zeroized (s : State) (e : Chan) : (s.chan e).SameButData (s.zeroized.chan e) := by
  cases e with
  | enc => exact ⟨_, _, _, chan_enc_zeroized s⟩
  | dec => exact ⟨_, _, _, chan_dec_zeroized s⟩

theorem RuleKeeps.sameButData {c : Chan} {s t : State} (h : RuleKeeps c s t) (e : Chan) :
    (s.chan e).SameButData (t.chan e) := by
  rcases eq_or_eq_otherChan c e with rfl | rfl
  · obtain ⟨pad, hpad⟩ := h.chan
    exact ⟨_, _, pad, hpad⟩
  · rw [h.otherChan]
    exact .refl _

/-- The rule of every command, `ZEROIZE` too. -/
theorem ruleOf_sameButData {i : Instr} {s t : State} {p : Snapshot} {out : Bytes} (h : ruleOf i s p = .ok (t, out))
    (e : Chan) : (s.chan e).SameButData (t.chan e) := by
  by_cases hz : ∃ c, i = .zeroize c
  · obtain ⟨c, rfl⟩ := hz
    cases h
    exact sameButData_zeroized s e
  · exact (rule_keeps (not_exists.mp hz) h).sameButData e

/-! ### What a completion leaves of the channels -/

/-- What no command of channel `c` writes (44_control.md R167): of both channels `CMD`, `LEN`, `INT_EN` and `OVERRUN`; of
the other channel its completion status and its pending command too. -/
structure KeepsControl (c : Chan) (s t : State) : Prop where
  registers : ∀ e, (t.chan e).cmd = (s.chan e).cmd ∧ (t.chan e).len = (s.chan e).len
    ∧ (t.chan e).doneEn = (s.chan e).doneEn ∧ (t.chan e).ovrEn = (s.chan e).ovrEn
    ∧ (t.chan e).status.overrun = (s.chan e).status.overrun
  otherPending : (t.chan (otherChan c)).pending = (s.chan (otherChan c)).pending
  otherDone : (t.chan (otherChan c)).status.done = (s.chan (otherChan c)).status.done
  otherErr : (t.chan (otherChan c)).status.err = (s.chan (otherChan c)).status.err
  otherErrcode : (t.chan (otherChan c)).status.errcode = (s.chan (otherChan c)).status.errcode

theorem keepsControl_finish {c : Chan} (out : Bytes) {s t : State} (h : ∀ e, (s.chan e).SameButData (t.chan e)) :
    KeepsControl c s (finish c out t) := by
  obtain ⟨_, _, _, hother⟩ := h (otherChan c)
  refine ⟨fun e => ?_, by simp [hother], by simp [hother], by simp [hother], by simp [hother]⟩
  rcases eq_or_eq_otherChan c e with rfl | rfl
  · obtain ⟨_, _, _, hown⟩ := h e
    simp [hown]
  · simp [hother]

theorem Failed.keepsControl {c : Chan} {x : ErrCode} {s t : State} (h : Failed c x s t) : KeepsControl c s t := by
  have hother : t.chan (otherChan c) = s.chan (otherChan c) := h.other
  refine ⟨fun e => ?_, by rw [hother], by rw [hother], by rw [hother], by rw [hother]⟩
  rcases eq_or_eq_otherChan c e with rfl | rfl
  · exact ⟨h.cmd, h.len, h.doneEn, h.ovrEn, h.overrun⟩
  · rw [hother]
    exact ⟨rfl, rfl, rfl, rfl, rfl⟩

theorem exec_keepsControl {i : Instr} {s t : State} (h : exec i s = .next t) : KeepsControl i.chan s t := by
  obtain ⟨p, -, rfl⟩ := exec_next h
  cases hr : ruleOf i s p with
  | error e => exact (failed_raiseError i.chan e).keepsControl
  | ok r => exact keepsControl_finish r.2 (ruleOf_sameButData hr)

/-! ### What a completion other than `ZEROIZE` leaves beside -/

section
variable {i : Instr} (hz : ∀ c, i ≠ .zeroize c) (s : State) (p : Snapshot)
include hz

theorem seq_conclude_ruleOf (e : Chan) : ((conclude i.chan s (ruleOf i s p)).chan e).seq = (s.chan e).seq := by
  cases hr : ruleOf i s p with
  | error x => rcases eq_or_eq_otherChan i.chan e with rfl | rfl <;> simp
  | ok r =>
    have hkeeps := rule_keeps hz hr
    obtain ⟨pad, hown⟩ := hkeeps.chan
    rcases eq_or_eq_otherChan i.chan e with rfl | rfl
    · simp [conclude, hown]
    · simp [conclude, hkeeps.otherChan]

theorem keepsOther_conclude_ruleOf : KeepsOther i.chan s (conclude i.chan s (ruleOf i s p)) := by
  cases hr : ruleOf i s p with
  | error e => exact (failed_raiseError i.chan e).other
  | ok r => exact (chan_finish_of_ne r.1 _ _ _ (otherChan_ne _)).trans (rule_keeps hz hr).otherChan

theorem keywin_conclude_ruleOf : (conclude i.chan s (ruleOf i s p)).keywin = s.keywin := by
  cases hr : ruleOf i s p with
  | error e => exact keywin_raiseError s _ e
  | ok r => exact (keywin_finish r.1 _ _).trans (rule_keeps hz hr).keywin

/-- The memory a completion leaves is the one before with the command's output written to its window. -/
theorem mem_conclude_ruleOf :
    (conclude i.chan s (ruleOf i s p)).mem = s.mem.writeBytes (outBase i.chan) (emitted (ruleOf i s p)) := by
  cases hr : ruleOf i s p with
  | error e => exact mem_raiseError s _ e
  | ok r => rw [conclude_ok, mem_finish, (rule_keeps hz hr).mem, emitted]

/-- Outside the output window of its channel a completion writes nothing (20_memory.md R51, R55). -/
theorem read_conclude_ruleOf (hs : s.Inv) {a : Nat} (ha : a < outBase i.chan ∨ outBase i.chan + 0x2000 ≤ a) :
    (conclude i.chan s (ruleOf i s p)).mem.read a = s.mem.read a := by
  have hlen := length_emitted_le hs hz p
  have hmax := hs.maxLen_le
  rw [mem_conclude_ruleOf hz, Memory.read_writeBytes _ _ _ hs.mem_wf, if_neg (by omega)]

end

/-! ### The windows are apart (20_memory.md R51) -/

theorem inBase_apart_outBase (c d : Chan) : inBase d + 0x2000 ≤ outBase c ∨ outBase c + 0x2000 ≤ inBase d := by
  cases c <;> cases d <;> decide

theorem outBase_apart_otherChan (c : Chan) :
    outBase (otherChan c) + 0x2000 ≤ outBase c ∨ outBase c + 0x2000 ≤ outBase (otherChan c) := by
  cases c <;> decide

/-- Settles O33: the input windows and the other output window lie apart from the one a completion writes. -/
theorem commandsWriteOnlyTheirOwn : Obligations.CommandsWriteOnlyTheirOwn := by
  intro i s t hs ht
  obtain ⟨hregisters, hpending, hdone, herr, herrcode⟩ := exec_keepsControl ht
  refine ⟨hregisters, hpending, hdone, herr, herrcode, fun hz => ?_⟩
  obtain ⟨p, -, rfl⟩ := exec_next ht
  refine ⟨seq_conclude_ruleOf hz s p, keepsOther_conclude_ruleOf hz s p, keywin_conclude_ruleOf hz s p,
    fun c a ha ha' => ?inputs, fun a ha ha' => ?otherOutput⟩
  case inputs =>
    have hapart := inBase_apart_outBase i.chan c
    exact read_conclude_ruleOf hz s p hs (by omega)
  case otherOutput =>
    have hapart := outBase_apart_otherChan i.chan
    exact read_conclude_ruleOf hz s p hs (by omega)

/-! ### `NOP` and `ZEROIZE` -/

/-- Settles O1: the rule writes nothing and emits nothing, so the step is `finish` alone. -/
theorem nopOnlyReportsDone : Obligations.NopOnlyReportsDone := by
  intro c s p hp
  have hcompleted : Completed c [] s (finish c [] s) :=
    completed_finish_nil rfl rfl rfl rfl rfl rfl rfl rfl rfl rfl rfl rfl
  exact ⟨finish c [] s, exec_of_pends hp, hcompleted, chan_finish_of_ne s c _ _ (otherChan_ne c),
    ⟨key_finish s c _, keyValid_finish s c _⟩, codec_finish s c _, rtpPadOut_finish c _ s, draws_finish s c _⟩

/-- `CTS_STATE` of two codec states at their reset values reads as after reset (10_state.md R29, R46). -/
theorem ctsStateWord_of_codecs_reset {s : State} (h : ∀ d, s.codec d = Codec.reset) : ctsStateWord s = 0 := by
  rw [ctsStateWord, h, h]
  exact ctsStateWord_resetOf 0 0

theorem outLen_seq_zeroized (s : State) (e : Chan) :
    (s.zeroized.chan e).outLen = 0 ∧ (s.zeroized.chan e).seq = Vector.replicate 6 0 := by
  cases e <;> simp

/-- The end of `ZEROIZE` leaves no output length and no sequence value in either channel. -/
theorem outLen_seq_finish_zeroized (c : Chan) (s : State) (e : Chan) :
    ((finish c [] s.zeroized).chan e).outLen = 0
      ∧ ((finish c [] s.zeroized).chan e).seq = Vector.replicate 6 0 := by
  obtain ⟨houtLen, hseq⟩ := outLen_seq_zeroized s e
  rcases eq_or_eq_otherChan c e with rfl | rfl
  · simp [hseq]
  · rw [chan_finish_of_ne _ _ _ _ (otherChan_ne c)]
    exact ⟨houtLen, hseq⟩

/-- Settles O2: the step is `finish` on the zeroized state; what it keeps of the channels, every command keeps. -/
theorem zeroizeClearsKeysAndData : Obligations.ZeroizeClearsKeysAndData := by
  intro c s p hp
  have hexec : exec (.zeroize c) s = .next (finish c [] s.zeroized) := exec_of_pends hp
  obtain ⟨hregisters, hpending, hdone, herr, herrcode⟩ := exec_keepsControl hexec
  have hcodec : ∀ d, (finish c [] s.zeroized).codec d = Codec.reset := fun d => by simp
  refine ⟨_, hexec, by simp, by simp, by simp, fun d => ?codecs, fun a => ?memory, outLen_seq_finish_zeroized c s,
    by simp, by simp, by simp, by simp, by simp, by simp, hpending, hdone, herr, herrcode, hregisters,
    ctsStateWord_of_codecs_reset hcodec, by simp, by simp, by simp, by simp, by simp⟩
  case codecs =>
    rw [hcodec]
    exact ⟨rfl, rfl, rfl, rfl, rfl, rfl, rfl⟩
  case memory =>
    rw [mem_finish, mem_zeroized]
    rfl

end Sys2Proof.Machine
end

section
/-!
SUPPORT. The two ends of a command's life: the host's write that has it accepted (44_control.md R162), and the completion
step that runs what its word decodes to (R163).
-/

namespace Sys2Proof.Machine

/-! ### Acceptance -/

section
variable (s : State) (c : Chan) (w : Word)

@[simp] theorem algId_accept : (accept c w s).algId = s.algId := algId_setChan s c _
@[simp] theorem maxLen_accept : (accept c w s).maxLen = s.maxLen := maxLen_setChan s c _
@[simp] theorem key_accept : (accept c w s).key = s.key := key_setChan s c _
@[simp] theorem keyValid_accept : (accept c w s).keyValid = s.keyValid := keyValid_setChan s c _
@[simp] theorem keywin_accept : (accept c w s).keywin = s.keywin := keywin_setChan s c _
@[simp] theorem mem_accept : (accept c w s).mem = s.mem := mem_setChan s c _
@[simp] theorem draws_accept : (accept c w s).draws = s.draws := draws_setChan s c _
@[simp] theorem agenda_accept : (accept c w s).agenda = s.agenda := agenda_setChan s c _
@[simp] theorem codec_accept (d : Chan) : (accept c w s).codec d = s.codec d := codec_setChan s c _ d
@[simp] theorem chan_accept_otherChan : (accept c w s).chan (otherChan c) = s.chan (otherChan c) :=
  chan_setChan_of_ne s c _ _ (otherChan_ne c)

@[simp] theorem snapshot_setAgenda (l : List Event) : (s.setAgenda l).snapshot c w = s.snapshot c w := by
  simp [State.snapshot]

/-- The data of a snapshot are the bytes of the input window (10_state.md R26). -/
theorem getD_snapshot_inp {i : Nat} (h : i < (s.snapshot c w).inp.length) :
    (s.snapshot c w).inp.getD i 0 = s.mem.read (inBase c + i) :=
  Memory.getD_readBytes _ _ _ _ (by rwa [length_snapshot_inp] at h)

end

/-- A write to `CMD[c]` of an idle channel is an acceptance, whatever the word. -/
theorem step_write_cmd {s : State} {c : Chan} {w : Word} {rest : List Event}
    (h : s.agenda = writeEvent (pageBase c) w :: rest) (hidle : s.busy c = false) :
    step s = .next ((accept c w (s.setAgenda rest)).setBus .written) := by
  rw [step_write_page (k := 0) h (by decide) (by decide), show placeOnPage c 0 = .cmd c from rfl, writePlace,
    unlessBusy_of_idle _ (by rwa [busy_setAgenda])]

/-- Settles O36: the step is `accept`, whose snapshot is the pending one. -/
theorem acceptanceTakesASnapshot : Obligations.AcceptanceTakesASnapshot := by
  intro c w s rest h hidle
  refine ⟨_, s.snapshot c w, step_write_cmd h hidle, by simp [State.Pends, accept_chan], rfl, rfl, rfl, rfl,
    length_snapshot_inp c w, fun i hi => getD_snapshot_inp s c w hi, ?_⟩
  rw [chan_setBus, accept_chan, chan_setAgenda]
  refine ⟨rfl, rfl, rfl, rfl, rfl, rfl, rfl, ?other, ?key, ?codecs, ?frame⟩
  case other => simp [KeepsOther]
  case key => simp [KeepsKey]
  case codecs => intro d; simp
  case frame => simp

/-! ### Completion -/

section
variable {c : Chan} {s : State} {p : Snapshot}

theorem complete_of_decode_ok {i : Instr} (hp : s.Pends c p) (hd : decode c p.word = .ok i) :
    complete c s = exec i s := by
  simp only [complete, show (s.chan c).pending = some p from hp, hd]

theorem complete_of_decode_error {e : DecodeError} (hp : s.Pends c p) (hd : decode c p.word = .error e) :
    complete c s = .next (raiseError c .illegalCommand s) := by
  simp only [complete, show (s.chan c).pending = some p from hp, hd]

theorem complete_of_idle (h : (s.chan c).pending = none) : complete c s = .next s := by
  simp only [complete, h]

end

/-- Settles O53: the step is the completion of the channel, whose three cases are those of the pending word. -/
theorem stepRunsTheDecodedCommand : Obligations.StepRunsTheDecodedCommand := by
  intro c s rest h
  have hstep : step s = complete c (s.setAgenda rest) := step_of_agenda h
  have hchan : (s.setAgenda rest).chan c = s.chan c := chan_setAgenda s rest c
  rw [hstep]
  refine ⟨fun p i hp hd => ?legal, fun p e hp hd => ?illegal, fun hidle => ?idle⟩
  case legal => exact complete_of_decode_ok (by rwa [State.Pends, hchan]) hd
  case illegal =>
    exact ⟨_, complete_of_decode_error (by rwa [State.Pends, hchan]) hd, failed_raiseError c .illegalCommand⟩
  case idle => exact complete_of_idle (by rwa [hchan])

end Sys2Proof.Machine
end

section
/-!
SUPPORT. How the block goes on: a command ends in exactly one of `finish` and `raise` (44_control.md R163, 60_exceptions.md
R170), and no step stops the block or changes its construction parameters (R181, 10_state.md R27, R28).
-/

namespace Sys2Proof.Machine

/-! ### The two ends of a command -/

/-- A completion is the `finish` of what the rule wrote, or a failure with an error code from the state before it. -/
theorem exec_next_cases {i : Instr} {s t : State} (h : exec i s = .next t) :
    (∃ p u out, ruleOf i s p = .ok (u, out) ∧ t = finish i.chan out u)
      ∨ ∃ e, e ≠ .ok ∧ Failed i.chan e s t := by
  obtain ⟨p, -, rfl⟩ := exec_next h
  cases hr : ruleOf i s p with
  | ok r => exact .inl ⟨p, r.1, r.2, hr, rfl⟩
  | error e => exact .inr ⟨e, rule_error_ne_ok hr, failed_raiseError i.chan e⟩

/-- Settles O30: both ends leave the channel idle and done, and each writes its own `ERR`, `ERRCODE` and `OUT_LEN`. -/
theorem everyCommandCompletes : Obligations.EveryCommandCompletes := by
  intro i s p hp
  have hexec := exec_of_pends hp
  refine ⟨_, hexec, ?_⟩
  rcases exec_next_cases hexec with ⟨q, u, out, -, ht⟩ | ⟨e, he, hfailed⟩
  · simp [ht]
  · exact ⟨hfailed.idle, hfailed.done, .inr ⟨hfailed.err, hfailed.errcode ▸ he, hfailed.outLen⟩⟩

/-- Settles O31: `ERR = 1` excludes the end by `finish`, and the other end is a failure with the code it shows. -/
theorem failureIsAtomic : Obligations.FailureIsAtomic := by
  intro i s t ht herr
  rcases exec_next_cases ht with ⟨p, u, out, -, rfl⟩ | ⟨e, -, hfailed⟩
  · simp at herr
  · rwa [hfailed.errcode]

/-! ### The construction parameters -/

/-- `s` and `t` agree in the construction parameters, the algorithm code and `MAX_LEN` (10_state.md R27, R28). -/
def SameParameters (s t : State) : Prop :=
  t.algId = s.algId ∧ t.maxLen = s.maxLen

theorem SameParameters.refl (s : State) : SameParameters s s := ⟨rfl, rfl⟩

theorem sameParameters_setChan (s : State) (c : Chan) (x : Channel) : SameParameters s (s.setChan c x) :=
  ⟨algId_setChan s c x, maxLen_setChan s c x⟩

/-- The rule of every command, `ZEROIZE` too. -/
theorem ruleOf_sameParameters {i : Instr} {s t : State} {p : Snapshot} {out : Bytes} (h : ruleOf i s p = .ok (t, out)) :
    SameParameters s t := by
  by_cases hz : ∃ c, i = .zeroize c
  · obtain ⟨c, rfl⟩ := hz
    cases h
    exact ⟨algId_zeroized s, maxLen_zeroized s⟩
  · have hkeeps := rule_keeps (not_exists.mp hz) h
    exact ⟨hkeeps.algId, hkeeps.maxLen⟩

theorem exec_sameParameters {i : Instr} {s t : State} (h : exec i s = .next t) : SameParameters s t := by
  rcases exec_next_cases h with ⟨p, u, out, hr, rfl⟩ | ⟨e, -, hfailed⟩
  · obtain ⟨halg, hmax⟩ := ruleOf_sameParameters hr
    exact ⟨(algId_finish u _ out).trans halg, (maxLen_finish u _ out).trans hmax⟩
  · exact ⟨hfailed.algId, hfailed.maxLen⟩

/-- A write that the busy hazard discards sets `OVERRUN` alone (70_reset_and_hazards.md R205). -/
theorem sameParameters_unlessBusy {c : Chan} {s t : State} (h : SameParameters s t) :
    SameParameters s (unlessBusy c s t) := by
  unfold unlessBusy
  split_ifs
  · exact sameParameters_setChan s c _
  · exact h

theorem sameParameters_writePlace (s : State) (w : Word) (pl : Place) : SameParameters s (writePlace s w pl) := by
  cases pl with
  | cmd | len | seq0 | seq1 => exact sameParameters_unlessBusy (sameParameters_setChan s _ _)
  | status | intEn => exact sameParameters_setChan s _ _
  | inp c i =>
    simp only [writePlace]
    split_ifs
    · exact sameParameters_unlessBusy ⟨rfl, rfl⟩
    · exact .refl s
  | keywin | alg | info | ctsState | outLen | out | reserved => exact ⟨rfl, rfl⟩

/-- A host access, performed or not; besides a write's place it touches the bus and the count of draws only. -/
theorem sameParameters_hostAccess (a : HostAccess) (s : State) : SameParameters s (hostAccess a s) := by
  cases a with
  | read width off =>
    simp only [hostAccess]
    split_ifs <;> exact ⟨rfl, rfl⟩
  | write width off w =>
    simp only [hostAccess]
    split_ifs
    · exact sameParameters_writePlace s w _
    · exact ⟨rfl, rfl⟩

/-! ### No step stops -/

/-- From `s` the block goes on: the outcome is a next state with the construction parameters as before. -/
def GoesOn (s : State) (o : Host.Outcome State Fault Refusal) : Prop :=
  ∃ t, o = .next t ∧ SameParameters s t

/-- A word decodes to a command of its own channel, which has accepted it, so a completion is no fault (log 9). -/
theorem complete_goesOn (c : Chan) (s : State) : GoesOn s (complete c s) := by
  cases hp : (s.chan c).pending with
  | none => exact ⟨s, complete_of_idle hp, .refl s⟩
  | some p =>
    cases hd : decode c p.word with
    | error e => exact ⟨_, complete_of_decode_error hp hd, algId_raiseError s c _, maxLen_raiseError s c _⟩
    | ok i =>
      obtain ⟨-, rfl, -⟩ := decode_sound hd
      have hexec := exec_of_pends hp
      exact ⟨_, (complete_of_decode_ok hp hd).trans hexec, exec_sameParameters hexec⟩

theorem runEvent_goesOn (e : Event) (s : State) : GoesOn s (runEvent e s) := by
  cases e with
  | host a => exact ⟨_, rfl, sameParameters_hostAccess a s⟩
  | completion c => exact complete_goesOn c s
  | reset => exact ⟨_, rfl, rfl, rfl⟩

/-- The drain of an empty agenda (70_reset_and_hazards.md R208, R214) counts at most a draw before its completion. -/
theorem drain_goesOn (s : State) : GoesOn s (drain s) := by
  unfold drain
  split_ifs
  · exact complete_goesOn (firstEngine s) (s.setDraws (s.draws + 1))
  · exact complete_goesOn .enc s
  · exact complete_goesOn .dec s
  · exact ⟨s, rfl, .refl s⟩

/-- Settles O58: a step is the drain of an empty agenda or the event at its head. -/
theorem stepNeverStops : Obligations.StepNeverStops := by
  intro s
  cases ha : s.agenda with
  | nil =>
    rw [step, nextStep, ha]
    exact drain_goesOn s
  | cons e rest =>
    rw [step_of_agenda ha]
    exact runEvent_goesOn e (s.setAgenda rest)

end Sys2Proof.Machine
end

section
/-!
SUPPORT. Reset and the hazards of the command interface: the reset event (70_reset_and_hazards.md R200, R201), the writes a
busy channel discards (R205), and the completion of every pending command once the host is silent (R208).
-/

namespace Sys2Proof.Machine

/-! ### Reset -/

/-- Settles O55: `resetBlock` takes the parameters, the draws and the events to come from the state, and nothing else. -/
theorem resetEventResetsTheBlock : Obligations.ResetEventResetsTheBlock := by
  intro s rest h
  rw [step_of_agenda h, runEvent, resetBlock, algId_setAgenda, maxLen_setAgenda, draws_setAgenda, agenda_setAgenda]

/-! ### The busy hazard -/

/-- The places of channel `c` whose writes the busy hazard guards: a word of `IN[c]` is one if it begins below the capacity
(70_reset_and_hazards.md R205, 20_memory.md R54). -/
inductive BusyGuarded (c : Chan) (maxLen : Nat) : Place → Prop
  | cmd : BusyGuarded c maxLen (.cmd c)
  | len : BusyGuarded c maxLen (.len c)
  | seq0 : BusyGuarded c maxLen (.seq0 c)
  | seq1 : BusyGuarded c maxLen (.seq1 c)
  | inp {i : Nat} (h : i < maxLen) : BusyGuarded c maxLen (.inp c i)

theorem unlessBusy_of_busy {c : Chan} {s : State} (t : State) (h : s.busy c = true) : unlessBusy c s t = overrun c s := by
  rw [unlessBusy, if_pos h]

/-- A write to a guarded place of a busy channel is the overrun alone, whatever the word. -/
theorem writePlace_of_busyGuarded {c : Chan} {s : State} {pl : Place} (w : Word) (h : BusyGuarded c s.maxLen pl)
    (hbusy : s.busy c = true) : writePlace s w pl = overrun c s := by
  cases h with
  | cmd | len | seq0 | seq1 => exact unlessBusy_of_busy _ hbusy
  | inp hi => rw [writePlace, if_pos hi, unlessBusy_of_busy _ hbusy]

/-- Settles O37: each of the offsets is that of a guarded place. -/
theorem busyWritesAreDiscarded : Obligations.BusyWritesAreDiscarded := by
  intro c off w s rest h hbusy hmax hoff
  have hpage : pageBase c % 4 = 0 ∧ pageBase c ≤ 0x200 := by cases c <;> decide
  have hplace : off % 4 = 0 ∧ off < 0x10000 ∧ BusyGuarded c s.maxLen (placeAt off) := by
    rcases hoff with rfl | rfl | rfl | rfl | ⟨i, hi4, hi, rfl⟩
    · exact ⟨by omega, by omega, placeAt_page c 0x00 (by decide) ▸ .cmd⟩
    · exact ⟨by omega, by omega, placeAt_page c 0x0C (by decide) ▸ .len⟩
    · exact ⟨by omega, by omega, placeAt_page c 0x14 (by decide) ▸ .seq0⟩
    · exact ⟨by omega, by omega, placeAt_page c 0x18 (by decide) ▸ .seq1⟩
    · obtain ⟨hbase4, hbase⟩ := inBase_aligned_le c
      exact ⟨by omega, by omega, placeAt_inp c i (by omega) ▸ .inp hi⟩
  obtain ⟨h4, h16, hguarded⟩ := hplace
  rw [step_write h h4 h16, writePlace_of_busyGuarded (s := s.setAgenda rest) w hguarded (by rwa [busy_setAgenda]),
    overrun, chan_setAgenda]

/-! ### The drain of the pending commands -/

/-- The rule of every command, `ZEROIZE` too. -/
theorem ruleOf_agenda {i : Instr} {s t : State} {p : Snapshot} {out : Bytes} (h : ruleOf i s p = .ok (t, out)) :
    t.agenda = s.agenda := by
  by_cases hz : ∃ c, i = .zeroize c
  · obtain ⟨c, rfl⟩ := hz
    cases h
    exact agenda_zeroized s
  · exact (rule_keeps (not_exists.mp hz) h).agenda

theorem exec_agenda {i : Instr} {s t : State} (h : exec i s = .next t) : t.agenda = s.agenda := by
  rcases exec_next_cases h with ⟨p, u, out, hr, rfl⟩ | ⟨e, -, hfailed⟩
  · exact (agenda_finish u _ out).trans (ruleOf_agenda hr)
  · exact hfailed.agenda

/-- A completion step of channel `c` leads from `s` to `t`: the channel is idle, and what the other channel has pending and
the events to come are as before (44_control.md R163, 70_reset_and_hazards.md R208, R210). -/
structure EndsPending (c : Chan) (s t : State) : Prop where
  idle : (t.chan c).pending = none
  otherPending : (t.chan (otherChan c)).pending = (s.chan (otherChan c)).pending
  agenda : t.agenda = s.agenda

theorem exec_endsPending {i : Instr} {s : State} {p : Snapshot} (hp : s.Pends i.chan p) :
    ∃ t, exec i s = .next t ∧ EndsPending i.chan s t := by
  obtain ⟨t, hexec, hidle, -⟩ := everyCommandCompletes i s p hp
  exact ⟨t, hexec, hidle, (exec_keepsControl hexec).otherPending, exec_agenda hexec⟩

/-- A completion step ends what is pending, whatever the word: on an idle channel there is nothing to end. -/
theorem complete_endsPending (c : Chan) (s : State) : ∃ t, complete c s = .next t ∧ EndsPending c s t := by
  cases hp : (s.chan c).pending with
  | none => exact ⟨s, complete_of_idle hp, hp, rfl, rfl⟩
  | some p =>
    cases hd : decode c p.word with
    | error e =>
      have hfailed := failed_raiseError (s := s) c .illegalCommand
      exact ⟨_, complete_of_decode_error hp hd, hfailed.idle, hfailed.keepsControl.otherPending, hfailed.agenda⟩
    | ok i =>
      obtain ⟨-, rfl, -⟩ := decode_sound hd
      rw [complete_of_decode_ok hp hd]
      exact exec_endsPending hp

/-- With one channel idle, the drain is the completion step of the other. -/
theorem drain_of_idle {c : Chan} {s : State} (h : (s.chan c).pending = none) : drain s = complete (otherChan c) s := by
  have hidle : s.busy c = false := by rw [State.busy, h, Option.isSome_none]
  have hother : (if s.busy (otherChan c) then complete (otherChan c) s else .next s) = complete (otherChan c) s := by
    split_ifs with hbusy
    · rfl
    · exact (complete_of_idle (by simpa [State.busy] using hbusy)).symm
  rw [← hother]
  cases c <;> simp only [drain, hidle, Bool.false_and, Bool.and_false, Bool.false_eq_true, if_false] <;> rfl

/-- The drain leaves a channel idle: the one beside a channel that was idle, or the one whose engine moves first (log 7). -/
theorem drain_leaves_idle (s : State) : ∃ c t, drain s = .next t ∧ (t.chan c).pending = none ∧ t.agenda = s.agenda := by
  by_cases hsome : ∃ c, (s.chan c).pending = none
  · obtain ⟨c, hc⟩ := hsome
    obtain ⟨t, ht, hends⟩ := complete_endsPending (otherChan c) s
    exact ⟨_, t, (drain_of_idle hc).trans ht, hends.idle, hends.agenda⟩
  · have hbusy : ∀ c, s.busy c = true := fun c => Option.isSome_iff_ne_none.mpr (not_exists.mp hsome c)
    obtain ⟨t, ht, hends⟩ := complete_endsPending (firstEngine s) (s.setDraws (s.draws + 1))
    exact ⟨_, t, by rw [drain, if_pos (by simp [hbusy]), ht], hends.idle, hends.agenda⟩

/-- With nothing on the agenda, a step is the drain. -/
theorem step_of_no_agenda {s : State} (h : s.agenda = []) : step s = drain s := by
  rw [step, nextStep, h]

theorem run_succ_of_step {s t : State} (h : step s = .next t) (k : Nat) :
    Host.Core.run core (k + 1) s = Host.Core.run core k t := by
  have hcore : core.step s = .next t := h
  simp only [Host.Core.run, hcore]

/-- Settles O59: the first step leaves a channel `c` idle, the second ends what the other one has pending. -/
theorem pendingCommandsComplete : Obligations.PendingCommandsComplete := by
  intro s hs
  obtain ⟨c, t, hfirst, hidle, hagenda⟩ := drain_leaves_idle s
  obtain ⟨u, hsecond, hends⟩ := complete_endsPending (otherChan c) t
  have hrun : Host.Core.run core 2 s = .next u := by
    rw [run_succ_of_step ((step_of_no_agenda hs).trans hfirst),
      run_succ_of_step ((step_of_no_agenda (hagenda.trans hs)).trans ((drain_of_idle hidle).trans hsecond))]
    rfl
  refine ⟨u, hrun, fun e => ?_⟩
  rcases eq_or_eq_otherChan c e with rfl | rfl
  · have hkept := hends.otherPending
    rw [otherChan_otherChan] at hkept
    rw [hkept, hidle]
  · exact hends.idle

end Sys2Proof.Machine
end
